-- ==== Sys2Proof/Word.lean ====
section
/-! DEFINITION. The word types of the intx CORE (spec/00_scope.md R5, R8; spec/10_state.md R30, R36, R45, R46). -/

namespace Sys2Proof

/-- The content of one wide register: `XLEN` = 512 bits (10_state.md R30). -/
abbrev Wide := BitVec 512

/-- A 64-bit word, "the primitive of all multi-word algorithms" (00_scope.md glossary, R8). -/
abbrev Word := BitVec 64

/-- A value of the internal 128-bit unit (10_state.md R46). -/
abbrev DoubleWord := BitVec 128

/-- One byte of data memory. -/
abbrev Byte := BitVec 8

/-- One command word (30_encoding.md R100). -/
abbrev Command := BitVec 32

/-- A command index: 13 bits, of which the block uses the values 0 to 4096 (10_state.md R36). -/
abbrev CommandIndex := BitVec 13

end Sys2Proof
end

