-- ==== Sys2Proof/Config.lean ====
section
/-! DEFINITION. The fixed parameters of the block (spec/00_scope.md R5) and the one value the spec leaves open.
No point of this hardware is a parameter of an implementation (spec/93_implementation_defined.md, section 2), and no
command has an undefined result, so there is no free value. -/

namespace Sys2Proof.Config

/-- `DMEM_BYTES`, the size of data memory (00_scope.md R5, 10_state.md R48). -/
abbrev dmemBytes : Nat := 16384

/-- `IMEM_WORDS`, the size of command memory (00_scope.md R5, 10_state.md R49). -/
abbrev imemWords : Nat := 4096

/-- What a wide register holds right after reset. DESIGN CHOICE, unsafe (notes/assumptions/1.md): 10_state.md R52 gives no
value ("unspecified; poison in the model"). The spec's poison mark is kept beside the value, in `State.written`. -/
abbrev resetRegister : Wide := 0

end Sys2Proof.Config
end

