-- ==== Sys2Proof/Syntax.lean ====
section
/-! DEFINITION. The commands of the block: one constructor per row of spec/opcode_table.json (spec/30_encoding.md R109). -/

namespace Sys2Proof

/-- The `W` bit of a command: operand width N = 256 or N = 512 (30_encoding.md R102, 00_scope.md R6). -/
inductive Width where
  | w256
  | w512
deriving DecidableEq, Repr

/-- N, the operand width in bits. -/
def Width.bits : Width → Nat
  | .w256 => 256
  | .w512 => 512

/-- H = N / 2 (00_scope.md R5). -/
def Width.half : Width → Nat
  | .w256 => 128
  | .w512 => 256

/-- N / 8, the bytes of an N-bit value. -/
def Width.bytes : Width → Nat
  | .w256 => 32
  | .w512 => 64

/-- `num_words` = N / 64 (00_scope.md R5). -/
def Width.words : Width → Nat
  | .w256 => 4
  | .w512 => 8

/-- How many halvings take N bits down to one word: N = 64 * 2^levels. -/
def Width.levels : Width → Nat
  | .w256 => 2
  | .w512 => 3

/-- A register field: a 4-bit index, value i names `Xi` (30_encoding.md R108). -/
abbrev Reg := Fin 16

/-- The 37 commands. Operand names are the field names of 30_encoding.md R103 to R105: `rr` is the data register of a
load or store, `len` the `LEN` field (byte count minus one), `addr` the byte address. -/
inductive Instr where
  | nop
  | halt
  | li (w : Width) (rd : Reg) (imm16 : BitVec 16)
  | mov (w : Width) (rd rs1 : Reg)
  | pair (w : Width) (rd rs1 rs2 : Reg)
  | and (w : Width) (rd rs1 rs2 : Reg)
  | or (w : Width) (rd rs1 rs2 : Reg)
  | xor (w : Width) (rd rs1 rs2 : Reg)
  | not (w : Width) (rd rs1 : Reg)
  | shl (w : Width) (rd rs1 rs2 : Reg)
  | shr (w : Width) (rd rs1 rs2 : Reg)
  | add (w : Width) (rd rs1 rs2 : Reg)
  | adc (w : Width) (rd rs1 rs2 : Reg)
  | sub (w : Width) (rd rs1 rs2 : Reg)
  | sbb (w : Width) (rd rs1 rs2 : Reg)
  | neg (w : Width) (rd rs1 : Reg)
  | eq (w : Width) (rd rs1 rs2 : Reg)
  | lt (w : Width) (rd rs1 rs2 : Reg)
  | gt (w : Width) (rd rs1 rs2 : Reg)
  | le (w : Width) (rd rs1 rs2 : Reg)
  | ge (w : Width) (rd rs1 rs2 : Reg)
  | mul (w : Width) (rd rs1 rs2 : Reg)
  | umul (w : Width) (rd rd2 rs1 rs2 : Reg)
  | sqr (w : Width) (rd rs1 : Reg)
  | exp (w : Width) (rd rs1 rs2 : Reg)
  | udivrem (w : Width) (rd rd2 rs1 rs2 : Reg)
  | udiv (w : Width) (rd rs1 rs2 : Reg)
  | urem (w : Width) (rd rs1 rs2 : Reg)
  | sdivrem (w : Width) (rd rd2 rs1 rs2 : Reg)
  | addmod (rd rs1 rs2 rs3 : Reg)
  | mulmod (rd rs1 rs2 rs3 : Reg)
  | ldle (w : Width) (rr : Reg) (addr : BitVec 14)
  | stle (w : Width) (rr : Reg) (addr : BitVec 14)
  | ldbe (w : Width) (rr : Reg) (len : BitVec 6) (addr : BitVec 14)
  | stbe (w : Width) (rr : Reg) (addr : BitVec 14)
  | truncbe (w : Width) (rr : Reg) (len : BitVec 6) (addr : BitVec 14)
  | bswap (w : Width) (rd rs1 : Reg)
deriving DecidableEq, Repr

end Sys2Proof
end

