-- ==== Sys2Proof/WellFormed.lean ====
section
/-! DEFINITION. Which terms of `Instr` are commands the block can be given: the conditions of spec/30_encoding.md R110
that the types of the fields do not already ensure (7, 10 and 11). -/

namespace Sys2Proof

/-- 30_encoding.md R110: condition 7 (`RD` = `RD2` is illegal), condition 10 (`LDBE` needs M ≤ N/8) and condition 11
(`TRUNCBE` needs M < N/8), where M = `LEN` + 1. -/
def Instr.wellFormed : Instr → Bool
  | .nop => true
  | .halt => true
  | .li _ _ _ => true
  | .mov _ _ _ => true
  | .pair _ _ _ _ => true
  | .and _ _ _ _ => true
  | .or _ _ _ _ => true
  | .xor _ _ _ _ => true
  | .not _ _ _ => true
  | .shl _ _ _ _ => true
  | .shr _ _ _ _ => true
  | .add _ _ _ _ => true
  | .adc _ _ _ _ => true
  | .sub _ _ _ _ => true
  | .sbb _ _ _ _ => true
  | .neg _ _ _ => true
  | .eq _ _ _ _ => true
  | .lt _ _ _ _ => true
  | .gt _ _ _ _ => true
  | .le _ _ _ _ => true
  | .ge _ _ _ _ => true
  | .mul _ _ _ _ => true
  | .umul _ rd rd2 _ _ => decide (rd ≠ rd2)
  | .sqr _ _ _ => true
  | .exp _ _ _ _ => true
  | .udivrem _ rd rd2 _ _ => decide (rd ≠ rd2)
  | .udiv _ _ _ _ => true
  | .urem _ _ _ _ => true
  | .sdivrem _ rd rd2 _ _ => decide (rd ≠ rd2)
  | .addmod _ _ _ _ => true
  | .mulmod _ _ _ _ => true
  | .ldle _ _ _ => true
  | .stle _ _ _ => true
  | .ldbe w _ len _ => decide (len.toNat + 1 ≤ w.bytes)
  | .stbe _ _ _ => true
  | .truncbe w _ len _ => decide (len.toNat + 1 < w.bytes)
  | .bswap _ _ _ => true

end Sys2Proof
end

