-- ==== Sys2Proof/Decode.lean ====
section
/-! DEFINITION. The decoder and the encoder (spec/30_encoding.md R100 to R112). -/

namespace Sys2Proof

/-- Why a command word is illegal: the numbered conditions of 30_encoding.md R110. The block reports all of them alike,
as the fault `ILLEGAL_COMMAND`; which of several conditions is named is the decoder's order (DESIGN CHOICE, safe:
notes/assumptions/9.md). -/
inductive Illegal where
  /-- Condition 1: `OP` is reserved (R111). -/
  | reservedOpcode
  /-- Condition 2: bit 7 is 1. -/
  | reservedBit7
  /-- Condition 3: Format R with bits 31:24 not 0. -/
  | reservedHighByte
  /-- Condition 4: Format R with a register field the command does not use not 0. -/
  | unusedRegisterField
  /-- Condition 5: Format I with bits 15:12 not 0. -/
  | reservedImmediateField
  /-- Condition 6: Format N with bits 31:6 not 0. -/
  | operandsOnFormatN
  /-- Condition 7: `UMUL`, `UDIVREM` or `SDIVREM` with `RD` = `RD2`. -/
  | equalDestinations
  /-- Condition 8: `ADDMOD` or `MULMOD` with `W` = 1. -/
  | modularAtWidth512
  /-- Condition 9: `LDLE`, `STLE` or `STBE` with `LEN` not 0. -/
  | lengthNotZero
  /-- Condition 10: `LDBE` with `LEN` + 1 > N/8. -/
  | loadTooLong
  /-- Condition 11: `TRUNCBE` with `LEN` + 1 ≥ N/8. -/
  | truncationTooLong
deriving DecidableEq, Repr

/-- Bits `lo + n - 1` down to `lo` of a command word (00_scope.md R8). -/
def field (c lo n : Nat) : Nat := c / 2 ^ lo % 2 ^ n

/-- The register named by the 4-bit field at bit `lo` (30_encoding.md R108). -/
def regField (c lo : Nat) : Reg := Fin.ofNat 16 (field c lo 4)

/-- The `W` bit, bit 6 (30_encoding.md R101, R102). -/
def widthField (c : Nat) : Width := if field c 6 1 = 0 then .w256 else .w512

/-- The fields of Format R (30_encoding.md R103); `rs3` is `RD2` for `UMUL`, `UDIVREM` and `SDIVREM`. -/
structure FieldsR where
  w : Width
  rd : Reg
  rs1 : Reg
  rs2 : Reg
  rs3 : Reg
deriving DecidableEq, Repr

/-- The fields of Format M (30_encoding.md R105). -/
structure FieldsM where
  w : Width
  rr : Reg
  len : BitVec 6
  addr : BitVec 14
deriving DecidableEq, Repr

/-- Format N: bits 31:6 are 0 (30_encoding.md R106, R110 condition 6). -/
def formatN (i : Instr) (c : Nat) : Except Illegal Instr :=
  if field c 6 26 ≠ 0 then .error .operandsOnFormatN
  else .ok i

/-- Format I (30_encoding.md R104, R107, R110 condition 5). -/
def formatI (mk : Width → Reg → BitVec 16 → Instr) (c : Nat) : Except Illegal Instr :=
  if field c 12 4 ≠ 0 then .error .reservedImmediateField
  else .ok (mk (widthField c) (regField c 8) (BitVec.ofNat 16 (field c 16 16)))

/-- Format R (30_encoding.md R103, R110 conditions 3 and 4). `uses2` and `uses3` say whether the command uses the fields
`RS2` and `RS3` (`RD2`), column "fields used" of R109. -/
def formatR (uses2 uses3 : Bool) (mk : FieldsR → Except Illegal Instr) (c : Nat) : Except Illegal Instr :=
  if field c 24 8 ≠ 0 then .error .reservedHighByte
  else if (uses2 = false ∧ field c 16 4 ≠ 0) ∨ (uses3 = false ∧ field c 20 4 ≠ 0) then .error .unusedRegisterField
  else mk ⟨widthField c, regField c 8, regField c 12, regField c 16, regField c 20⟩

/-- Format M (30_encoding.md R105, R107). -/
def formatM (mk : FieldsM → Except Illegal Instr) (c : Nat) : Except Illegal Instr :=
  mk ⟨widthField c, regField c 8, BitVec.ofNat 6 (field c 12 6), BitVec.ofNat 14 (field c 18 14)⟩

/-- `RD`, `RS1`. -/
def decode2 (mk : Width → Reg → Reg → Instr) : Nat → Except Illegal Instr :=
  formatR false false fun f => .ok (mk f.w f.rd f.rs1)

/-- `RD`, `RS1`, `RS2`. -/
def decode3 (mk : Width → Reg → Reg → Reg → Instr) : Nat → Except Illegal Instr :=
  formatR true false fun f => .ok (mk f.w f.rd f.rs1 f.rs2)

/-- `RD`, `RD2`, `RS1`, `RS2`, with `RD` ≠ `RD2` (30_encoding.md R110 condition 7). -/
def decodeTwoResults (mk : Width → Reg → Reg → Reg → Reg → Instr) : Nat → Except Illegal Instr :=
  formatR true true fun f => if f.rd = f.rs3 then .error .equalDestinations else .ok (mk f.w f.rd f.rs3 f.rs1 f.rs2)

/-- `RD`, `RS1`, `RS2`, `RS3`, only at `W` = 0 (30_encoding.md R110 condition 8). -/
def decodeModular (mk : Reg → Reg → Reg → Reg → Instr) : Nat → Except Illegal Instr :=
  formatR true true fun f => if f.w = .w512 then .error .modularAtWidth512 else .ok (mk f.rd f.rs1 f.rs2 f.rs3)

/-- `RR`, `ADDR`, with `LEN` = 0 (30_encoding.md R110 condition 9). -/
def decodeWholeAccess (mk : Width → Reg → BitVec 14 → Instr) : Nat → Except Illegal Instr :=
  formatM fun f => if f.len ≠ 0 then .error .lengthNotZero else .ok (mk f.w f.rr f.addr)

/-- The decoder: total on every 32-bit word, rejecting an illegal word by the condition it meets
(30_encoding.md R109 to R112). -/
def decode (c : Command) : Except Illegal Instr :=
  let n := c.toNat
  if field n 7 1 ≠ 0 then .error .reservedBit7
  else
  match field n 0 6 with
  | 0x01 => formatN .nop n
  | 0x02 => formatN .halt n
  | 0x04 => formatI .li n
  | 0x05 => decode2 .mov n
  | 0x06 => decode3 .pair n
  | 0x08 => decode3 .and n
  | 0x09 => decode3 .or n
  | 0x0A => decode3 .xor n
  | 0x0B => decode2 .not n
  | 0x0C => decode3 .shl n
  | 0x0D => decode3 .shr n
  | 0x10 => decode3 .add n
  | 0x11 => decode3 .adc n
  | 0x12 => decode3 .sub n
  | 0x13 => decode3 .sbb n
  | 0x14 => decode2 .neg n
  | 0x18 => decode3 .eq n
  | 0x19 => decode3 .lt n
  | 0x1A => decode3 .gt n
  | 0x1B => decode3 .le n
  | 0x1C => decode3 .ge n
  | 0x20 => decode3 .mul n
  | 0x21 => decodeTwoResults .umul n
  | 0x22 => decode2 .sqr n
  | 0x23 => decode3 .exp n
  | 0x28 => decodeTwoResults .udivrem n
  | 0x29 => decode3 .udiv n
  | 0x2A => decode3 .urem n
  | 0x2B => decodeTwoResults .sdivrem n
  | 0x30 => decodeModular .addmod n
  | 0x31 => decodeModular .mulmod n
  | 0x38 => decodeWholeAccess .ldle n
  | 0x39 => decodeWholeAccess .stle n
  | 0x3A => formatM (fun f => if f.len.toNat + 1 > f.w.bytes then .error .loadTooLong
      else .ok (.ldbe f.w f.rr f.len f.addr)) n
  | 0x3B => decodeWholeAccess .stbe n
  | 0x3C => formatM (fun f => if f.len.toNat + 1 ≥ f.w.bytes then .error .truncationTooLong
      else .ok (.truncbe f.w f.rr f.len f.addr)) n
  | 0x3D => decode2 .bswap n
  | _ => .error .reservedOpcode

/-- The value of the `W` bit (30_encoding.md R102). -/
def Width.bit : Width → Nat
  | .w256 => 0
  | .w512 => 1

/-- The word of a Format R command (30_encoding.md R103). -/
def encodeR (op : Nat) (w : Width) (rd rs1 rs2 rs3 : Nat) : Command :=
  BitVec.ofNat 32 (op + w.bit * 2 ^ 6 + rd * 2 ^ 8 + rs1 * 2 ^ 12 + rs2 * 2 ^ 16 + rs3 * 2 ^ 20)

/-- The word of a Format I command (30_encoding.md R104). -/
def encodeI (op : Nat) (w : Width) (rd imm16 : Nat) : Command :=
  BitVec.ofNat 32 (op + w.bit * 2 ^ 6 + rd * 2 ^ 8 + imm16 * 2 ^ 16)

/-- The word of a Format M command (30_encoding.md R105). -/
def encodeM (op : Nat) (w : Width) (rr len addr : Nat) : Command :=
  BitVec.ofNat 32 (op + w.bit * 2 ^ 6 + rr * 2 ^ 8 + len * 2 ^ 12 + addr * 2 ^ 18)

/-- The encoder: the command word of an instruction, from the tables of 30_encoding.md R103 to R106 and R109. -/
def encode : Instr → Command
  | .nop => 0x01
  | .halt => 0x02
  | .li w rd imm16 => encodeI 0x04 w rd imm16.toNat
  | .mov w rd rs1 => encodeR 0x05 w rd rs1 0 0
  | .pair w rd rs1 rs2 => encodeR 0x06 w rd rs1 rs2 0
  | .and w rd rs1 rs2 => encodeR 0x08 w rd rs1 rs2 0
  | .or w rd rs1 rs2 => encodeR 0x09 w rd rs1 rs2 0
  | .xor w rd rs1 rs2 => encodeR 0x0A w rd rs1 rs2 0
  | .not w rd rs1 => encodeR 0x0B w rd rs1 0 0
  | .shl w rd rs1 rs2 => encodeR 0x0C w rd rs1 rs2 0
  | .shr w rd rs1 rs2 => encodeR 0x0D w rd rs1 rs2 0
  | .add w rd rs1 rs2 => encodeR 0x10 w rd rs1 rs2 0
  | .adc w rd rs1 rs2 => encodeR 0x11 w rd rs1 rs2 0
  | .sub w rd rs1 rs2 => encodeR 0x12 w rd rs1 rs2 0
  | .sbb w rd rs1 rs2 => encodeR 0x13 w rd rs1 rs2 0
  | .neg w rd rs1 => encodeR 0x14 w rd rs1 0 0
  | .eq w rd rs1 rs2 => encodeR 0x18 w rd rs1 rs2 0
  | .lt w rd rs1 rs2 => encodeR 0x19 w rd rs1 rs2 0
  | .gt w rd rs1 rs2 => encodeR 0x1A w rd rs1 rs2 0
  | .le w rd rs1 rs2 => encodeR 0x1B w rd rs1 rs2 0
  | .ge w rd rs1 rs2 => encodeR 0x1C w rd rs1 rs2 0
  | .mul w rd rs1 rs2 => encodeR 0x20 w rd rs1 rs2 0
  | .umul w rd rd2 rs1 rs2 => encodeR 0x21 w rd rs1 rs2 rd2
  | .sqr w rd rs1 => encodeR 0x22 w rd rs1 0 0
  | .exp w rd rs1 rs2 => encodeR 0x23 w rd rs1 rs2 0
  | .udivrem w rd rd2 rs1 rs2 => encodeR 0x28 w rd rs1 rs2 rd2
  | .udiv w rd rs1 rs2 => encodeR 0x29 w rd rs1 rs2 0
  | .urem w rd rs1 rs2 => encodeR 0x2A w rd rs1 rs2 0
  | .sdivrem w rd rd2 rs1 rs2 => encodeR 0x2B w rd rs1 rs2 rd2
  | .addmod rd rs1 rs2 rs3 => encodeR 0x30 .w256 rd rs1 rs2 rs3
  | .mulmod rd rs1 rs2 rs3 => encodeR 0x31 .w256 rd rs1 rs2 rs3
  | .ldle w rr addr => encodeM 0x38 w rr 0 addr.toNat
  | .stle w rr addr => encodeM 0x39 w rr 0 addr.toNat
  | .ldbe w rr len addr => encodeM 0x3A w rr len.toNat addr.toNat
  | .stbe w rr addr => encodeM 0x3B w rr 0 addr.toNat
  | .truncbe w rr len addr => encodeM 0x3C w rr len.toNat addr.toNat
  | .bswap w rd rs1 => encodeR 0x3D w rd rs1 0 0

/-- The instruction the decoder reads from the `nbits` low bits of `w`, all higher bits 0. A command is one whole 32-bit
word of `IMEM`, which has no byte order (30_encoding.md R100, 20_memory.md R75). -/
def decodeTableWord (nbits w : Nat) : Option Instr :=
  match decode (BitVec.ofNat 32 (w % 2 ^ nbits)) with
  | .ok i => some i
  | .error _ => none

end Sys2Proof
end

