-- ==== Sys2Proof/Machine/State.lean ====
section
/-! DEFINITION. All the state the spec gives the block (spec/10_state.md), the reasons a step can stop, and reset. -/

namespace Sys2Proof.Machine

/-- The run state `STATE` (10_state.md R37). -/
inductive RunState where
  | idle
  | running
  | halted
  | faulted
deriving DecidableEq, Repr

/-- The fault cause codes, the legal values of `CAUSE.CODE` (10_state.md R41, 60_exceptions.md R330). -/
inductive Cause where
  | none
  | illegalCommand
  | divideByZero
  | dmemRange
  | imemRange
deriving DecidableEq, Repr

/-- What an `UNWRITTEN_READ` read (60_exceptions.md R333). -/
inductive Unwritten where
  /-- A wide register no command has written since reset (10_state.md R33). -/
  | register (r : Reg)
  /-- A `DMEM` byte nobody has written since reset (20_memory.md R86). -/
  | dmemByte (address : Nat)
  /-- An `IMEM` word the host has not written since reset (60_exceptions.md R334). -/
  | imemWord (index : Nat)
deriving DecidableEq, Repr

/-- Why a step has no successor state. The coded faults of 60_exceptions.md R330 are not here: they are next states. -/
inductive Fault where
  /-- The model outcome `UNWRITTEN_READ` of 60_exceptions.md R333. Raised by a fetch of a poisoned `IMEM` word, by a load
  (or a host read) of a poisoned `DMEM` byte, and, in `strictStep` only, by a read of a poisoned register. Safe: the real
  block reads some unspecified value and goes on, and nothing is proved about a run past this point. -/
  | unwrittenRead (what : Unwritten)
deriving DecidableEq, Repr

/-- Why the model gives a step no meaning. -/
inductive Refusal where
  /-- An instruction whose meaning is not written yet; raised by no arm of `exec`. Safe. -/
  | notModelled (mnemonic : String)
  /-- A host access to `IMEM` or `DMEM` while `RUNNING`: "the model gives it no move" (10_state.md R50,
  70_reset_and_hazards.md R382). Raised by `hostMove` and the host's reads. Safe. -/
  | hostDutyViolation
deriving DecidableEq, Repr

/-- What the host can do that changes state (10_state.md R38, R50; 70_reset_and_hazards.md R370). Its reads change nothing
and are the functions of Machine/Host.lean. -/
inductive HostMove where
  /-- Assert the reset input (70_reset_and_hazards.md R370). -/
  | reset
  /-- A 32-bit write at a byte offset of the CSR window (10_state.md R38). -/
  | writeCsr (offset : Nat) (value : BitVec 32)
  /-- A write of one whole word of command memory. -/
  | writeImem (index : BitVec 12) (word : Command)
  /-- A write of one byte of data memory. -/
  | writeDmem (address : BitVec 14) (byte : Byte)
deriving DecidableEq, Repr

/-- Who moves in one step: the block has exactly two agents (10_state.md R50). -/
inductive HostTurn where
  /-- The host lets the block move. -/
  | pass
  /-- The host makes this move. -/
  | move (m : HostMove)
deriving DecidableEq, Repr

/-- The state of the block. `CTRL`, `STATUS` and `done` store nothing of their own: `CTRL` always reads 0 (10_state.md
R39), `STATUS` and `done` are views of `runState` and `carry` (R40, R51). The divider's working state of R44 lives inside
one division command and is `DivArgs` of Machine/Divider.lean (notes/assumptions/10.md). -/
structure State where
  /-- `X0` to `X15` (R30). -/
  regs : Vector Wide 16
  /-- Which wide registers have been written since reset: the rest are poison (R33). -/
  written : Vector Bool 16
  /-- The carry flag `C` (R34). -/
  carry : Bool
  /-- The program counter (R36). -/
  pc : CommandIndex
  /-- `STATE` (R37). -/
  runState : RunState
  /-- `CAUSE.CODE` (R41). -/
  cause : Cause
  /-- `FPC.INDEX` (R42). -/
  fpc : CommandIndex
  /-- `ENTRY.INDEX` (R43). -/
  entry : CommandIndex
  /-- `DMEM` (R48): the written bytes, addresses strictly rising; an address not listed is poison (20_memory.md R86). -/
  dmem : List Host.Cell
  /-- `IMEM` (R49): the written words, indices strictly rising; an index not listed is poison (60_exceptions.md R334). -/
  imem : List (Nat × Command)
  /-- THE MODEL'S OWN field: the host's coming turns, first turn first; with none left the block moves
  (notes/assumptions/3.md). -/
  hostTurns : List HostTurn
deriving DecidableEq, Repr

/-- The machine right after reset (10_state.md R52, 70_reset_and_hazards.md R370). The values in `regs` are the model's
choice (notes/assumptions/1.md); the spec's own statement about them, poison, is `written`. -/
def State.reset : State where
  regs := Vector.replicate 16 Config.resetRegister
  written := Vector.replicate 16 false
  carry := false
  pc := 0
  runState := .idle
  cause := .none
  fpc := 0
  entry := 0
  dmem := []
  imem := []
  hostTurns := []

end Sys2Proof.Machine
end

