-- ==== Sys2Proof/Machine/Ops.lean ====
section
/-! DEFINITION. The named operations over registers, memory and run state: register access, one memory as a canonical list,
advancing `pc`, fault entry and START. -/

namespace Sys2Proof.Machine

/-! ## Sparse memory -/

/-- The value at address `a`; `none` where nothing has been written since reset (20_memory.md R86). -/
def Memory.read {α : Type} : List (Nat × α) → Nat → Option α
  | [], _ => none
  | (k, v) :: m, a => if k = a then some v else Memory.read m a

/-- Write one cell, keeping the addresses strictly rising. -/
def Memory.write {α : Type} : List (Nat × α) → Nat → α → List (Nat × α)
  | [], a, v => [(a, v)]
  | (k, u) :: m, a, v =>
    if a < k then (a, v) :: (k, u) :: m
    else if a = k then (a, v) :: m
    else (k, u) :: Memory.write m a v

/-- `n` cells at `a, a + 1, …`; `.error b` names the first address `b` among them that was never written
(00_scope.md R11 `MemRead`, 20_memory.md R80, R86). -/
def Memory.readRange {α : Type} (m : List (Nat × α)) (a : Nat) : Nat → Except Nat (List α)
  | 0 => .ok []
  | n + 1 =>
    match Memory.read m a with
    | none => .error a
    | some v =>
      match Memory.readRange m (a + 1) n with
      | .error b => .error b
      | .ok vs => .ok (v :: vs)

/-- Write the cells of a list at `a, a + 1, …` (00_scope.md R11 `MemWrite`, 20_memory.md R80). -/
def Memory.writeRange {α : Type} (m : List (Nat × α)) (a : Nat) : List α → List (Nat × α)
  | [] => m
  | v :: vs => Memory.writeRange (Memory.write m a v) (a + 1) vs

/-- The canonical form: addresses strictly rising, all below `size`. An unlisted address reads as no value, so no entry
can equal what an unlisted address reads as. -/
def Memory.wf {α : Type} (size : Nat) : List (Nat × α) → Bool
  | [] => true
  | (k, _) :: m => decide (k < size) && m.all (fun c => decide (k < c.1)) && Memory.wf size m

/-! ## Registers -/

/-- `x[r]` (00_scope.md R11). -/
def State.reg (s : State) (r : Reg) : Wide := s.regs[r]

/-- Whether register `r` holds a value in the spec's sense, that is, is not poison (10_state.md R33). -/
def State.isWritten (s : State) (r : Reg) : Bool := s.written[r]

/-- `x[r] <- v`; the register then holds a value (10_state.md R33). -/
def State.setReg (s : State) (r : Reg) (v : Wide) : State :=
  { s with regs := s.regs.set r v, written := s.written.set r true }

/-- Byte `a` of data memory, if it has been written. -/
def State.dmemByte (s : State) (a : Nat) : Option Byte := Memory.read s.dmem a

/-- Word `i` of command memory, if it has been written. -/
def State.imemWord (s : State) (i : Nat) : Option Command := Memory.read s.imem i

/-! ## Control -/

/-- `pc <- pc + 1`, the end of every command that completes and is not `HALT` (10_state.md R36). -/
def State.advance (s : State) : State := { s with pc := s.pc + 1 }

/-- Fault entry (60_exceptions.md R331): `CAUSE.CODE <- k; FPC.INDEX <- pc; STATE <- FAULTED`, and nothing else changes. -/
def State.takeFault (s : State) (k : Cause) : State :=
  { s with cause := k, fpc := s.pc, runState := .faulted }

/-- A command or fetch that raises a coded fault takes the fault entry: a next state, which the host can observe. -/
def raise (k : Cause) (s : State) : Host.Outcome State Fault Refusal := .next (s.takeFault k)

/-- `HALT`'s effect (47_control.md R322): `FPC <- pc; STATE <- HALTED`; `pc` keeps the index of the `HALT`. -/
def State.halt (s : State) : State := { s with fpc := s.pc, runState := .halted }

/-- START, the block's only way back to `RUNNING` after a halt or a fault (10_state.md R39, 60_exceptions.md R335):
`pc <- ENTRY; C <- 0; CAUSE <- 0; STATE <- RUNNING`, keeping everything else. -/
def State.start (s : State) : State :=
  { s with pc := s.entry, carry := false, cause := .none, runState := .running }

/-- The `done` output (10_state.md R51, 60_exceptions.md R340). -/
def State.done (s : State) : Bool := s.runState = .halted ∨ s.runState = .faulted

end Sys2Proof.Machine
end

