-- ==== Sys2Proof/Machine/Operands.lean ====
section
/-! DEFINITION. Operands, results and byte images at width N, and the shapes of command built from them
(spec/10_state.md R31, R32; spec/20_memory.md R71 to R77; spec/43_move_and_serialization.md R203). -/

namespace Sys2Proof.Machine

/-- `trunc_k(v)` (00_scope.md R9). -/
def trunc (k v : Nat) : Nat := v % 2 ^ k

/-- `v[lo + n - 1 : lo]` (00_scope.md R8). -/
def bitsAt (v lo n : Nat) : Nat := v / 2 ^ lo % 2 ^ n

/-- `word_i(v)` (00_scope.md R8). -/
def wordAt (v i : Nat) : Nat := bitsAt v (64 * i) 64

/-- `X_N(r) = trunc_N(x[r])`, the operand a command of width N reads (10_state.md R31). -/
def State.operand (s : State) (w : Width) (r : Reg) : Nat := trunc w.bits (s.reg r).toNat

/-- `x[rd] <- zext_512(v)`, the result write (10_state.md R32); every caller gives `v < 2^N`. -/
def State.writeResult (s : State) (rd : Reg) (v : Nat) : State := s.setReg rd (BitVec.ofNat 512 v)

/-! ## Byte images -/

/-- The little-endian image of the low `n` bytes of `v`: `b[k] = v[8k+7 : 8k]` (20_memory.md R72). -/
def leImage (n v : Nat) : List Byte := (List.range n).map fun k => BitVec.ofNat 8 (v / 2 ^ (8 * k))

/-- The big-endian image of the low `n` bytes of `v`: `b[k] = v[8(n-1-k)+7 : 8(n-1-k)]` (20_memory.md R73). -/
def beImage (n v : Nat) : List Byte := (List.range n).map fun k => BitVec.ofNat 8 (v / 2 ^ (8 * (n - 1 - k)))

/-- `sum over k of b[k] * 2^(8k)` (43_move_and_serialization.md R204). -/
def ofLe : List Byte → Nat
  | [] => 0
  | b :: bs => b.toNat + 2 ^ 8 * ofLe bs

/-- `sum over k < M of b[k] * 2^(8(M-1-k))` (43_move_and_serialization.md R206). -/
def ofBe (bs : List Byte) : Nat := ofLe bs.reverse

/-- M, the byte count of a command with a `LEN` field (30_encoding.md R105, R107). -/
def byteCount (len : BitVec 6) : Nat := len.toNat + 1

/-! ## Shapes of command -/

/-- The command completes with one N-bit result (10_state.md R32, R36). -/
def finish (rd : Reg) (v : Nat) (s : State) : Host.Outcome State Fault Refusal := .next (s.writeResult rd v).advance

/-- The command completes with two N-bit results, both computed before either is written (00_scope.md R12). Equal
destinations are illegal (30_encoding.md R110; DESIGN CHOICE, safe: notes/assumptions/16.md). -/
def finishTwo (rd rd2 : Reg) (v v2 : Nat) (s : State) : Host.Outcome State Fault Refusal :=
  .next ((s.writeResult rd v).writeResult rd2 v2).advance

/-- The command completes with one N-bit result and a new carry flag (10_state.md R34). -/
def finishCarry (rd : Reg) (r : Nat × Bool) (s : State) : Host.Outcome State Fault Refusal :=
  .next { (s.writeResult rd r.1).advance with carry := r.2 }

/-- A load of `n` bytes at `addr` (43_move_and_serialization.md R203): the range check, then the poison of the bytes, then
the value the bytes stand for. -/
def load (n : Nat) (value : List Byte → Nat) (rd : Reg) (addr : BitVec 14) (s : State) :
    Host.Outcome State Fault Refusal :=
  if addr.toNat + n > Config.dmemBytes then raise .dmemRange s
  else
    match Memory.readRange s.dmem addr.toNat n with
    | .error a => .fault (.unwrittenRead (.dmemByte a))
    | .ok bs => finish rd (value bs) s

/-- A store of a list of bytes at `addr` (43_move_and_serialization.md R203). -/
def store (bytes : List Byte) (addr : BitVec 14) (s : State) : Host.Outcome State Fault Refusal :=
  if addr.toNat + bytes.length > Config.dmemBytes then raise .dmemRange s
  else .next { s with dmem := Memory.writeRange s.dmem addr.toNat bytes }.advance

end Sys2Proof.Machine
end

