-- ==== Sys2Proof/Machine/Flags.lean ====
section
/-! DEFINITION. The carry and borrow of the wide adder and subtracter (spec/42_additive.md R170, R175) and the comparisons
made from the borrow (R178). The word-by-word circuits are in Machine/RippleUnits.lean. -/

namespace Sys2Proof.Machine

/-- `add_with_carry(x, y, cin) -> (sum, cout)` at width N: `x + y + cin = cout * 2^N + sum` (42_additive.md R170). -/
def addWithCarry (w : Width) (x y : Nat) (cin : Bool) : Nat × Bool :=
  (trunc w.bits (x + y + cin.toNat), decide (2 ^ w.bits ≤ x + y + cin.toNat))

/-- `sub_with_carry(x, y, bin) -> (diff, borrow)` at width N: `x - y - bin = diff - borrow * 2^N`
(42_additive.md R175). -/
def subWithBorrow (w : Width) (x y : Nat) (bin : Bool) : Nat × Bool :=
  (trunc w.bits (2 ^ w.bits + x - (y + bin.toNat)), decide (x < y + bin.toNat))

/-- `NEG`: two's-complement negation at width N, `add_with_carry(NOT_N(a), 0, 1)` (42_additive.md R173). -/
def negate (w : Width) (a : Nat) : Nat := (addWithCarry w (2 ^ w.bits - 1 - a) 0 true).1

/-- `x < y` as the final borrow of the subtracter (42_additive.md R178). -/
def borrowOf (w : Width) (x y : Nat) : Bool := (subWithBorrow w x y false).2

end Sys2Proof.Machine
end

