-- ==== Sys2Proof/Machine/Additive.lean ====
section
/-! DEFINITION. The additive commands (spec/42_additive.md R170 to R177). -/

namespace Sys2Proof.Machine

/-- `ADD` (R171): carry in 0, carry out to `C`. -/
def execAdd (w : Width) (rd rs1 rs2 : Reg) (s : State) : Host.Outcome State Fault Refusal :=
  finishCarry rd (addWithCarry w (s.operand w rs1) (s.operand w rs2) false) s

/-- `ADC` (R172): carry in from `C`, carry out to `C`. -/
def execAdc (w : Width) (rd rs1 rs2 : Reg) (s : State) : Host.Outcome State Fault Refusal :=
  finishCarry rd (addWithCarry w (s.operand w rs1) (s.operand w rs2) s.carry) s

/-- `SUB` (R176): borrow in 0, borrow out to `C`. -/
def execSub (w : Width) (rd rs1 rs2 : Reg) (s : State) : Host.Outcome State Fault Refusal :=
  finishCarry rd (subWithBorrow w (s.operand w rs1) (s.operand w rs2) false) s

/-- `SBB` (R177): borrow in from `C`, borrow out to `C`. -/
def execSbb (w : Width) (rd rs1 rs2 : Reg) (s : State) : Host.Outcome State Fault Refusal :=
  finishCarry rd (subWithBorrow w (s.operand w rs1) (s.operand w rs2) s.carry) s

/-- `NEG` (R173): `C` is unchanged. -/
def execNeg (w : Width) (rd rs1 : Reg) (s : State) : Host.Outcome State Fault Refusal :=
  finish rd (negate w (s.operand w rs1)) s

end Sys2Proof.Machine
end

