-- ==== Sys2Proof/Machine/Bitwise.lean ====
section
/-! DEFINITION. The bitwise commands (spec/41_bitwise_shift.md R140 to R143). -/

namespace Sys2Proof.Machine

/-- `AND` (R140). -/
def execAnd (w : Width) (rd rs1 rs2 : Reg) (s : State) : Host.Outcome State Fault Refusal :=
  finish rd (s.operand w rs1 &&& s.operand w rs2) s

/-- `OR` (R141). -/
def execOr (w : Width) (rd rs1 rs2 : Reg) (s : State) : Host.Outcome State Fault Refusal :=
  finish rd (s.operand w rs1 ||| s.operand w rs2) s

/-- `XOR` (R142). -/
def execXor (w : Width) (rd rs1 rs2 : Reg) (s : State) : Host.Outcome State Fault Refusal :=
  finish rd (s.operand w rs1 ^^^ s.operand w rs2) s

/-- `NOT` (R143): `r = 2^N - 1 - a`. -/
def execNot (w : Width) (rd rs1 : Reg) (s : State) : Host.Outcome State Fault Refusal :=
  finish rd (2 ^ w.bits - 1 - s.operand w rs1) s

end Sys2Proof.Machine
end

