-- ==== Sys2Proof/Machine/Compare.lean ====
section
/-! DEFINITION. The comparison commands (spec/42_additive.md R178 to R184): 1 for true, 0 for false, `C` unchanged. -/

namespace Sys2Proof.Machine

/-- `EQ` (R180): all words equal. -/
def execEq (w : Width) (rd rs1 rs2 : Reg) (s : State) : Host.Outcome State Fault Refusal :=
  finish rd (decide (s.operand w rs1 = s.operand w rs2)).toNat s

/-- `LT` (R181): the borrow of `rs1 - rs2`. -/
def execLt (w : Width) (rd rs1 rs2 : Reg) (s : State) : Host.Outcome State Fault Refusal :=
  finish rd (borrowOf w (s.operand w rs1) (s.operand w rs2)).toNat s

/-- `GT` (R182): the borrow of `rs2 - rs1`. -/
def execGt (w : Width) (rd rs1 rs2 : Reg) (s : State) : Host.Outcome State Fault Refusal :=
  finish rd (borrowOf w (s.operand w rs2) (s.operand w rs1)).toNat s

/-- `LE` (R183): no borrow of `rs2 - rs1`. -/
def execLe (w : Width) (rd rs1 rs2 : Reg) (s : State) : Host.Outcome State Fault Refusal :=
  finish rd (1 - (borrowOf w (s.operand w rs2) (s.operand w rs1)).toNat) s

/-- `GE` (R184): no borrow of `rs1 - rs2`. -/
def execGe (w : Width) (rd rs1 rs2 : Reg) (s : State) : Host.Outcome State Fault Refusal :=
  finish rd (1 - (borrowOf w (s.operand w rs1) (s.operand w rs2)).toNat) s

end Sys2Proof.Machine
end

