-- ==== Sys2Proof/Machine/Control.lean ====
section
/-! DEFINITION. The control commands (spec/47_control.md R320, R322). -/

namespace Sys2Proof.Machine

/-- `NOP` (R320). -/
def execNop (s : State) : Host.Outcome State Fault Refusal := .next s.advance

/-- `HALT` (R322). -/
def execHalt (s : State) : Host.Outcome State Fault Refusal := .next s.halt

end Sys2Proof.Machine
end

