-- ==== Sys2Proof/Machine/Division.lean ====
section
/-! DEFINITION. The division commands (spec/45_division.md R260, R280 to R286). "A model may use either rule R260 directly or
the datapath" (R277): the commands use R260, and the datapath is Machine/Divider.lean. -/

namespace Sys2Proof.Machine

/-- `udivrem(u, v) = (q, r)` for `v ≠ 0` (R260). -/
def udivremValue (u v : Nat) : Nat × Nat := (u / v, u % v)

/-- The top bit of an N-bit value is its sign (R283). -/
def isNegative (w : Width) (a : Nat) : Bool := decide (2 ^ (w.bits - 1) ≤ a)

/-- `NEG` of a value, or the value itself. -/
def negateIf (c : Bool) (w : Width) (a : Nat) : Nat := if c then negate w a else a

/-- `sdivrem(u, v)` for `v ≠ 0` (R283). -/
def sdivremValue (w : Width) (u v : Nat) : Nat × Nat :=
  let su := isNegative w u
  let sv := isNegative w v
  let qr := udivremValue (negateIf su w u) (negateIf sv w v)
  (negateIf (su != sv) w qr.1, negateIf su w qr.2)

/-- `UDIVREM` (R280): `rd` the quotient, `rd2` the remainder; a zero divisor raises `DIVIDE_BY_ZERO` (R286). -/
def execUdivrem (w : Width) (rd rd2 rs1 rs2 : Reg) (s : State) : Host.Outcome State Fault Refusal :=
  if s.operand w rs2 = 0 then raise .divideByZero s
  else
    let qr := udivremValue (s.operand w rs1) (s.operand w rs2)
    finishTwo rd rd2 qr.1 qr.2 s

/-- `UDIV` (R281). -/
def execUdiv (w : Width) (rd rs1 rs2 : Reg) (s : State) : Host.Outcome State Fault Refusal :=
  if s.operand w rs2 = 0 then raise .divideByZero s
  else finish rd (udivremValue (s.operand w rs1) (s.operand w rs2)).1 s

/-- `UREM` (R282). -/
def execUrem (w : Width) (rd rs1 rs2 : Reg) (s : State) : Host.Outcome State Fault Refusal :=
  if s.operand w rs2 = 0 then raise .divideByZero s
  else finish rd (udivremValue (s.operand w rs1) (s.operand w rs2)).2 s

/-- `SDIVREM` (R284). -/
def execSdivrem (w : Width) (rd rd2 rs1 rs2 : Reg) (s : State) : Host.Outcome State Fault Refusal :=
  if s.operand w rs2 = 0 then raise .divideByZero s
  else
    let qr := sdivremValue w (s.operand w rs1) (s.operand w rs2)
    finishTwo rd rd2 qr.1 qr.2 s

end Sys2Proof.Machine
end

