-- ==== Sys2Proof/Machine/Modular.lean ====
section
/-! DEFINITION. The modular commands, at N = 256 only (spec/46_modular.md R300, R303, R306 to R308). The two paths of
`addmod` are in Machine/ModularUnits.lean. -/

namespace Sys2Proof.Machine

/-- `ADDMOD` (R303): `(x + y) mod m`; a zero modulus raises `DIVIDE_BY_ZERO` (R308). -/
def execAddmod (rd rs1 rs2 rs3 : Reg) (s : State) : Host.Outcome State Fault Refusal :=
  let m := s.operand .w256 rs3
  if m = 0 then raise .divideByZero s
  else finish rd ((s.operand .w256 rs1 + s.operand .w256 rs2) % m) s

/-- `MULMOD` (R306, R307): `(x * y) mod m`; a zero modulus raises `DIVIDE_BY_ZERO` (R308). -/
def execMulmod (rd rs1 rs2 rs3 : Reg) (s : State) : Host.Outcome State Fault Refusal :=
  let m := s.operand .w256 rs3
  if m = 0 then raise .divideByZero s
  else finish rd (s.operand .w256 rs1 * s.operand .w256 rs2 % m) s

end Sys2Proof.Machine
end

