-- ==== Sys2Proof/Machine/Move.lean ====
section
/-! DEFINITION. Moves, literals and byte reversal (spec/43_move_and_serialization.md R200 to R202, R209). -/

namespace Sys2Proof.Machine

/-- The N-bit value with its bytes in reverse order: the value of its big-endian image read as little-endian (R209). -/
def byteSwap (w : Width) (a : Nat) : Nat := ofLe (beImage w.bytes a)

/-- `MOV` (R200): copy, zero-extend or truncate. -/
def execMov (w : Width) (rd rs1 : Reg) (s : State) : Host.Outcome State Fault Refusal :=
  finish rd (s.operand w rs1) s

/-- `PAIR` (R201): `rs1` gives the high half, `rs2` the low half. -/
def execPair (w : Width) (rd rs1 rs2 : Reg) (s : State) : Host.Outcome State Fault Refusal :=
  finish rd (trunc w.half (s.operand w rs1) * 2 ^ w.half + trunc w.half (s.operand w rs2)) s

/-- `LI` (R202): the zero-extended literal, the same at both widths. -/
def execLi (_w : Width) (rd : Reg) (imm16 : BitVec 16) (s : State) : Host.Outcome State Fault Refusal :=
  finish rd imm16.toNat s

/-- `BSWAP` (R209). -/
def execBswap (w : Width) (rd rs1 : Reg) (s : State) : Host.Outcome State Fault Refusal :=
  finish rd (byteSwap w (s.operand w rs1)) s

end Sys2Proof.Machine
end

