-- ==== Sys2Proof/Machine/Multiply.lean ====
section
/-! DEFINITION. The multiplicative commands (spec/44_multiply.md R230, R236, R238, R240, R242). The word-by-word circuits are
in Machine/MultiplierUnits.lean. -/

namespace Sys2Proof.Machine

/-- Binary square-and-multiply modulo 2^N (R241), `fuel` bounding the number of exponent bits: the result is
`trunc_N(acc * b^e)` when `e < 2^fuel`. -/
def powLoop (n : Nat) : Nat → Nat → Nat → Nat → Nat
  | 0, acc, _, _ => acc
  | fuel + 1, acc, b, e =>
    if e = 0 then acc
    else powLoop n fuel (if e % 2 = 1 then trunc n (acc * b) else acc) (trunc n (b * b)) (e / 2)

/-- `trunc_N(b^e)`, with `b^0 = 1` (R242); at most N iterations, since `e < 2^N` (R241). -/
def power (w : Width) (b e : Nat) : Nat := powLoop w.bits w.bits 1 b e

/-- `MUL` (R238). -/
def execMul (w : Width) (rd rs1 rs2 : Reg) (s : State) : Host.Outcome State Fault Refusal :=
  finish rd (trunc w.bits (s.operand w rs1 * s.operand w rs2)) s

/-- `UMUL` (R236): `rd` the low half, `rd2` the high half of the exact product (R230). -/
def execUmul (w : Width) (rd rd2 rs1 rs2 : Reg) (s : State) : Host.Outcome State Fault Refusal :=
  let p := s.operand w rs1 * s.operand w rs2
  finishTwo rd rd2 (bitsAt p 0 w.bits) (bitsAt p w.bits w.bits) s

/-- `SQR` (R240). -/
def execSqr (w : Width) (rd rs1 : Reg) (s : State) : Host.Outcome State Fault Refusal :=
  finish rd (trunc w.bits (s.operand w rs1 * s.operand w rs1)) s

/-- `EXP` (R242): `rs1` the base, `rs2` the exponent. -/
def execExp (w : Width) (rd rs1 rs2 : Reg) (s : State) : Host.Outcome State Fault Refusal :=
  finish rd (power w (s.operand w rs1) (s.operand w rs2)) s

end Sys2Proof.Machine
end

