-- ==== Sys2Proof/Machine/Serialization.lean ====
section
/-! DEFINITION. Loads and stores (spec/43_move_and_serialization.md R203 to R208). -/

namespace Sys2Proof.Machine

/-- `LDLE` (R204). -/
def execLdle (w : Width) (rr : Reg) (addr : BitVec 14) (s : State) : Host.Outcome State Fault Refusal :=
  load w.bytes ofLe rr addr s

/-- `STLE` (R205). -/
def execStle (w : Width) (rr : Reg) (addr : BitVec 14) (s : State) : Host.Outcome State Fault Refusal :=
  store (leImage w.bytes (s.operand w rr)) addr s

/-- `LDBE` (R206): M bytes; the width only limits M, at decode. -/
def execLdbe (_w : Width) (rr : Reg) (len : BitVec 6) (addr : BitVec 14) (s : State) :
    Host.Outcome State Fault Refusal :=
  load (byteCount len) ofBe rr addr s

/-- `STBE` (R207). -/
def execStbe (w : Width) (rr : Reg) (addr : BitVec 14) (s : State) : Host.Outcome State Fault Refusal :=
  store (beImage w.bytes (s.operand w rr)) addr s

/-- `TRUNCBE` (R208): the least significant M bytes in big-endian order (90_conflicts.md C5). -/
def execTruncbe (w : Width) (rr : Reg) (len : BitVec 6) (addr : BitVec 14) (s : State) :
    Host.Outcome State Fault Refusal :=
  store (beImage (byteCount len) (s.operand w rr)) addr s

end Sys2Proof.Machine
end

