-- ==== Sys2Proof/Machine/Shift.lean ====
section
/-! DEFINITION. The shift commands (spec/41_bitwise_shift.md R144 to R146). The half-width circuits of R147 to R149 are in
Machine/Shifter.lean. -/

namespace Sys2Proof.Machine

/-- Logical left shift of an N-bit value by any distance (R144, R145). -/
def shiftLeft (w : Width) (a dist : Nat) : Nat := if dist ≥ w.bits then 0 else trunc w.bits (a * 2 ^ dist)

/-- Logical right shift of an N-bit value by any distance (R144, R146). -/
def shiftRight (w : Width) (a dist : Nat) : Nat := if dist ≥ w.bits then 0 else a / 2 ^ dist

/-- `SHL` (R145). -/
def execShl (w : Width) (rd rs1 rs2 : Reg) (s : State) : Host.Outcome State Fault Refusal :=
  finish rd (shiftLeft w (s.operand w rs1) (s.operand w rs2)) s

/-- `SHR` (R146). -/
def execShr (w : Width) (rd rs1 rs2 : Reg) (s : State) : Host.Outcome State Fault Refusal :=
  finish rd (shiftRight w (s.operand w rs1) (s.operand w rs2)) s

end Sys2Proof.Machine
end

