-- ==== Sys2Proof/Machine/Dispatch.lean ====
section
/-! DEFINITION. The dispatch of every command of spec/opcode_table.json to its meaning. -/

namespace Sys2Proof.Machine

def exec (i : Instr) (s : State) : Host.Outcome State Fault Refusal :=
  match i with
  | .nop => Sys2Proof.Machine.execNop s
  | .halt => Sys2Proof.Machine.execHalt s
  | .li w rd imm16 => Sys2Proof.Machine.execLi w rd imm16 s
  | .mov w rd rs1 => Sys2Proof.Machine.execMov w rd rs1 s
  | .pair w rd rs1 rs2 => Sys2Proof.Machine.execPair w rd rs1 rs2 s
  | .and w rd rs1 rs2 => Sys2Proof.Machine.execAnd w rd rs1 rs2 s
  | .or w rd rs1 rs2 => Sys2Proof.Machine.execOr w rd rs1 rs2 s
  | .xor w rd rs1 rs2 => Sys2Proof.Machine.execXor w rd rs1 rs2 s
  | .not w rd rs1 => Sys2Proof.Machine.execNot w rd rs1 s
  | .shl w rd rs1 rs2 => Sys2Proof.Machine.execShl w rd rs1 rs2 s
  | .shr w rd rs1 rs2 => Sys2Proof.Machine.execShr w rd rs1 rs2 s
  | .add w rd rs1 rs2 => Sys2Proof.Machine.execAdd w rd rs1 rs2 s
  | .adc w rd rs1 rs2 => Sys2Proof.Machine.execAdc w rd rs1 rs2 s
  | .sub w rd rs1 rs2 => Sys2Proof.Machine.execSub w rd rs1 rs2 s
  | .sbb w rd rs1 rs2 => Sys2Proof.Machine.execSbb w rd rs1 rs2 s
  | .neg w rd rs1 => Sys2Proof.Machine.execNeg w rd rs1 s
  | .eq w rd rs1 rs2 => Sys2Proof.Machine.execEq w rd rs1 rs2 s
  | .lt w rd rs1 rs2 => Sys2Proof.Machine.execLt w rd rs1 rs2 s
  | .gt w rd rs1 rs2 => Sys2Proof.Machine.execGt w rd rs1 rs2 s
  | .le w rd rs1 rs2 => Sys2Proof.Machine.execLe w rd rs1 rs2 s
  | .ge w rd rs1 rs2 => Sys2Proof.Machine.execGe w rd rs1 rs2 s
  | .mul w rd rs1 rs2 => Sys2Proof.Machine.execMul w rd rs1 rs2 s
  | .umul w rd rd2 rs1 rs2 => Sys2Proof.Machine.execUmul w rd rd2 rs1 rs2 s
  | .sqr w rd rs1 => Sys2Proof.Machine.execSqr w rd rs1 s
  | .exp w rd rs1 rs2 => Sys2Proof.Machine.execExp w rd rs1 rs2 s
  | .udivrem w rd rd2 rs1 rs2 => Sys2Proof.Machine.execUdivrem w rd rd2 rs1 rs2 s
  | .udiv w rd rs1 rs2 => Sys2Proof.Machine.execUdiv w rd rs1 rs2 s
  | .urem w rd rs1 rs2 => Sys2Proof.Machine.execUrem w rd rs1 rs2 s
  | .sdivrem w rd rd2 rs1 rs2 => Sys2Proof.Machine.execSdivrem w rd rd2 rs1 rs2 s
  | .addmod rd rs1 rs2 rs3 => Sys2Proof.Machine.execAddmod rd rs1 rs2 rs3 s
  | .mulmod rd rs1 rs2 rs3 => Sys2Proof.Machine.execMulmod rd rs1 rs2 rs3 s
  | .ldle w rr addr => Sys2Proof.Machine.execLdle w rr addr s
  | .stle w rr addr => Sys2Proof.Machine.execStle w rr addr s
  | .ldbe w rr len addr => Sys2Proof.Machine.execLdbe w rr len addr s
  | .stbe w rr addr => Sys2Proof.Machine.execStbe w rr addr s
  | .truncbe w rr len addr => Sys2Proof.Machine.execTruncbe w rr len addr s
  | .bswap w rd rs1 => Sys2Proof.Machine.execBswap w rd rs1 s

end Sys2Proof.Machine
end

