-- ==== Sys2Proof/Machine/Fetch.lean ====
section
/-! DEFINITION. Fetch and decode at `pc`, in the order of spec/60_exceptions.md R332 and R334. -/

namespace Sys2Proof.Machine

/-- What a fetch finds. -/
inductive Fetched where
  /-- `pc` is past the last command index (R332 item 1). -/
  | outOfRange
  /-- The word was never written (R332 item 2). -/
  | unwritten
  /-- The word is illegal (R332 item 3). -/
  | illegal (why : Illegal)
  /-- The word is this command. -/
  | command (i : Instr)
deriving DecidableEq, Repr

/-- The fetch at `pc` (60_exceptions.md R334). No reachable state has `pc` above 4096 (10_state.md R36); there the fetch is
out of range too (DESIGN CHOICE, safe: notes/assumptions/8.md). -/
def fetch (s : State) : Fetched :=
  if s.pc.toNat ≥ Config.imemWords then .outOfRange
  else
    match s.imemWord s.pc.toNat with
    | none => .unwritten
    | some c =>
      match decode c with
      | .error e => .illegal e
      | .ok i => .command i

end Sys2Proof.Machine
end

