-- ==== Sys2Proof/Machine/Host.lean ====
section
/-! DEFINITION. The host's side: the CSR window, and its accesses to the memories (spec/10_state.md R38 to R43, R49 to R51;
spec/20_memory.md R70, R83; spec/70_reset_and_hazards.md R370, R382). -/

namespace Sys2Proof.Machine

/-- The 2-bit code of `STATE` (10_state.md R37). -/
def RunState.code : RunState → Nat
  | .idle => 0
  | .running => 1
  | .halted => 2
  | .faulted => 3

/-- The 4-bit code of a fault cause (60_exceptions.md R330). -/
def Cause.code : Cause → Nat
  | .none => 0
  | .illegalCommand => 1
  | .divideByZero => 2
  | .dmemRange => 3
  | .imemRange => 4

/-- `STATUS`: `STATE` in bits 1:0, `C` in bit 2, `DONE` in bit 3, 0 above (10_state.md R40). -/
def statusWord (s : State) : BitVec 32 :=
  BitVec.ofNat 32 (s.runState.code + s.carry.toNat * 2 ^ 2 + s.done.toNat * 2 ^ 3)

/-- A host read of a CSR: `CTRL` reads 0, and so does every offset that names no register (10_state.md R38 to R43). DEDUCED,
unsafe for these accesses: a misaligned offset names no register, and the answer is the same in a run
(notes/assumptions/5.md, 6.md). -/
def readCsr (offset : Nat) (s : State) : BitVec 32 :=
  match offset with
  | 0x04 => statusWord s
  | 0x08 => BitVec.ofNat 32 s.cause.code
  | 0x0C => s.fpc.setWidth 32
  | 0x10 => s.entry.setWidth 32
  | _ => 0

/-- What `ENTRY.INDEX` stores of a value written to it: bits 12:0, and 4096 for a value from 4097 to 8191
(10_state.md R43). -/
def legalEntry (value : BitVec 32) : CommandIndex := BitVec.ofNat 13 (min (bitsAt value.toNat 0 13) Config.imemWords)

/-- A host write of a CSR (10_state.md R38, R39, R43): `CTRL` with bit 0 = 1 is START, `ENTRY` stores a legal index; both are
ignored while `RUNNING`. Writes to read-only registers and to unlisted offsets are ignored. -/
def writeCsr (offset : Nat) (value : BitVec 32) (s : State) : State :=
  match offset with
  | 0x00 => if s.runState ≠ .running ∧ bitsAt value.toNat 0 1 = 1 then s.start else s
  | 0x10 => if s.runState ≠ .running then { s with entry := legalEntry value } else s
  | _ => s

/-- One move of the host. Reset gives every piece of the block's state its reset value (70_reset_and_hazards.md R370). A
write to `IMEM` or `DMEM` while `RUNNING` is no move of the host (10_state.md R50, 70_reset_and_hazards.md R382). See
notes/assumptions/7.md (DEDUCED, unsafe if a real host makes it) and 15.md (DESIGN CHOICE, safe). -/
def hostMove (m : HostMove) (s : State) : Host.Outcome State Fault Refusal :=
  match m with
  | .reset => .next { State.reset with hostTurns := s.hostTurns }
  | .writeCsr offset value => .next (writeCsr offset value s)
  | .writeImem index word =>
    if s.runState = .running then .refused .hostDutyViolation
    else .next { s with imem := Memory.write s.imem index.toNat word }
  | .writeDmem address byte =>
    if s.runState = .running then .refused .hostDutyViolation
    else .next { s with dmem := Memory.write s.dmem address.toNat byte }

/-- A host read of one `DMEM` byte (10_state.md R50), with the poison of 60_exceptions.md R333. -/
def hostReadDmem (address : BitVec 14) (s : State) : Host.Outcome Byte Fault Refusal :=
  if s.runState = .running then .refused .hostDutyViolation
  else
    match s.dmemByte address.toNat with
    | none => .fault (.unwrittenRead (.dmemByte address.toNat))
    | some b => .next b

/-- A host read of one `IMEM` word (10_state.md R50), with the poison of 60_exceptions.md R333. -/
def hostReadImem (index : BitVec 12) (s : State) : Host.Outcome Command Fault Refusal :=
  if s.runState = .running then .refused .hostDutyViolation
  else
    match s.imemWord index.toNat with
    | none => .fault (.unwrittenRead (.imemWord index.toNat))
    | some c => .next c

end Sys2Proof.Machine
end

