-- ==== Sys2Proof/Machine/Step.lean ====
section
/-! DEFINITION. One step of the block and its host (spec/10_state.md R37, R50; spec/60_exceptions.md R332, R334;
spec/70_reset_and_hazards.md R376). -/

namespace Sys2Proof.Machine

/-- One step of the sequencer while `RUNNING`: fetch, then run the command (60_exceptions.md R332, R334). -/
def sequencerStep (s : State) : Host.Outcome State Fault Refusal :=
  match fetch s with
  | .outOfRange => raise .imemRange s
  | .unwritten => .fault (.unwrittenRead (.imemWord s.pc.toNat))
  | .illegal _ => raise .illegalCommand s
  | .command i => exec i s

/-- The block's turn: it "fetches and executes commands only in `RUNNING`" (10_state.md R37). -/
def blockStep (s : State) : Host.Outcome State Fault Refusal :=
  match s.runState with
  | .running => sequencerStep s
  | .idle => .next s
  | .halted => .next s
  | .faulted => .next s

/-- One step: the turn at the head of `hostTurns` says which of the two agents moves; with no turn left, the block does. -/
def step (s : State) : Host.Outcome State Fault Refusal :=
  match s.hostTurns with
  | [] => blockStep s
  | .pass :: turns => blockStep { s with hostTurns := turns }
  | .move m :: turns => hostMove m { s with hostTurns := turns }

/-- `s` with the command word `w mod 2^nbits` where `step` fetches next, and `RUNNING` with the block to move, so that the
very next step runs it. It stands for the host's load and START (70_reset_and_hazards.md R372; notes/assumptions/4.md). -/
def State.withFetchWord (s : State) (nbits w : Nat) : State :=
  let pc : CommandIndex := if s.pc.toNat < Config.imemWords then s.pc else 0
  { s with
    pc := pc
    runState := .running
    imem := Memory.write s.imem pc.toNat (BitVec.ofNat 32 (w % 2 ^ nbits))
    hostTurns := [] }

end Sys2Proof.Machine
end

