-- ==== Sys2Proof/Machine/WordUnits.lean ====
section
/-! DEFINITION. The internal 64-bit and 128-bit units and word arrays (spec/10_state.md R45, R46; spec/00_scope.md R8, R10, R13).
No command-visible state shows them; the circuits of the other unit files are built from them. -/

namespace Sys2Proof.Machine

/-! ## 64-bit units (R45) -/

/-- `mul_wide(a, b) -> (hi, lo)`: `a * b = hi * 2^64 + lo`. -/
def mulWide (a b : Word) : Word × Word :=
  (BitVec.ofNat 64 (a.toNat * b.toNat / 2 ^ 64), BitVec.ofNat 64 (a.toNat * b.toNat))

/-- `add_carry(a, b, cin) -> (s, cout)`: `a + b + cin = cout * 2^64 + s`. -/
def addCarry (a b : Word) (cin : Bool) : Word × Bool :=
  (BitVec.ofNat 64 (a.toNat + b.toNat + cin.toNat), decide (2 ^ 64 ≤ a.toNat + b.toNat + cin.toNat))

/-- `sub_borrow(a, b, bin) -> (d, bout)`: `a - b - bin = d - bout * 2^64`. -/
def subBorrow (a b : Word) (bin : Bool) : Word × Bool :=
  (BitVec.ofNat 64 (2 ^ 64 + a.toNat - (b.toNat + bin.toNat)), decide (a.toNat < b.toNat + bin.toNat))

/-- `clz64(x)`, the number of leading zero bits, for `x ≠ 0` (R45; 93_implementation_defined.md U4). -/
def clz64 (x : Word) : Nat := 63 - x.toNat.log2

/-- `bswap64(x)`: byte k of the result is byte 7-k of `x`. -/
def bswap64 (x : Word) : Word := BitVec.ofNat 64 (ofLe (beImage 8 x.toNat))

/-- A word shift that is total over all distances (41_bitwise_shift.md R149): 64 or more gives 0. -/
def wordShift (left : Bool) (x : Word) (dist : Nat) : Word := if left then x <<< dist else x >>> dist

/-! ## The 128-bit unit (R46) -/

/-- The 128-bit value with high word `hi` and low word `lo`. -/
def joinWords (hi lo : Word) : DoubleWord := BitVec.ofNat 128 (hi.toNat * 2 ^ 64 + lo.toNat)

/-- Word `[0]` of a 128-bit value. -/
def lowWord (d : DoubleWord) : Word := BitVec.ofNat 64 d.toNat

/-- Word `[1]` of a 128-bit value. -/
def highWord (d : DoubleWord) : Word := BitVec.ofNat 64 (d.toNat / 2 ^ 64)

/-- 128-bit add with carry, made of two word adders. -/
def addCarry128 (a b : DoubleWord) (cin : Bool) : DoubleWord × Bool :=
  let l := addCarry (lowWord a) (lowWord b) cin
  let h := addCarry (highWord a) (highWord b) l.2
  (joinWords h.1 l.1, h.2)

/-- 128-bit subtract with borrow, made of two word subtracters. -/
def subBorrow128 (a b : DoubleWord) (bin : Bool) : DoubleWord × Bool :=
  let l := subBorrow (lowWord a) (lowWord b) bin
  let h := subBorrow (highWord a) (highWord b) l.2
  (joinWords h.1 l.1, h.2)

/-! ## Word arrays (00_scope.md R10) -/

/-- `value(a[0..k)) = sum over i < k of a[i] * 2^(64*i)`. -/
def value : List Word → Nat
  | [] => 0
  | x :: xs => x.toNat + 2 ^ 64 * value xs

/-- The `n` low words of `v`, least significant first. -/
def toWords : Nat → Nat → List Word
  | 0, _ => []
  | n + 1, v => BitVec.ofNat 64 v :: toWords n (v / 2 ^ 64)

/-- The index of the highest nonzero word plus 1, and 0 when every word is 0 (45_division.md R261). -/
def significantWords : List Word → Nat
  | [] => 0
  | x :: xs => if significantWords xs = 0 then (if x = 0 then 0 else 1) else significantWords xs + 1

/-- Word `i` of an array. -/
def wordOf (a : List Word) (i : Nat) : Word := a.getD i 0

/-- The words `a[j..j+len)`. -/
def window (a : List Word) (j len : Nat) : List Word := (a.drop j).take len

/-- The array `a` with its words from `j` on replaced by those of `b`. -/
def splice (a : List Word) (j : Nat) (b : List Word) : List Word := a.take j ++ b ++ a.drop (j + b.length)

/-- The second form of `BSWAP`: reverse the word order and apply `bswap64` to each word
(43_move_and_serialization.md R209). -/
def byteSwapByWords (w : Width) (a : Nat) : Nat := value ((toWords w.words a).reverse.map bswap64)

end Sys2Proof.Machine
end

