-- ==== Sys2Proof/Machine/ReciprocalUnits.lean ====
section
/-! DEFINITION. The reciprocal and trial-quotient units (spec/45_division.md R262 to R265). The contracts are the spec's; the
reciprocal formulas and the step sequences are its passages "from general knowledge, not in source"
(spec/93_implementation_defined.md 45-1 to 45-4; PRESUMED, safe: notes/assumptions/11.md). -/

namespace Sys2Proof.Machine

/-- `reciprocal_2by1(d) = floor((2^128 - 1) / d) - 2^64`, for `d ≥ 2^63` (R262). -/
def reciprocal2by1 (d : Word) : Word := BitVec.ofNat 64 ((2 ^ 128 - 1) / d.toNat - 2 ^ 64)

/-- `reciprocal_3by2(d) = floor((2^192 - 1) / d) - 2^64`, for `d ≥ 2^127` (R263). -/
def reciprocal3by2 (d : DoubleWord) : Word := BitVec.ofNat 64 ((2 ^ 192 - 1) / d.toNat - 2 ^ 64)

/-- The contract of `udivrem_2by1`: quotient and remainder of a 128-bit value by a normalized word, for `uhi < d`
(R264). -/
def udivrem2by1 (uhi ulo d : Word) : Word × Word :=
  let u := uhi.toNat * 2 ^ 64 + ulo.toNat
  (BitVec.ofNat 64 (u / d.toNat), BitVec.ofNat 64 (u % d.toNat))

/-- The step sequence of `udivrem_2by1` with its reciprocal (R264). -/
def udivrem2by1Steps (uhi ulo d rec : Word) : Word × Word :=
  let q : DoubleWord := BitVec.ofNat 128 (rec.toNat * uhi.toNat + (uhi.toNat * 2 ^ 64 + ulo.toNat))
  let q0 := lowWord q
  let q1 := highWord q + 1
  let r := ulo - q1 * d
  let qr := if q0 < r then (q1 - 1, r + d) else (q1, r)
  if d ≤ qr.2 then (qr.1 + 1, qr.2 - d) else qr

/-- The contract of `udivrem_3by2`: quotient and remainder of a 192-bit value by a normalized 128-bit value, for
`(u2, u1) < d` (R265). -/
def udivrem3by2 (u2 u1 u0 : Word) (d : DoubleWord) : Word × DoubleWord :=
  let u := u2.toNat * 2 ^ 128 + u1.toNat * 2 ^ 64 + u0.toNat
  (BitVec.ofNat 64 (u / d.toNat), BitVec.ofNat 128 (u % d.toNat))

/-- The step sequence of `udivrem_3by2` with its reciprocal (R265). -/
def udivrem3by2Steps (u2 u1 u0 : Word) (d : DoubleWord) (rec : Word) : Word × DoubleWord :=
  let q : DoubleWord := BitVec.ofNat 128 (rec.toNat * u2.toNat + (u2.toNat * 2 ^ 64 + u1.toNat))
  let q0 := lowWord q
  let q1 := highWord q
  let r1 := u1 - q1 * highWord d
  let r := joinWords r1 u0 - BitVec.ofNat 128 ((lowWord d).toNat * q1.toNat) - d
  let q1 := q1 + 1
  let qr := if q0 ≤ highWord r then (q1 - 1, r + d) else (q1, r)
  if d ≤ qr.2 then (qr.1 + 1, qr.2 - d) else qr

end Sys2Proof.Machine
end

