-- ==== Sys2Proof/Machine/RippleUnits.lean ====
section
/-! DEFINITION. The wide adder and subtracter as word-by-word ripple circuits (spec/42_additive.md R170, R175, R178;
spec/45_division.md R267). -/

namespace Sys2Proof.Machine

/-- The word loop of the adder: the carry runs from word 0 up (R170). With carry in 0 it is the array `add` of
45_division.md R267. -/
def rippleAdd : List Word → List Word → Bool → List Word × Bool
  | x :: xs, y :: ys, c =>
    let s := addCarry x y c
    let r := rippleAdd xs ys s.2
    (s.1 :: r.1, r.2)
  | _, _, c => ([], c)

/-- The word loop of the subtracter: the borrow runs from word 0 up (R175). -/
def rippleSub : List Word → List Word → Bool → List Word × Bool
  | x :: xs, y :: ys, b =>
    let d := subBorrow x y b
    let r := rippleSub xs ys d.2
    (d.1 :: r.1, r.2)
  | _, _, b => ([], b)

/-- `add_with_carry` at width N as the ripple circuit (R170). -/
def adderCircuit (w : Width) (x y : Nat) (cin : Bool) : Nat × Bool :=
  let r := rippleAdd (toWords w.words x) (toWords w.words y) cin
  (value r.1, r.2)

/-- `sub_with_carry` at width N as the ripple circuit (R175). -/
def subtracterCircuit (w : Width) (x y : Nat) (bin : Bool) : Nat × Bool :=
  let r := rippleSub (toWords w.words x) (toWords w.words y) bin
  (value r.1, r.2)

end Sys2Proof.Machine
end

