-- ==== Sys2Proof/Machine/Divider.lean ====
section
/-! DEFINITION. The divider circuit: normalized Knuth Algorithm D with its one-word and two-word fast paths
(spec/45_division.md R261, R266 to R276; spec/10_state.md R44). It calls the trial-quotient units by their contracts
(spec/45_division.md R264, R265). -/

namespace Sys2Proof.Machine

/-- The divider's hidden state `normalized_div_args`, confined to one division command (10_state.md R44). -/
structure DivArgs where
  /-- The shifted divisor, `n` words. -/
  d : List Word
  /-- The shifted numerator with one extra high word. -/
  un : List Word
  /-- The significant word count of the numerator. -/
  m : Nat
  /-- The significant word count of the divisor. -/
  n : Nat
  /-- The normalization shift, 0 to 63. -/
  shift : Nat
deriving DecidableEq, Repr

/-- The branches named in the path column of 95_test_vectors.md section L2.5. -/
inductive DivBranch where
  | fewerWords
  | incremented
  | notLonger
  | byOneWord
  | byTwoWords
  | knuth
  | overflow
  | correction
deriving DecidableEq, Repr

/-- Quotient, remainder, and the branches taken on the way. -/
structure DivResult where
  q : Nat
  r : Nat
  path : List DivBranch
deriving DecidableEq, Repr

/-- Normalization of numerator and divisor as arrays of `words` words (R261). -/
def normalize (words u v : Nat) : DivArgs :=
  let vw := toWords words v
  let n := significantWords vw
  let shift := clz64 (wordOf vw (n - 1))
  { d := toWords n (v * 2 ^ shift)
    un := toWords (words + 1) (u * 2 ^ shift)
    m := significantWords (toWords words u)
    n := n
    shift := shift }

/-- `submul`: `x - multiplier * y` over words, with the running borrow (R266). -/
def submul : List Word → List Word → Word → Word → List Word × Word
  | x :: xs, y :: ys, multiplier, borrow =>
    let s := subBorrow x borrow false
    let p := mulWide y multiplier
    let t := subBorrow s.1 p.2 false
    let rest := submul xs ys multiplier
      (p.1 + BitVec.ofNat 64 s.2.toNat + BitVec.ofNat 64 t.2.toNat)
    (t.1 :: rest.1, rest.2)
  | _, _, _, borrow => ([], borrow)

/-- The numerator length L after the `m++` step (R268). -/
def numeratorLength (a : DivArgs) : Nat :=
  if wordOf a.un a.m ≠ 0 ∨ wordOf a.d (a.n - 1) ≤ wordOf a.un (a.m - 1) then a.m + 1 else a.m

/-- The loop of the `n = 1` fast path, `i` words still to do (R269). -/
def oneWordLoop (d : Word) : Nat → Word → List Word → List Word × Word
  | 0, rem, un => (un, rem)
  | i + 1, rem, un =>
    let qr := udivrem2by1 rem (wordOf un i) d
    oneWordLoop d i qr.2 (un.set i qr.1)

/-- The loop of the `n = 2` fast path, `i` words still to do (R270). -/
def twoWordLoop (dd : DoubleWord) : Nat → DoubleWord → List Word → List Word × DoubleWord
  | 0, rem, un => (un, rem)
  | i + 1, rem, un =>
    let qr := udivrem3by2 (highWord rem) (lowWord rem) (wordOf un i) dd
    twoWordLoop dd i qr.2 (un.set i qr.1)

/-- One quotient digit of the general case: the new numerator words, the digit, and the branch taken (R271 to R274). -/
def knuthStep (d : List Word) (n j : Nat) (un : List Word) : List Word × Word × List DivBranch :=
  let top := joinWords (wordOf d (n - 1)) (wordOf d (n - 2))
  let u2 := wordOf un (j + n)
  let u1 := wordOf un (j + n - 1)
  let u0 := wordOf un (j + n - 2)
  if joinWords u2 u1 = top then
    let qhat : Word := BitVec.ofNat 64 (2 ^ 64 - 1)
    let sm := submul (window un j n) d qhat 0
    ((splice un j sm.1).set (j + n) (u2 - sm.2), qhat, [.overflow])
  else
    let qr := udivrem3by2 u2 u1 u0 top
    let sm := submul (window un j (n - 2)) (window d 0 (n - 2)) qr.1 0
    let low := subBorrow (lowWord qr.2) sm.2 false
    let high := subBorrow (highWord qr.2) 0 low.2
    let un := ((splice un j sm.1).set (j + n - 2) low.1).set (j + n - 1) high.1
    if high.2 then
      let back := rippleAdd (window un j (n - 1)) (window d 0 (n - 1)) false
      let lastWord := wordOf un (j + n - 1) + wordOf d (n - 1) + BitVec.ofNat 64 back.2.toNat
      ((splice un j back.1).set (j + n - 1) lastWord, qr.1 - 1, [.correction])
    else (un, qr.1, [])

/-- The loop of the general case, `j` digits still to do, from the top digit down (R271). -/
def knuthLoop (d : List Word) (n : Nat) : Nat → List Word → List Word → List DivBranch →
    List Word × List Word × List DivBranch
  | 0, un, q, path => (un, q, path)
  | j + 1, un, q, path =>
    let st := knuthStep d n j un
    knuthLoop d n j st.1 (q.set j st.2.1) (path ++ st.2.2)

/-- The division algorithm for `v ≠ 0` on `words` words: early outs, `m++` step, the three cases, denormalization
(R268 to R275). -/
def divide (words u v : Nat) : DivResult :=
  let a := normalize words u v
  if a.m < a.n then ⟨0, u, [.fewerWords]⟩
  else
    let len := numeratorLength a
    let grown := if len = a.m then [] else [DivBranch.incremented]
    if len ≤ a.n then ⟨0, u, [.notLonger]⟩
    else if a.n = 1 then
      let r := oneWordLoop (wordOf a.d 0) (len - 1) (wordOf a.un (len - 1)) (a.un.set (len - 1) 0)
      ⟨value (window r.1 0 words), r.2.toNat / 2 ^ a.shift, grown ++ [.byOneWord]⟩
    else if a.n = 2 then
      let r := twoWordLoop (joinWords (wordOf a.d 1) (wordOf a.d 0)) (len - 2)
        (joinWords (wordOf a.un (len - 1)) (wordOf a.un (len - 2))) ((a.un.set (len - 1) 0).set (len - 2) 0)
      ⟨value (window r.1 0 words), r.2.toNat / 2 ^ a.shift, grown ++ [.byTwoWords]⟩
    else
      let r := knuthLoop a.d a.n (len - a.n) a.un (List.replicate words 0) []
      ⟨value r.2.1, value (window r.1 0 a.n) / 2 ^ a.shift, grown ++ [.knuth] ++ r.2.2⟩

end Sys2Proof.Machine
end

