-- ==== Sys2Proof/Machine/MultiplierUnits.lean ====
section
/-! DEFINITION. The multiplier circuits (spec/44_multiply.md R231, R232, R235, R237, R239, R241). "The architecture fixes only
the product bits" (R234): the commands use the product itself. -/

namespace Sys2Proof.Machine

/-- The recursive formulation of `umul` on values of `64 * 2^level` bits, down to `mul_wide` (R231, R235). -/
def umulByLevels : Nat → Nat → Nat → Nat
  | 0, x, y =>
    let p := mulWide (BitVec.ofNat 64 x) (BitVec.ofNat 64 y)
    p.1.toNat * 2 ^ 64 + p.2.toNat
  | k + 1, x, y =>
    let h := 64 * 2 ^ k
    let n := h + h
    let t0 := umulByLevels k (bitsAt x 0 h) (bitsAt y 0 h)
    let t1 := umulByLevels k (bitsAt x h h) (bitsAt y 0 h)
    let t2 := umulByLevels k (bitsAt x 0 h) (bitsAt y h h)
    let t3 := umulByLevels k (bitsAt x h h) (bitsAt y h h)
    let u1 := t1 + bitsAt t0 h h
    let u2 := t2 + bitsAt u1 0 h
    let resultLow := trunc n (u2 * 2 ^ h) ||| bitsAt t0 0 h
    let resultHigh := trunc n (t3 + bitsAt u2 h h + bitsAt u1 h h)
    resultHigh * 2 ^ n + resultLow

/-- The inner loop of R232 for one word `y` of the second factor: the partial product words from position `j` on, and the
carry `k`, which lands in the first word past the row. -/
def multiplyRow : List Word → Word → List Word → Word → List Word
  | x :: xs, y, p :: ps, k =>
    let t := x.toNat * y.toNat + p.toNat + k.toNat
    BitVec.ofNat 64 t :: multiplyRow xs y ps (BitVec.ofNat 64 (t / 2 ^ 64))
  | [], _, _ :: ps, k => k :: ps
  | _, _, [], _ => []

/-- The outer loop of R232: row `j` starts one word above row `j - 1`. -/
def multiplyRows (xs : List Word) : List Word → List Word → List Word
  | y :: ys, p =>
    match multiplyRow xs y p 0 with
    | [] => []
    | r :: rs => r :: multiplyRows xs ys rs
  | [], p => p

/-- The loop formulation of `umul` (R232). -/
def umulByLoop (w : Width) (x y : Nat) : Nat :=
  value (multiplyRows (toWords w.words x) (toWords w.words y) (List.replicate (w.words + w.words) 0))

/-- The inner loop of R237: as `multiplyRow`, but the last position keeps only 64 bits and produces no carry. -/
def truncatedRow : List Word → Word → List Word → Word → List Word
  | x :: _, y, [p], k => [BitVec.ofNat 64 (p.toNat + x.toNat * y.toNat + k.toNat)]
  | x :: xs, y, p :: ps, k =>
    let t := x.toNat * y.toNat + p.toNat + k.toNat
    BitVec.ofNat 64 t :: truncatedRow xs y ps (BitVec.ofNat 64 (t / 2 ^ 64))
  | [], _, ps, _ => ps
  | _, _, [], _ => []

/-- The outer loop of R237. -/
def truncatedRows (xs : List Word) : List Word → List Word → List Word
  | y :: ys, p =>
    match truncatedRow xs y p 0 with
    | [] => []
    | r :: rs => r :: truncatedRows xs ys rs
  | [], p => p

/-- Truncated multiplication by the loop that "omits all word positions ≥ num_words" (R237). -/
def mulByLoop (w : Width) (x y : Nat) : Nat :=
  value (truncatedRows (toWords w.words x) (toWords w.words y) (List.replicate w.words 0))

/-- The squaring identity on halves (R239). -/
def squareByHalves (w : Width) (x : Nat) : Nat :=
  let h := w.half
  let l := bitsAt x 0 h
  let u := bitsAt x h h
  let t := l * l
  let high := trunc h (trunc h (trunc h (l * u) * 2) + bitsAt t h h)
  high * 2 ^ h + bitsAt t 0 h

/-- Exponentiation with the base-2 fast path, `1 << exponent` (R241). -/
def expWithFastPath (w : Width) (b e : Nat) : Nat := if b = 2 then shiftLeft w 1 e else power w b e

end Sys2Proof.Machine
end

