-- ==== Sys2Proof/Machine/ModularUnits.lean ====
section
/-! DEFINITION. The paths of the modular units (spec/46_modular.md R301, R302, R306). -/

namespace Sys2Proof.Machine

/-- The generic path of `addmod`: the five-word sum divided by the 512-bit divider (R301). -/
def addmodGeneric (x y m : Nat) : Nat :=
  let sc := addWithCarry .w256 x y false
  trunc 256 (divide 8 (sc.2.toNat * 2 ^ 256 + sc.1) m).r

/-- The guard of the fast path: the top word of `m` is nonzero and those of `x` and `y` are at most it (R302). -/
def fastPathApplies (x y m : Nat) : Bool :=
  decide (wordAt m 3 ≠ 0) && decide (wordAt x 3 ≤ wordAt m 3) && decide (wordAt y 3 ≤ wordAt m 3)

/-- The fast path of `addmod`, correct under its guard (R302). -/
def addmodFast (x y m : Nat) : Nat :=
  let x' := if x ≥ m then x - m else x
  let y' := if y ≥ m then y - m else y
  let sc := addWithCarry .w256 x' y' false
  let tb := subWithBorrow .w256 sc.1 m false
  if sc.2 = true ∨ tb.2 = false then tb.1 else sc.1

/-- `mulmod` through the multiplier and the 512-bit divider (R306). -/
def mulmodByUnits (x y m : Nat) : Nat := trunc 256 (divide 8 (umulByLevels 2 x y) m).r

end Sys2Proof.Machine
end

