-- ==== Sys2Proof/Machine/Shifter.lean ====
section
/-! DEFINITION. The barrel shifter on the half decomposition (spec/41_bitwise_shift.md R147 to R149). -/

namespace Sys2Proof.Machine

/-- The left shift of an N-bit value with half width `h`, for distances below N, written with shifts of its halves. The right
shift of the low half by `h - dist` is by `h - dist - 1` and then by 1 (R147). -/
def shiftLeftHalves (h a dist : Nat) : Nat :=
  let lo := bitsAt a 0 h
  let hi := bitsAt a h h
  if dist < h then
    let newLo := trunc h (lo * 2 ^ dist)
    let newHi := trunc h (hi * 2 ^ dist) ||| lo / 2 ^ (h - dist - 1) / 2
    newHi * 2 ^ h + newLo
  else
    trunc h (lo * 2 ^ (dist - h)) * 2 ^ h

/-- The mirror of `shiftLeftHalves` (R148). -/
def shiftRightHalves (h a dist : Nat) : Nat :=
  let lo := bitsAt a 0 h
  let hi := bitsAt a h h
  if dist < h then
    let newHi := hi / 2 ^ dist
    let newLo := lo / 2 ^ dist ||| trunc h (trunc h (hi * 2 ^ (h - dist - 1)) * 2)
    newHi * 2 ^ h + newLo
  else
    hi / 2 ^ (dist - h)

/-- The same structure applied recursively down to 64-bit words (R147 to R149): a value of `64 * 2^level` bits, shifted left
or right by a distance below its width. -/
def shiftByLevels : Nat → Bool → Nat → Nat → Nat
  | 0, left, a, dist => (wordShift left (BitVec.ofNat 64 a) dist).toNat
  | k + 1, true, a, dist =>
    let h := 64 * 2 ^ k
    let lo := bitsAt a 0 h
    let hi := bitsAt a h h
    if dist < h then
      let newLo := shiftByLevels k true lo dist
      let newHi := shiftByLevels k true hi dist
        ||| shiftByLevels k false (shiftByLevels k false lo (h - dist - 1)) 1
      newHi * 2 ^ h + newLo
    else
      shiftByLevels k true lo (dist - h) * 2 ^ h
  | k + 1, false, a, dist =>
    let h := 64 * 2 ^ k
    let lo := bitsAt a 0 h
    let hi := bitsAt a h h
    if dist < h then
      let newHi := shiftByLevels k false hi dist
      let newLo := shiftByLevels k false lo dist
        ||| shiftByLevels k true (shiftByLevels k true hi (h - dist - 1)) 1
      newHi * 2 ^ h + newLo
    else
      shiftByLevels k false hi (dist - h)

end Sys2Proof.Machine
end

