-- ==== Sys2Proof/Machine/Poison.lean ====
section
/-! DEFINITION. The spec's own reading of a register that nothing has written: poison (spec/10_state.md R33,
spec/60_exceptions.md R332 item 4, R333). `step` gives such a register its reset value and goes on, as a block does that holds
some value there; `strictStep` stops where the spec's model stops. -/

namespace Sys2Proof.Machine

/-- The registers a command reads as `rs1`, `rs2`, `rs3` or as the data source of a store (10_state.md R33; fields used:
30_encoding.md R109). -/
def sources : Instr → List Reg
  | .nop => []
  | .halt => []
  | .li _ _ _ => []
  | .mov _ _ rs1 => [rs1]
  | .pair _ _ rs1 rs2 => [rs1, rs2]
  | .and _ _ rs1 rs2 => [rs1, rs2]
  | .or _ _ rs1 rs2 => [rs1, rs2]
  | .xor _ _ rs1 rs2 => [rs1, rs2]
  | .not _ _ rs1 => [rs1]
  | .shl _ _ rs1 rs2 => [rs1, rs2]
  | .shr _ _ rs1 rs2 => [rs1, rs2]
  | .add _ _ rs1 rs2 => [rs1, rs2]
  | .adc _ _ rs1 rs2 => [rs1, rs2]
  | .sub _ _ rs1 rs2 => [rs1, rs2]
  | .sbb _ _ rs1 rs2 => [rs1, rs2]
  | .neg _ _ rs1 => [rs1]
  | .eq _ _ rs1 rs2 => [rs1, rs2]
  | .lt _ _ rs1 rs2 => [rs1, rs2]
  | .gt _ _ rs1 rs2 => [rs1, rs2]
  | .le _ _ rs1 rs2 => [rs1, rs2]
  | .ge _ _ rs1 rs2 => [rs1, rs2]
  | .mul _ _ rs1 rs2 => [rs1, rs2]
  | .umul _ _ _ rs1 rs2 => [rs1, rs2]
  | .sqr _ _ rs1 => [rs1]
  | .exp _ _ rs1 rs2 => [rs1, rs2]
  | .udivrem _ _ _ rs1 rs2 => [rs1, rs2]
  | .udiv _ _ rs1 rs2 => [rs1, rs2]
  | .urem _ _ rs1 rs2 => [rs1, rs2]
  | .sdivrem _ _ _ rs1 rs2 => [rs1, rs2]
  | .addmod _ rs1 rs2 rs3 => [rs1, rs2, rs3]
  | .mulmod _ rs1 rs2 rs3 => [rs1, rs2, rs3]
  | .ldle _ _ _ => []
  | .stle _ rr _ => [rr]
  | .ldbe _ _ _ _ => []
  | .stbe _ rr _ => [rr]
  | .truncbe _ rr _ _ => [rr]
  | .bswap _ _ rs1 => [rs1]

/-- The first poisoned register that the command `i` would read. -/
def poisonedSource (i : Instr) (s : State) : Option Reg := (sources i).find? fun r => !s.isWritten r

/-- One command with the register poison of 10_state.md R33: a poisoned source stops it before anything else is decided
(60_exceptions.md R332 item 4). -/
def strictExec (i : Instr) (s : State) : Host.Outcome State Fault Refusal :=
  match poisonedSource i s with
  | some r => .fault (.unwrittenRead (.register r))
  | none => exec i s

/-- One step with the whole priority order of 60_exceptions.md R332, register poison included. -/
def strictStep (s : State) : Host.Outcome State Fault Refusal :=
  match s.hostTurns, s.runState, fetch s with
  | [], .running, .command i => strictExec i s
  | .pass :: turns, .running, .command i => strictExec i { s with hostTurns := turns }
  | _, _, _ => step s

end Sys2Proof.Machine
end

