-- ==== Sys2Proof/Safety.lean ====
section
/-! DEFINITION. The terms claims are stated in: what a command leaves unchanged, the invariant of the machine, and what the
spec counts as a run about which something may be proved. -/

namespace Sys2Proof.Machine

/-! ## Frames -/

/-- Every register outside `ds` keeps its value and its poison mark. -/
def RegsKept (ds : List Reg) (s t : State) : Prop :=
  ∀ r, r ∉ ds → t.reg r = s.reg r ∧ t.isWritten r = s.isWritten r

/-- The run state and every host-visible register but the carry flag are unchanged, and so are the host's turns. -/
def ControlKept (s t : State) : Prop :=
  t.runState = s.runState ∧ t.cause = s.cause ∧ t.fpc = s.fpc ∧ t.entry = s.entry ∧ t.hostTurns = s.hostTurns

/-- Every byte of data memory reads as before. -/
def DmemKept (s t : State) : Prop := ∀ a, t.dmemByte a = s.dmemByte a

/-- Every word of command memory reads as before. -/
def ImemKept (s t : State) : Prop := ∀ i, t.imemWord i = s.imemWord i

/-- From `s`, a command completed in `t` having written the registers `ds` and no memory: `pc` is one more, the registers
`ds` hold values, and all else but the carry flag is unchanged. -/
def Completed (ds : List Reg) (s t : State) : Prop :=
  t.pc = s.pc + 1 ∧ RegsKept ds s t ∧ (∀ r, r ∈ ds → t.isWritten r = true) ∧ ControlKept s t ∧ DmemKept s t ∧
    ImemKept s t

/-- From `s`, a store completed in `t` having written the bytes `bs` at address `a`: those bytes read back, and every other
byte and all else is unchanged. -/
def Stored (a : Nat) (bs : List Byte) (s t : State) : Prop :=
  t.pc = s.pc + 1 ∧ RegsKept [] s t ∧ t.carry = s.carry ∧ ControlKept s t ∧ ImemKept s t ∧
    (∀ k, k < bs.length → t.dmemByte (a + k) = bs[k]?) ∧
    (∀ b, b < a ∨ a + bs.length ≤ b → t.dmemByte b = s.dmemByte b)

/-- `t` is `s` after the fault entry with code `k` (60_exceptions.md R331), field by field. -/
def Faulted (k : Cause) (s t : State) : Prop :=
  t.cause = k ∧ t.fpc = s.pc ∧ t.runState = .faulted ∧ t.pc = s.pc ∧ RegsKept [] s t ∧ t.carry = s.carry ∧
    t.entry = s.entry ∧ t.hostTurns = s.hostTurns ∧ DmemKept s t ∧ ImemKept s t

/-! ## The invariant -/

/-- What every step keeps. -/
structure State.Inv (s : State) : Prop where
  /-- `pc` holds a value 0 to 4096 (10_state.md R36). -/
  pc_le : s.pc.toNat ≤ Config.imemWords
  /-- `FPC` records a value of `pc` (R42). -/
  fpc_le : s.fpc.toNat ≤ Config.imemWords
  /-- `ENTRY` always reads 0 to 4096 (R43). -/
  entry_le : s.entry.toNat ≤ Config.imemWords
  /-- Data memory is in canonical form and within its 16384 addresses (R48). -/
  dmem_wf : Memory.wf Config.dmemBytes s.dmem = true
  /-- Command memory is in canonical form and within its 4096 indices (R49). -/
  imem_wf : Memory.wf Config.imemWords s.imem = true
  /-- `CAUSE` is nonzero exactly after a fault (R41, 60_exceptions.md R340). -/
  cause_iff : s.runState = .faulted ↔ s.cause ≠ .none
  /-- After a run, `FPC` and `pc` both name the command that ended it (47_control.md R322, 60_exceptions.md R331). -/
  fpc_eq : s.done = true → s.fpc = s.pc

/-! ## Runs the spec says something about -/

/-- The next `n` steps meet no `UNWRITTEN_READ`, register poison included, and no duty violation of the host: "a correct
program never reaches this outcome" (60_exceptions.md R333). -/
def CleanFor : Nat → State → Prop
  | 0, _ => True
  | n + 1, s => ∃ t, strictStep s = .next t ∧ CleanFor n t

/-- Two states that differ at most in what their poisoned registers hold. -/
def SameButPoison (s t : State) : Prop :=
  s.written = t.written ∧ (∀ r, s.isWritten r = true → s.reg r = t.reg r) ∧ s.carry = t.carry ∧ s.pc = t.pc ∧
    s.runState = t.runState ∧ s.cause = t.cause ∧ s.fpc = t.fpc ∧ s.entry = t.entry ∧ s.dmem = t.dmem ∧
    s.imem = t.imem ∧ s.hostTurns = t.hostTurns

/-! ## Words of the spec that claims use -/

/-- `signed_N(v)` (00_scope.md R9). -/
def signedValue (w : Width) (v : Nat) : Int := if bitsAt v (w.bits - 1) 1 = 1 then (v : Int) - 2 ^ w.bits else v

/-- The divisor of a division command, or the modulus of a modular command (60_exceptions.md R330, code 2). -/
def divisorOf (s : State) : Instr → Option Nat
  | .udivrem w _ _ _ rs2 => some (s.operand w rs2)
  | .udiv w _ _ rs2 => some (s.operand w rs2)
  | .urem w _ _ rs2 => some (s.operand w rs2)
  | .sdivrem w _ _ _ rs2 => some (s.operand w rs2)
  | .addmod _ _ _ rs3 => some (s.operand .w256 rs3)
  | .mulmod _ _ _ rs3 => some (s.operand .w256 rs3)
  | _ => none

/-- The address and byte count of a load (20_memory.md R77). -/
def loadAccess : Instr → Option (Nat × Nat)
  | .ldle w _ addr => some (addr.toNat, w.bytes)
  | .ldbe _ _ len addr => some (addr.toNat, byteCount len)
  | _ => none

/-- The address and byte count of a store (20_memory.md R77). -/
def storeAccess : Instr → Option (Nat × Nat)
  | .stle w _ addr => some (addr.toNat, w.bytes)
  | .stbe w _ addr => some (addr.toNat, w.bytes)
  | .truncbe _ _ len addr => some (addr.toNat, byteCount len)
  | _ => none

/-- The four commands that write `C` (10_state.md R34). -/
def WritesCarry : Instr → Prop
  | .add _ _ _ _ => True
  | .adc _ _ _ _ => True
  | .sub _ _ _ _ => True
  | .sbb _ _ _ _ => True
  | _ => False

/-- The two commands that read `C` (10_state.md R34). -/
def ReadsCarry : Instr → Prop
  | .adc _ _ _ _ => True
  | .sbb _ _ _ _ => True
  | _ => False

/-- The reserved values of `OP`, as 30_encoding.md R109 lists them after its table (R111). -/
def reservedOpcodes : List Nat :=
  [0x00, 0x03, 0x07, 0x0E, 0x0F, 0x15, 0x16, 0x17, 0x1D, 0x1E, 0x1F, 0x24, 0x25, 0x26, 0x27, 0x2C, 0x2D, 0x2E, 0x2F,
   0x32, 0x33, 0x34, 0x35, 0x36, 0x37, 0x3E, 0x3F]

/-- The opcodes of Format R that use `RS1` only (30_encoding.md R109). -/
def opcodesR1 : List Nat := [0x05, 0x0B, 0x14, 0x22, 0x3D]

/-- The opcodes of Format R that use `RS1` and `RS2` only. -/
def opcodesR2 : List Nat :=
  [0x06, 0x08, 0x09, 0x0A, 0x0C, 0x0D, 0x10, 0x11, 0x12, 0x13, 0x18, 0x19, 0x1A, 0x1B, 0x1C, 0x20, 0x23, 0x29, 0x2A]

/-- The opcodes of Format R with two destinations. -/
def opcodesTwoResults : List Nat := [0x21, 0x28, 0x2B]

/-- The opcodes of the modular commands. -/
def opcodesModular : List Nat := [0x30, 0x31]

/-- The `OP` field of a word (30_encoding.md R101). -/
abbrev opField (c : Command) : Nat := field c.toNat 0 6

/-- M = `LEN` + 1 of a word (30_encoding.md R107). -/
abbrev countField (c : Command) : Nat := field c.toNat 12 6 + 1

/-- N/8 for the `W` bit of a word. -/
abbrev bytesField (c : Command) : Nat := if field c.toNat 6 1 = 0 then 32 else 64

/-- A word is illegal: the eleven conditions of 30_encoding.md R110, read off the bits of the word. -/
abbrev IllegalWord (c : Command) : Prop :=
  opField c ∈ reservedOpcodes ∨
  field c.toNat 7 1 = 1 ∨
  (opField c ∈ opcodesR1 ++ opcodesR2 ++ opcodesTwoResults ++ opcodesModular ∧ field c.toNat 24 8 ≠ 0) ∨
  ((opField c ∈ opcodesR1 ∧ field c.toNat 16 4 ≠ 0) ∨ (opField c ∈ opcodesR1 ++ opcodesR2 ∧ field c.toNat 20 4 ≠ 0)) ∨
  (opField c = 0x04 ∧ field c.toNat 12 4 ≠ 0) ∨
  (opField c ∈ [0x01, 0x02] ∧ field c.toNat 6 26 ≠ 0) ∨
  (opField c ∈ opcodesTwoResults ∧ field c.toNat 8 4 = field c.toNat 20 4) ∨
  (opField c ∈ opcodesModular ∧ field c.toNat 6 1 = 1) ∨
  (opField c ∈ [0x38, 0x39, 0x3B] ∧ field c.toNat 12 6 ≠ 0) ∨
  (opField c = 0x3A ∧ countField c > bytesField c) ∨
  (opField c = 0x3C ∧ countField c ≥ bytesField c)

end Sys2Proof.Machine
end

