-- ==== Sys2Proof/Certificates/Slice0/Obligations.lean ====
section
/-! DEFINITION. The statements about the intx CORE for the provers. Each docstring names the rule of spec/ it formalises, or
says what it rests on. `Completed`, `Stored` and `Faulted` of Sys2Proof/Safety.lean are the frames: what a command writes, and
that all else is unchanged. No statement rests on the value a register holds at reset (notes/assumptions/1.md). -/

open Sys2Proof Sys2Proof.Machine

/-! ## Encoding -/

/-- Decoding the word of a well-formed instruction gives it back, every operand at every value its field admits
(30_encoding.md R103 to R109). -/
def Obligations.DecodeInvertsEncode : Prop :=
  ∀ i : Instr, i.wellFormed = true → decode (encode i) = .ok i

/-- A word that decodes is the word of the instruction it decodes to, and that instruction is well formed: no bit of a legal
word is ignored (30_encoding.md R109, R110, R112). -/
def Obligations.EncodeInvertsDecode : Prop :=
  ∀ (c : Command) (i : Instr), decode c = .ok i → encode i = c ∧ i.wellFormed = true

/-- The worked encodings of 30_encoding.md R115, both ways. -/
def Obligations.WorkedEncodings : Prop :=
  (decode 0x00021310 = .ok (.add .w256 3 1 2) ∧ encode (.add .w256 3 1 2) = 0x00021310) ∧
  (decode 0x00021351 = .ok (.adc .w512 3 1 2) ∧ encode (.adc .w512 3 1 2) = 0x00021351) ∧
  (decode 0x00310221 = .ok (.umul .w256 2 3 0 1) ∧ encode (.umul .w256 2 3 0 1) = 0x00310221) ∧
  (decode 0x00310228 = .ok (.udivrem .w256 2 3 0 1) ∧ encode (.udivrem .w256 2 3 0 1) = 0x00310228) ∧
  (decode 0x00000038 = .ok (.ldle .w256 0 0) ∧ encode (.ldle .w256 0 0) = 0x00000038) ∧
  (decode 0x0100117A = .ok (.ldbe .w512 1 1 0x40) ∧ encode (.ldbe .w512 1 1 0x40) = 0x0100117A) ∧
  (decode 0x04D20504 = .ok (.li .w256 5 1234) ∧ encode (.li .w256 5 1234) = 0x04D20504) ∧
  (decode 0x00000002 = .ok .halt ∧ encode .halt = 0x00000002)

/-- 30_encoding.md R110 and R111: a word is rejected exactly when one of the eleven conditions holds, and fetching it raises
`ILLEGAL_COMMAND`, whatever the registers hold. -/
def Obligations.IllegalWordsFault : Prop :=
  ∀ c : Command, ((∃ e, decode c = .error e) ↔ IllegalWord c) ∧
    ∀ s : State, IllegalWord c → s.hostTurns = [] → s.runState = .running → s.pc.toNat < 4096 →
      s.imemWord s.pc.toNat = some c →
      ∃ t, strictStep s = .next t ∧ step s = .next t ∧ Faulted .illegalCommand s t

/-! ## Steps -/

/-- A step of a running block runs the command its `pc` points to (60_exceptions.md R334, 70_reset_and_hazards.md R376): on the
state itself when the host has no turn left, and on the state with that turn consumed when the host passes. The turns, and the
pass that gives the block its move, are the model's own convention (DESIGN CHOICE, notes/assumptions/3.md). -/
def Obligations.StepRunsDecodedCommand : Prop :=
  ∀ (s : State) (i : Instr), s.runState = .running → s.pc.toNat < 4096 →
    (∃ c, s.imemWord s.pc.toNat = some c ∧ decode c = .ok i) →
    (s.hostTurns = [] → step s = exec i s) ∧
    (∀ turns, s.hostTurns = .pass :: turns → step s = exec i { s with hostTurns := turns })

/-- Fetch (60_exceptions.md R334): past the last index the block faults with `FPC` = 4096; a word nobody wrote is
`UNWRITTEN_READ`; after reset every word is unwritten, the host's write of a word clears that; and a run with `ENTRY` = 4096
faults at its first fetch. -/
def Obligations.FetchStops : Prop :=
  (∀ s : State, s.hostTurns = [] → s.runState = .running → s.pc = 4096 →
    ∃ t, step s = .next t ∧ Faulted .imemRange s t ∧ t.fpc = 4096) ∧
  (∀ s : State, s.hostTurns = [] → s.runState = .running → s.pc.toNat < 4096 → s.imemWord s.pc.toNat = none →
    step s = .fault (.unwrittenRead (.imemWord s.pc.toNat))) ∧
  (∀ i, State.reset.imemWord i = none) ∧
  (∀ (s : State) (i : BitVec 12) (c : Command), s.runState ≠ .running →
    ∃ t, hostMove (.writeImem i c) s = .next t ∧ t.imemWord i.toNat = some c ∧
      ∀ j, j ≠ i.toNat → t.imemWord j = s.imemWord j) ∧
  (∀ s : State, s.hostTurns = [] → s.runState ≠ .running → s.entry = 4096 →
    ∃ t u, hostMove (.writeCsr 0x00 1) s = .next t ∧ step t = .next u ∧ Faulted .imemRange t u ∧ u.fpc = 4096)

/-- The six checks of a step in their order (60_exceptions.md R332), on the step that has the spec's register poison. -/
def Obligations.ChecksInPriorityOrder : Prop :=
  ∀ s : State, s.hostTurns = [] → s.runState = .running →
    (s.pc = 4096 → ∃ t, strictStep s = .next t ∧ Faulted .imemRange s t) ∧
    (s.pc.toNat < 4096 →
      (s.imemWord s.pc.toNat = none → strictStep s = .fault (.unwrittenRead (.imemWord s.pc.toNat))) ∧
      ∀ c, s.imemWord s.pc.toNat = some c →
        (∀ e, decode c = .error e → ∃ t, strictStep s = .next t ∧ Faulted .illegalCommand s t) ∧
        ∀ i, decode c = .ok i →
          ((∃ r, r ∈ sources i ∧ s.isWritten r = false) →
            ∃ r, r ∈ sources i ∧ s.isWritten r = false ∧ strictStep s = .fault (.unwrittenRead (.register r))) ∧
          ((∀ r, r ∈ sources i → s.isWritten r = true) →
            (divisorOf s i = some 0 → ∃ t, strictStep s = .next t ∧ Faulted .divideByZero s t) ∧
            (∀ a n, loadAccess i = some (a, n) ∨ storeAccess i = some (a, n) → 16384 < a + n →
              ∃ t, strictStep s = .next t ∧ Faulted .dmemRange s t) ∧
            (∀ a n, loadAccess i = some (a, n) → a + n ≤ 16384 →
              (∃ b, a ≤ b ∧ b < a + n ∧ s.dmemByte b = none) →
              ∃ b, a ≤ b ∧ b < a + n ∧ s.dmemByte b = none ∧
                strictStep s = .fault (.unwrittenRead (.dmemByte b))) ∧
            (divisorOf s i ≠ some 0 →
              (∀ a n, loadAccess i = some (a, n) ∨ storeAccess i = some (a, n) → a + n ≤ 16384) →
              (∀ a n, loadAccess i = some (a, n) → ∀ b, a ≤ b → b < a + n → s.dmemByte b ≠ none) →
              ∃ t, strictStep s = .next t ∧ exec i s = .next t ∧ t.runState ≠ .faulted)))

/-- A block that is not `RUNNING` executes nothing: its turn changes nothing (10_state.md R37, 70_reset_and_hazards.md R378). -/
def Obligations.IdleBlockKeepsState : Prop :=
  ∀ s : State, s.runState ≠ .running → s.hostTurns = [] → step s = .next s

/-- The step with the spec's register poison (10_state.md R33) is the step itself, except that it stops where the running
command reads a register nothing has written. -/
def Obligations.StrictStepOnlyAddsStops : Prop :=
  ∀ s : State, strictStep s = step s ∨
    ∃ i r, fetch s = .command i ∧ r ∈ sources i ∧ s.isWritten r = false ∧
      strictStep s = .fault (.unwrittenRead (.register r))

/-- What a poisoned register happens to hold is never seen by a run without `UNWRITTEN_READ` (10_state.md R33, R52: nothing is
proved from the value of an unwritten register). The model's reset values (notes/assumptions/1.md) are therefore harmless to
every statement about clean runs. -/
def Obligations.PoisonValuesDoNotLeak : Prop :=
  ∀ s s' : State, SameButPoison s s' →
    (∀ t, strictStep s = .next t → ∃ t', strictStep s' = .next t' ∧ SameButPoison t t') ∧
    ∀ n, CleanFor n s → CleanFor n s'

/-- Fault entry (60_exceptions.md R331): a step of a running block that leaves it `FAULTED` has recorded a cause and its own
`pc`, has changed nothing else, raises `done`, and is followed by no further fetch. -/
def Obligations.FaultsArePrecise : Prop :=
  ∀ s t : State, s.hostTurns = [] → s.runState = .running → step s = .next t → t.runState = .faulted →
    t.cause ≠ .none ∧ Faulted t.cause s t ∧ t.done = true ∧ step t = .next t

/-! ## Control commands and the host -/

/-- `NOP` (47_control.md R320): only `pc` moves, whichever registers are poison; a word with its opcode and any of bits 31:6
set is illegal. -/
def Obligations.NopOnlyAdvances : Prop :=
  (∀ s : State, ∃ t, exec .nop s = .next t ∧ strictExec .nop s = .next t ∧ Completed [] s t ∧ t.carry = s.carry) ∧
  decode 0x00000001 = .ok .nop ∧
  ∀ c : Command, field c.toNat 0 6 = 1 → field c.toNat 6 26 ≠ 0 → ∃ e, decode c = .error e

/-- `HALT` (47_control.md R322): `FPC <- pc; STATE <- HALTED`, `pc` and all else unchanged, `done` high; a word with its opcode
and any of bits 31:6 set is illegal; a later START begins at `ENTRY`. -/
def Obligations.HaltEndsTheRun : Prop :=
  (∀ s : State, ∃ t, exec .halt s = .next t ∧ t.fpc = s.pc ∧ t.runState = .halted ∧ t.pc = s.pc ∧ t.done = true ∧
    RegsKept [] s t ∧ t.carry = s.carry ∧ t.cause = s.cause ∧ t.entry = s.entry ∧ t.hostTurns = s.hostTurns ∧
    DmemKept s t ∧ ImemKept s t ∧
    ∃ u, hostMove (.writeCsr 0x00 1) t = .next u ∧ u.pc = s.entry ∧ u.runState = .running) ∧
  decode 0x00000002 = .ok .halt ∧
  ∀ c : Command, field c.toNat 0 6 = 2 → field c.toNat 6 26 ≠ 0 → ∃ e, decode c = .error e

/-- START (10_state.md R39): a write of `CTRL` with bit 0 = 1 outside a run; any other write of `CTRL` is ignored; `CTRL` reads
0. -/
def Obligations.StartBeginsARun : Prop :=
  ∀ (s : State) (v : BitVec 32), ∃ t, hostMove (.writeCsr 0x00 v) s = .next t ∧ readCsr 0x00 s = 0 ∧
    (s.runState ≠ .running → v.getLsbD 0 = true →
      t.pc = s.entry ∧ t.carry = false ∧ t.cause = .none ∧ t.runState = .running ∧ t.fpc = s.fpc ∧ t.entry = s.entry ∧
      t.hostTurns = s.hostTurns ∧ RegsKept [] s t ∧ DmemKept s t ∧ ImemKept s t) ∧
    (s.runState = .running ∨ v.getLsbD 0 = false → t = s)

/-- `ENTRY` (10_state.md R43): outside a run a write stores bits 12:0 if they are at most 4096, and 4096 otherwise; in a run it
is ignored; the register reads 0 after reset, and between 0 and 4096 always. -/
def Obligations.EntryHoldsALegalIndex : Prop :=
  (∀ (s : State) (v : BitVec 32), ∃ t, hostMove (.writeCsr 0x10 v) s = .next t ∧
    (s.runState ≠ .running →
      (readCsr 0x10 t).toNat = (if v.toNat % 8192 ≤ 4096 then v.toNat % 8192 else 4096) ∧
      t.pc = s.pc ∧ RegsKept [] s t ∧ t.carry = s.carry ∧ t.runState = s.runState ∧ t.cause = s.cause ∧ t.fpc = s.fpc ∧
      t.hostTurns = s.hostTurns ∧ DmemKept s t ∧ ImemKept s t) ∧
    (s.runState = .running → t = s)) ∧
  readCsr 0x10 State.reset = 0 ∧
  (∀ s : State, s.Inv → (readCsr 0x10 s).toNat ≤ 4096)

/-- `STATUS` (10_state.md R40): its fields, its reserved bits, its value after reset, and that a host write of it is
ignored. -/
def Obligations.StatusShowsRunStateAndCarry : Prop :=
  (∀ s : State,
    bitsAt (readCsr 0x04 s).toNat 0 2 =
      (match s.runState with | .idle => 0 | .running => 1 | .halted => 2 | .faulted => 3) ∧
    (readCsr 0x04 s).getLsbD 2 = s.carry ∧
    ((readCsr 0x04 s).getLsbD 3 = true ↔ s.runState = .halted ∨ s.runState = .faulted) ∧
    bitsAt (readCsr 0x04 s).toNat 4 28 = 0 ∧
    ∀ v, hostMove (.writeCsr 0x04 v) s = .next s) ∧
  readCsr 0x04 State.reset = 0

/-- The rest of the host's CSR window (10_state.md R38, R41, R42): `CAUSE` and `FPC` read their codes and indices, with 0 in
the reserved bits; a write of either, or of an offset that names no register, is ignored; such an offset reads 0. -/
def Obligations.CsrWindow : Prop :=
  ∀ s : State,
    (readCsr 0x08 s).toNat =
      (match s.cause with
        | .none => 0 | .illegalCommand => 1 | .divideByZero => 2 | .dmemRange => 3 | .imemRange => 4) ∧
    (readCsr 0x0C s).toNat = s.fpc.toNat ∧
    (∀ v, hostMove (.writeCsr 0x08 v) s = .next s ∧ hostMove (.writeCsr 0x0C v) s = .next s) ∧
    ∀ offset, offset ∉ [0x00, 0x04, 0x08, 0x0C, 0x10] →
      readCsr offset s = 0 ∧ ∀ v, hostMove (.writeCsr offset v) s = .next s

/-- What reset leaves (10_state.md R52, 70_reset_and_hazards.md R370), in `State.reset` and after the host's reset of any
state: every register, byte and word is poison. What a poisoned register holds is the model's choice and is not stated. -/
def Obligations.ResetValues : Prop :=
  ∀ s : State, s = State.reset ∨ (∃ s₀, hostMove .reset s₀ = .next s) →
    (∀ r, s.isWritten r = false) ∧ s.carry = false ∧ s.pc = 0 ∧ s.runState = .idle ∧ readCsr 0x00 s = 0 ∧
    readCsr 0x04 s = 0 ∧ readCsr 0x08 s = 0 ∧ readCsr 0x0C s = 0 ∧ readCsr 0x10 s = 0 ∧ s.done = false ∧
    (∀ a, s.dmemByte a = none) ∧ (∀ i, s.imemWord i = none)

/-- CSR writes and memory accesses of the host while the block runs: every CSR write is ignored, and the memories are out of
reach (10_state.md R39, R43, R50; 70_reset_and_hazards.md R382). That such an access ends in a refusal is the model's form of
the move the spec does not give (DEDUCED, notes/assumptions/7.md). The host's reset is not meant: `ResetValues` says what it
does, also during a run (70_reset_and_hazards.md R370). -/
def Obligations.HostAccessDuringRun : Prop :=
  ∀ s : State, s.runState = .running →
    (∀ offset v, hostMove (.writeCsr offset v) s = .next s) ∧
    (∀ i c, hostMove (.writeImem i c) s = .refused .hostDutyViolation) ∧
    (∀ a b, hostMove (.writeDmem a b) s = .refused .hostDutyViolation) ∧
    (∀ i, hostReadImem i s = .refused .hostDutyViolation) ∧
    (∀ a, hostReadDmem a s = .refused .hostDutyViolation)

/-- Outside a run the host reads back the byte or word it wrote, every other one is unchanged, and no move but reset touches a
wide register or its poison mark (10_state.md R50, 20_memory.md R83). -/
def Obligations.HostAccessesMemoryNotRegisters : Prop :=
  (∀ (s : State) (a : BitVec 14) (b : Byte), s.runState ≠ .running →
    ∃ t, hostMove (.writeDmem a b) s = .next t ∧ hostReadDmem a t = .next b ∧
      (∀ a', a' ≠ a.toNat → t.dmemByte a' = s.dmemByte a') ∧ ImemKept s t ∧ ControlKept s t ∧ t.pc = s.pc ∧
      t.carry = s.carry) ∧
  (∀ (s : State) (i : BitVec 12) (c : Command), s.runState ≠ .running →
    ∃ t, hostMove (.writeImem i c) s = .next t ∧ hostReadImem i t = .next c ∧
      (∀ i', i' ≠ i.toNat → t.imemWord i' = s.imemWord i') ∧ DmemKept s t ∧ ControlKept s t ∧ t.pc = s.pc ∧
      t.carry = s.carry) ∧
  (∀ (s t : State) (m : HostMove), m ≠ .reset → hostMove m s = .next t → RegsKept [] s t)

/-! ## Rules of the whole machine -/

/-- The carry flag (10_state.md R34): no other command writes it, no other command's effect depends on it, `STATUS.C` shows it,
START and reset clear it. -/
def Obligations.CarryFlagUsers : Prop :=
  (∀ (i : Instr) (s t : State), ¬WritesCarry i → exec i s = .next t → t.carry = s.carry) ∧
  (∀ (i : Instr) (s t : State) (b : Bool), ¬ReadsCarry i → exec i s = .next t →
    ∃ t', exec i { s with carry := b } = .next t' ∧ t' = { t with carry := t'.carry } ∧
      (WritesCarry i → t'.carry = t.carry)) ∧
  (∀ s : State, (readCsr 0x04 s).getLsbD 2 = s.carry) ∧
  (∀ (s t : State), s.runState ≠ .running → hostMove (.writeCsr 0x00 1) s = .next t → t.carry = false) ∧
  State.reset.carry = false

/-- No command writes `IMEM`; only the host does, outside a run, and the next fetch sees it (20_memory.md R87). -/
def Obligations.CommandsNeverWriteImem : Prop :=
  (∀ (i : Instr) (s t : State), exec i s = .next t → t.imem = s.imem) ∧
  (∀ (s : State) (i : BitVec 12) (c : Command), s.runState = .running → ∀ t, hostMove (.writeImem i c) s ≠ .next t) ∧
  (∀ (s t : State) (i : BitVec 12) (c : Command) (j : Instr), hostMove (.writeImem i c) s = .next t →
    t.pc.toNat = i.toNat → decode c = .ok j → fetch t = .command j)

/-- Only `STLE`, `STBE` and `TRUNCBE` change data memory, and only the bytes of their access (20_memory.md R77). -/
def Obligations.OnlyStoresWriteDmem : Prop :=
  ∀ (i : Instr) (s t : State), exec i s = .next t →
    ∀ a, (∀ b n, storeAccess i = some (b, n) → a < b ∨ b + n ≤ a) → t.dmemByte a = s.dmemByte a

/-- A command of a running block advances `pc` by one and stays in `RUNNING`, or halts or faults with `pc` kept; only `HALT`
halts (10_state.md R36, R37; 47_control.md R321). -/
def Obligations.PcOnlyAdvances : Prop :=
  ∀ (i : Instr) (s t : State), s.runState = .running → exec i s = .next t →
    (i ≠ .halt ∧ t.runState = .running ∧ t.pc = s.pc + 1) ∨
    (i ≠ .halt ∧ t.runState = .faulted ∧ t.pc = s.pc) ∨
    (i = .halt ∧ t.runState = .halted ∧ t.pc = s.pc)

/-- "It has no way for a program to read `pc`" (47_control.md R321): where a command runs does not change what it does to the
registers, the carry flag, the memory and the run state. -/
def Obligations.CommandsDoNotReadPc : Prop :=
  ∀ (i : Instr) (s t : State) (p : CommandIndex), exec i s = .next t →
    ∃ t', exec i { s with pc := p } = .next t' ∧ t'.regs = t.regs ∧ t'.written = t.written ∧ t'.carry = t.carry ∧
      t'.dmem = t.dmem ∧ t'.imem = t.imem ∧ t'.runState = t.runState ∧ t'.cause = t.cause ∧ t'.entry = t.entry

/-- Every step keeps the invariant: `pc`, `FPC` and `ENTRY` stay within 0 to 4096, both memories stay canonical, `CAUSE` is
nonzero exactly after a fault, and `FPC` = `pc` whenever `done` is high (10_state.md R36, R41 to R43; 60_exceptions.md
R331, R340). -/
def Obligations.StepKeepsInvariant : Prop :=
  ∀ s t : State, s.Inv → step s = .next t → t.Inv

/-- The invariant holds after reset. -/
def Obligations.ResetMeetsInvariant : Prop := State.reset.Inv

/-- Every run ends (47_control.md R321, 70_reset_and_hazards.md R378): from any running state that meets the invariant, with the
host leaving the block alone, at most `4096 - pc` commands and the fetch past the last of them are made before the block is
no longer running or the step is `UNWRITTEN_READ`. That the fetch is counted beside the commands is the model's reading of R321
(DEDUCED, notes/assumptions/12.md). -/
def Obligations.EveryRunEnds : Prop :=
  ∀ s : State, s.Inv → s.hostTurns = [] → s.runState = .running →
    ∃ k, k ≤ 4096 - s.pc.toNat + 1 ∧
      ((∃ t : State, Sys2Proof.core.run k s = .next t ∧ (t.runState = .halted ∨ t.runState = .faulted)) ∨
       (∃ what, Sys2Proof.core.run k s = .fault (Fault.unwrittenRead what)))

/-! ## Results of the commands -/

/-- `AND`, `OR`, `XOR`, `NOT` (41_bitwise_shift.md R140 to R143): each result word is the operation on the words at its index,
and the words above N are 0. -/
def Obligations.BitwiseResults : Prop :=
  ∀ (w : Width) (rd rs1 rs2 : Reg) (s : State),
    (decode (encodeR 0x08 w rd rs1 rs2 0) = .ok (.and w rd rs1 rs2) ∧
      ∃ t, exec (.and w rd rs1 rs2) s = .next t ∧ Completed [rd] s t ∧ t.carry = s.carry ∧
      ∀ i, i < 8 → wordAt (t.reg rd).toNat i =
        if i < w.words then wordAt (s.operand w rs1) i &&& wordAt (s.operand w rs2) i else 0) ∧
    (decode (encodeR 0x09 w rd rs1 rs2 0) = .ok (.or w rd rs1 rs2) ∧
      ∃ t, exec (.or w rd rs1 rs2) s = .next t ∧ Completed [rd] s t ∧ t.carry = s.carry ∧
      ∀ i, i < 8 → wordAt (t.reg rd).toNat i =
        if i < w.words then wordAt (s.operand w rs1) i ||| wordAt (s.operand w rs2) i else 0) ∧
    (decode (encodeR 0x0A w rd rs1 rs2 0) = .ok (.xor w rd rs1 rs2) ∧
      ∃ t, exec (.xor w rd rs1 rs2) s = .next t ∧ Completed [rd] s t ∧ t.carry = s.carry ∧
      ∀ i, i < 8 → wordAt (t.reg rd).toNat i =
        if i < w.words then wordAt (s.operand w rs1) i ^^^ wordAt (s.operand w rs2) i else 0) ∧
    (decode (encodeR 0x0B w rd rs1 0 0) = .ok (.not w rd rs1) ∧
      ∃ t, exec (.not w rd rs1) s = .next t ∧ Completed [rd] s t ∧ t.carry = s.carry ∧
      ∀ i, i < 8 → wordAt (t.reg rd).toNat i =
        if i < w.words then 2 ^ 64 - 1 - wordAt (s.operand w rs1) i else 0)

/-- `SHL` and `SHR` (41_bitwise_shift.md R144 to R146): the distance is the whole N-bit operand; N or more gives 0. -/
def Obligations.ShiftResults : Prop :=
  ∀ (w : Width) (rd rs1 rs2 : Reg) (s : State),
    (decode (encodeR 0x0C w rd rs1 rs2 0) = .ok (.shl w rd rs1 rs2) ∧
      ∃ t, exec (.shl w rd rs1 rs2) s = .next t ∧ Completed [rd] s t ∧ t.carry = s.carry ∧
      (t.reg rd).toNat = if s.operand w rs2 ≥ w.bits then 0
        else s.operand w rs1 * 2 ^ s.operand w rs2 % 2 ^ w.bits) ∧
    (decode (encodeR 0x0D w rd rs1 rs2 0) = .ok (.shr w rd rs1 rs2) ∧
      ∃ t, exec (.shr w rd rs1 rs2) s = .next t ∧ Completed [rd] s t ∧ t.carry = s.carry ∧
      (t.reg rd).toNat = if s.operand w rs2 ≥ w.bits then 0
        else s.operand w rs1 / 2 ^ s.operand w rs2)

/-- `ADD` and `ADC` (42_additive.md R171, R172): the result and the new carry are the N-bit sum and its carry out. -/
def Obligations.AdditionResults : Prop :=
  ∀ (w : Width) (rd rs1 rs2 : Reg) (s : State),
    (decode (encodeR 0x10 w rd rs1 rs2 0) = .ok (.add w rd rs1 rs2) ∧
      ∃ t, exec (.add w rd rs1 rs2) s = .next t ∧ Completed [rd] s t ∧ (t.reg rd).toNat < 2 ^ w.bits ∧
      t.carry.toNat * 2 ^ w.bits + (t.reg rd).toNat = s.operand w rs1 + s.operand w rs2) ∧
    (decode (encodeR 0x11 w rd rs1 rs2 0) = .ok (.adc w rd rs1 rs2) ∧
      ∃ t, exec (.adc w rd rs1 rs2) s = .next t ∧ Completed [rd] s t ∧ (t.reg rd).toNat < 2 ^ w.bits ∧
      t.carry.toNat * 2 ^ w.bits + (t.reg rd).toNat = s.operand w rs1 + s.operand w rs2 + s.carry.toNat)

/-- `SUB` and `SBB` (42_additive.md R176, R177): the result and the new carry are the N-bit difference and its borrow. -/
def Obligations.SubtractionResults : Prop :=
  ∀ (w : Width) (rd rs1 rs2 : Reg) (s : State),
    (decode (encodeR 0x12 w rd rs1 rs2 0) = .ok (.sub w rd rs1 rs2) ∧
      ∃ t, exec (.sub w rd rs1 rs2) s = .next t ∧ Completed [rd] s t ∧ (t.reg rd).toNat < 2 ^ w.bits ∧
      (s.operand w rs1 : Int) - s.operand w rs2 = (t.reg rd).toNat - t.carry.toNat * 2 ^ w.bits) ∧
    (decode (encodeR 0x13 w rd rs1 rs2 0) = .ok (.sbb w rd rs1 rs2) ∧
      ∃ t, exec (.sbb w rd rs1 rs2) s = .next t ∧ Completed [rd] s t ∧ (t.reg rd).toNat < 2 ^ w.bits ∧
      (s.operand w rs1 : Int) - s.operand w rs2 - s.carry.toNat = (t.reg rd).toNat - t.carry.toNat * 2 ^ w.bits)

/-- `NEG` (42_additive.md R173): `trunc_N(2^N - a)`, the carry flag unchanged. -/
def Obligations.NegationResult : Prop :=
  ∀ (w : Width) (rd rs1 : Reg) (s : State),
    decode (encodeR 0x14 w rd rs1 0 0) = .ok (.neg w rd rs1) ∧
    ∃ t, exec (.neg w rd rs1) s = .next t ∧ Completed [rd] s t ∧ t.carry = s.carry ∧
      (t.reg rd).toNat = (2 ^ w.bits - s.operand w rs1) % 2 ^ w.bits

/-- The comparisons (42_additive.md R178 to R184) write 1 or 0, unsigned, and leave the carry flag unchanged. -/
def Obligations.ComparisonResults : Prop :=
  ∀ (w : Width) (rd rs1 rs2 : Reg) (s : State),
    (decode (encodeR 0x18 w rd rs1 rs2 0) = .ok (.eq w rd rs1 rs2) ∧
      ∃ t, exec (.eq w rd rs1 rs2) s = .next t ∧ Completed [rd] s t ∧ t.carry = s.carry ∧
      (t.reg rd).toNat = if s.operand w rs1 = s.operand w rs2 then 1 else 0) ∧
    (decode (encodeR 0x19 w rd rs1 rs2 0) = .ok (.lt w rd rs1 rs2) ∧
      ∃ t, exec (.lt w rd rs1 rs2) s = .next t ∧ Completed [rd] s t ∧ t.carry = s.carry ∧
      (t.reg rd).toNat = if s.operand w rs1 < s.operand w rs2 then 1 else 0) ∧
    (decode (encodeR 0x1A w rd rs1 rs2 0) = .ok (.gt w rd rs1 rs2) ∧
      ∃ t, exec (.gt w rd rs1 rs2) s = .next t ∧ Completed [rd] s t ∧ t.carry = s.carry ∧
      (t.reg rd).toNat = if s.operand w rs1 > s.operand w rs2 then 1 else 0) ∧
    (decode (encodeR 0x1B w rd rs1 rs2 0) = .ok (.le w rd rs1 rs2) ∧
      ∃ t, exec (.le w rd rs1 rs2) s = .next t ∧ Completed [rd] s t ∧ t.carry = s.carry ∧
      (t.reg rd).toNat = if s.operand w rs1 ≤ s.operand w rs2 then 1 else 0) ∧
    (decode (encodeR 0x1C w rd rs1 rs2 0) = .ok (.ge w rd rs1 rs2) ∧
      ∃ t, exec (.ge w rd rs1 rs2) s = .next t ∧ Completed [rd] s t ∧ t.carry = s.carry ∧
      (t.reg rd).toNat = if s.operand w rs1 ≥ s.operand w rs2 then 1 else 0)

/-- `MOV`, `LI` and `PAIR` (43_move_and_serialization.md R200 to R202). -/
def Obligations.MoveResults : Prop :=
  ∀ (w : Width) (rd rs1 rs2 : Reg) (imm16 : BitVec 16) (s : State),
    (decode (encodeR 0x05 w rd rs1 0 0) = .ok (.mov w rd rs1) ∧
      ∃ t, exec (.mov w rd rs1) s = .next t ∧ Completed [rd] s t ∧ t.carry = s.carry ∧
      (t.reg rd).toNat = (s.reg rs1).toNat % 2 ^ w.bits) ∧
    (decode (encodeI 0x04 w rd imm16.toNat) = .ok (.li w rd imm16) ∧
      ∃ t, exec (.li w rd imm16) s = .next t ∧ Completed [rd] s t ∧ t.carry = s.carry ∧
      (t.reg rd).toNat = imm16.toNat) ∧
    (decode (encodeR 0x06 w rd rs1 rs2 0) = .ok (.pair w rd rs1 rs2) ∧
      ∃ t, exec (.pair w rd rs1 rs2) s = .next t ∧ Completed [rd] s t ∧ t.carry = s.carry ∧
      (t.reg rd).toNat = (s.reg rs1).toNat % 2 ^ w.half * 2 ^ w.half + (s.reg rs2).toNat % 2 ^ w.half)

/-- `BSWAP` (43_move_and_serialization.md R209): byte k of the result is byte N/8-1-k of the operand, the bytes above N are
0; and the word form, words reversed and each byte-swapped, gives the same value. -/
def Obligations.ByteSwapResult : Prop :=
  ∀ (w : Width) (rd rs1 : Reg) (s : State),
    decode (encodeR 0x3D w rd rs1 0 0) = .ok (.bswap w rd rs1) ∧
    ∃ t, exec (.bswap w rd rs1) s = .next t ∧ Completed [rd] s t ∧ t.carry = s.carry ∧
      (∀ k, k < 64 → bitsAt (t.reg rd).toNat (8 * k) 8 =
        if k < w.bytes then bitsAt (s.operand w rs1) (8 * (w.bytes - 1 - k)) 8 else 0) ∧
      (t.reg rd).toNat = byteSwapByWords w (s.operand w rs1)

/-- `LDLE` and `LDBE` (43_move_and_serialization.md R204, R206): a load in range whose bytes are all written gives the value of
their image, one out of range raises `DMEM_RANGE`, and `LDBE` has no word for a count above N/8. -/
def Obligations.LoadResults : Prop :=
  ∀ (w : Width) (rr : Reg) (len : BitVec 6) (addr : BitVec 14) (s : State) (b : Nat → Byte),
    (decode (encodeM 0x38 w rr 0 addr.toNat) = .ok (.ldle w rr addr) ∧
      (len.toNat + 1 ≤ w.bytes → decode (encodeM 0x3A w rr len.toNat addr.toNat) = .ok (.ldbe w rr len addr)) ∧
      (w.bytes < len.toNat + 1 → ∃ e, decode (encodeM 0x3A w rr len.toNat addr.toNat) = .error e)) ∧
    (16384 < addr.toNat + w.bytes → ∃ t, exec (.ldle w rr addr) s = .next t ∧ Faulted .dmemRange s t) ∧
    (16384 < addr.toNat + (len.toNat + 1) →
      ∃ t, exec (.ldbe w rr len addr) s = .next t ∧ Faulted .dmemRange s t) ∧
    (addr.toNat + w.bytes ≤ 16384 → (∀ k, k < w.bytes → s.dmemByte (addr.toNat + k) = some (b k)) →
      ∃ t, exec (.ldle w rr addr) s = .next t ∧ Completed [rr] s t ∧ t.carry = s.carry ∧
        (t.reg rr).toNat = Finset.sum (Finset.range w.bytes) fun k => (b k).toNat * 2 ^ (8 * k)) ∧
    (addr.toNat + (len.toNat + 1) ≤ 16384 →
      (∀ k, k < len.toNat + 1 → s.dmemByte (addr.toNat + k) = some (b k)) →
      ∃ t, exec (.ldbe w rr len addr) s = .next t ∧ Completed [rr] s t ∧ t.carry = s.carry ∧
        (t.reg rr).toNat = Finset.sum (Finset.range (len.toNat + 1)) fun k => (b k).toNat * 2 ^ (8 * (len.toNat - k)))

/-- `STLE`, `STBE` and `TRUNCBE` (43_move_and_serialization.md R205, R207, R208): in range, byte k of the access is the byte of
the operand the rule names and every other byte and all else is unchanged; out of range, `DMEM_RANGE`; and `TRUNCBE` has no
word for a count of N/8 or more. -/
def Obligations.StoreResults : Prop :=
  ∀ (w : Width) (rr : Reg) (len : BitVec 6) (addr : BitVec 14) (s : State),
    (decode (encodeM 0x39 w rr 0 addr.toNat) = .ok (.stle w rr addr) ∧
      decode (encodeM 0x3B w rr 0 addr.toNat) = .ok (.stbe w rr addr) ∧
      (len.toNat + 1 < w.bytes → decode (encodeM 0x3C w rr len.toNat addr.toNat) = .ok (.truncbe w rr len addr)) ∧
      (w.bytes ≤ len.toNat + 1 → ∃ e, decode (encodeM 0x3C w rr len.toNat addr.toNat) = .error e)) ∧
    (16384 < addr.toNat + w.bytes →
      (∃ t, exec (.stle w rr addr) s = .next t ∧ Faulted .dmemRange s t) ∧
      (∃ t, exec (.stbe w rr addr) s = .next t ∧ Faulted .dmemRange s t)) ∧
    (16384 < addr.toNat + (len.toNat + 1) →
      ∃ t, exec (.truncbe w rr len addr) s = .next t ∧ Faulted .dmemRange s t) ∧
    (addr.toNat + w.bytes ≤ 16384 →
      (∃ t bs, exec (.stle w rr addr) s = .next t ∧ bs.length = w.bytes ∧ Stored addr.toNat bs s t ∧
        ∀ k, k < w.bytes →
          t.dmemByte (addr.toNat + k) = some (BitVec.ofNat 8 (bitsAt (s.operand w rr) (8 * k) 8))) ∧
      (∃ t bs, exec (.stbe w rr addr) s = .next t ∧ bs.length = w.bytes ∧ Stored addr.toNat bs s t ∧
        ∀ k, k < w.bytes → t.dmemByte (addr.toNat + k) =
          some (BitVec.ofNat 8 (bitsAt (s.operand w rr) (w.bits - 8 - 8 * k) 8)))) ∧
    (addr.toNat + (len.toNat + 1) ≤ 16384 →
      ∃ t bs, exec (.truncbe w rr len addr) s = .next t ∧ bs.length = len.toNat + 1 ∧ Stored addr.toNat bs s t ∧
        ∀ k, k < len.toNat + 1 → t.dmemByte (addr.toNat + k) =
          some (BitVec.ofNat 8 (bitsAt (s.operand w rr) (8 * (len.toNat - k)) 8)))

/-- The range check (20_memory.md R74): a load or store that would pass address 16383 raises `DMEM_RANGE` and reads and writes
nothing, whether or not its bytes are written. -/
def Obligations.OutOfRangeAccessFaults : Prop :=
  ∀ (i : Instr) (s : State) (a n : Nat), loadAccess i = some (a, n) ∨ storeAccess i = some (a, n) → 16384 < a + n →
    ∃ t, exec i s = .next t ∧ Faulted .dmemRange s t

/-- `MUL`, `SQR` and `UMUL` (44_multiply.md R236, R238, R240). `RD` = `RD2` is illegal (30_encoding.md R110). -/
def Obligations.ProductResults : Prop :=
  ∀ (w : Width) (rd rd2 rs1 rs2 : Reg) (s : State),
    (decode (encodeR 0x20 w rd rs1 rs2 0) = .ok (.mul w rd rs1 rs2) ∧
      ∃ t, exec (.mul w rd rs1 rs2) s = .next t ∧ Completed [rd] s t ∧ t.carry = s.carry ∧
      (t.reg rd).toNat = s.operand w rs1 * s.operand w rs2 % 2 ^ w.bits) ∧
    (decode (encodeR 0x22 w rd rs1 0 0) = .ok (.sqr w rd rs1) ∧
      ∃ t, exec (.sqr w rd rs1) s = .next t ∧ Completed [rd] s t ∧ t.carry = s.carry ∧
      (t.reg rd).toNat = s.operand w rs1 ^ 2 % 2 ^ w.bits) ∧
    (rd = rd2 → ∃ e, decode (encodeR 0x21 w rd rs1 rs2 rd2) = .error e) ∧
    (rd ≠ rd2 → decode (encodeR 0x21 w rd rs1 rs2 rd2) = .ok (.umul w rd rd2 rs1 rs2) ∧
      ∃ t, exec (.umul w rd rd2 rs1 rs2) s = .next t ∧ Completed [rd, rd2] s t ∧ t.carry = s.carry ∧
      (t.reg rd).toNat < 2 ^ w.bits ∧ (t.reg rd2).toNat < 2 ^ w.bits ∧
      (t.reg rd2).toNat * 2 ^ w.bits + (t.reg rd).toNat = s.operand w rs1 * s.operand w rs2)

/-- `EXP` (44_multiply.md R242): `trunc_N(b^e)`, with `b^0 = 1` for every base. -/
def Obligations.PowerResult : Prop :=
  ∀ (w : Width) (rd rs1 rs2 : Reg) (s : State),
    decode (encodeR 0x23 w rd rs1 rs2 0) = .ok (.exp w rd rs1 rs2) ∧
    ∃ t, exec (.exp w rd rs1 rs2) s = .next t ∧ Completed [rd] s t ∧ t.carry = s.carry ∧
      (t.reg rd).toNat = s.operand w rs1 ^ s.operand w rs2 % 2 ^ w.bits

/-- `UDIVREM`, `UDIV` and `UREM` (45_division.md R260, R280 to R282): for a nonzero divisor the exact identity and the bound
that fix quotient and remainder; a zero divisor raises `DIVIDE_BY_ZERO`. -/
def Obligations.DivisionResults : Prop :=
  ∀ (w : Width) (rd rd2 rs1 rs2 : Reg) (s : State),
    (decode (encodeR 0x29 w rd rs1 rs2 0) = .ok (.udiv w rd rs1 rs2) ∧
      decode (encodeR 0x2A w rd rs1 rs2 0) = .ok (.urem w rd rs1 rs2) ∧
      (rd ≠ rd2 → decode (encodeR 0x28 w rd rs1 rs2 rd2) = .ok (.udivrem w rd rd2 rs1 rs2)) ∧
      (rd = rd2 → ∃ e, decode (encodeR 0x28 w rd rs1 rs2 rd2) = .error e)) ∧
    (s.operand w rs2 = 0 →
      (∃ t, exec (.udivrem w rd rd2 rs1 rs2) s = .next t ∧ Faulted .divideByZero s t) ∧
      (∃ t, exec (.udiv w rd rs1 rs2) s = .next t ∧ Faulted .divideByZero s t) ∧
      (∃ t, exec (.urem w rd rs1 rs2) s = .next t ∧ Faulted .divideByZero s t)) ∧
    (s.operand w rs2 ≠ 0 →
      (rd ≠ rd2 → ∃ t, exec (.udivrem w rd rd2 rs1 rs2) s = .next t ∧ Completed [rd, rd2] s t ∧ t.carry = s.carry ∧
        (t.reg rd).toNat * s.operand w rs2 + (t.reg rd2).toNat = s.operand w rs1 ∧
        (t.reg rd2).toNat < s.operand w rs2) ∧
      (∃ t, exec (.udiv w rd rs1 rs2) s = .next t ∧ Completed [rd] s t ∧ t.carry = s.carry ∧
        (t.reg rd).toNat * s.operand w rs2 ≤ s.operand w rs1 ∧
        s.operand w rs1 < ((t.reg rd).toNat + 1) * s.operand w rs2) ∧
      (∃ t, exec (.urem w rd rs1 rs2) s = .next t ∧ Completed [rd] s t ∧ t.carry = s.carry ∧
        (t.reg rd).toNat < s.operand w rs2 ∧ ∃ q, q * s.operand w rs2 + (t.reg rd).toNat = s.operand w rs1))

/-- `SDIVREM` (45_division.md R283, R284) for a nonzero divisor: as two's-complement values, the quotient truncated toward zero
and the remainder with the dividend's sign, each modulo 2^N. -/
def Obligations.SignedDivisionResult : Prop :=
  ∀ (w : Width) (rd rd2 rs1 rs2 : Reg) (s : State), s.operand w rs2 ≠ 0 → rd ≠ rd2 →
    ∃ t, exec (.sdivrem w rd rd2 rs1 rs2) s = .next t ∧ Completed [rd, rd2] s t ∧ t.carry = s.carry ∧
      ((t.reg rd).toNat : Int) =
        (signedValue w (s.operand w rs1)).tdiv (signedValue w (s.operand w rs2)) % 2 ^ w.bits ∧
      ((t.reg rd2).toNat : Int) =
        (signedValue w (s.operand w rs1)).tmod (signedValue w (s.operand w rs2)) % 2 ^ w.bits

/-- A zero divisor or modulus (45_division.md R286, 46_modular.md R308): the six commands raise `DIVIDE_BY_ZERO` and write
nothing. -/
def Obligations.ZeroDivisorFaults : Prop :=
  ∀ (i : Instr) (s : State), divisorOf s i = some 0 → ∃ t, exec i s = .next t ∧ Faulted .divideByZero s t

/-- `ADDMOD` and `MULMOD` (46_modular.md R303, R306): the remainder of the exact sum or product for a nonzero modulus, the fault
`DIVIDE_BY_ZERO` for a zero one, and no form at N = 512. -/
def Obligations.ModularResults : Prop :=
  ∀ (rd rs1 rs2 rs3 : Reg) (s : State),
    (decode (encodeR 0x30 .w256 rd rs1 rs2 rs3) = .ok (.addmod rd rs1 rs2 rs3) ∧
      decode (encodeR 0x31 .w256 rd rs1 rs2 rs3) = .ok (.mulmod rd rs1 rs2 rs3) ∧
      (∃ e, decode (encodeR 0x30 .w512 rd rs1 rs2 rs3) = .error e) ∧
      (∃ e, decode (encodeR 0x31 .w512 rd rs1 rs2 rs3) = .error e)) ∧
    (s.operand .w256 rs3 = 0 →
      (∃ t, exec (.addmod rd rs1 rs2 rs3) s = .next t ∧ Faulted .divideByZero s t) ∧
      (∃ t, exec (.mulmod rd rs1 rs2 rs3) s = .next t ∧ Faulted .divideByZero s t)) ∧
    (s.operand .w256 rs3 ≠ 0 →
      (∃ t, exec (.addmod rd rs1 rs2 rs3) s = .next t ∧ Completed [rd] s t ∧ t.carry = s.carry ∧
        (t.reg rd).toNat = (s.operand .w256 rs1 + s.operand .w256 rs2) % s.operand .w256 rs3) ∧
      (∃ t, exec (.mulmod rd rs1 rs2 rs3) s = .next t ∧ Completed [rd] s t ∧ t.carry = s.carry ∧
        (t.reg rd).toNat = s.operand .w256 rs1 * s.operand .w256 rs2 % s.operand .w256 rs3))

/-! ## Laws -/

/-- The shift laws (41_bitwise_shift.md R150) of the values the commands compute. -/
def Obligations.ShiftLaws : Prop :=
  ∀ (w : Width) (x d : Nat), x < 2 ^ w.bits →
    (d < w.bits → shiftRight w (shiftLeft w x d) d = x % 2 ^ (w.bits - d) ∧
      shiftLeft w (shiftRight w x d) d = x - x % 2 ^ d) ∧
    (w.bits ≤ d → shiftLeft w x d = 0 ∧ shiftRight w x d = 0)

/-- The laws of the adder and the comparisons (42_additive.md R185), on N-bit values. -/
def Obligations.AdditiveLaws : Prop :=
  ∀ (w : Width) (a b c : Nat), a < 2 ^ w.bits → b < 2 ^ w.bits → c < 2 ^ w.bits →
    let add := fun x y => (addWithCarry w x y false).1
    add (add a b) c = add a (add b c) ∧ add a 0 = a ∧ add a (negate w a) = 0 ∧
    (subWithBorrow w a b false).1 = add a (negate w b) ∧
    (borrowOf w a b).toNat + (decide (a = b)).toNat + (borrowOf w b a).toNat = 1

/-- The division laws (45_division.md R285), command against command, for a nonzero divisor. -/
def Obligations.DivisionLaws : Prop :=
  ∀ (w : Width) (rd rd2 rs1 rs2 : Reg) (s : State), s.operand w rs2 ≠ 0 →
    (∃ t u, exec (.udiv w rd rs1 rs2) s = .next t ∧ exec (.urem w rd rs1 rs2) s = .next u ∧
      (t.reg rd).toNat * s.operand w rs2 + (u.reg rd).toNat = s.operand w rs1 ∧
      (u.reg rd).toNat < s.operand w rs2) ∧
    (rd ≠ rd2 → ∃ t, exec (.sdivrem w rd rd2 rs1 rs2) s = .next t ∧
      ((t.reg rd).toNat * s.operand w rs2 + (t.reg rd2).toNat) % 2 ^ w.bits = s.operand w rs1 ∧
      ((t.reg rd2).toNat = 0 ∨
        bitsAt (t.reg rd2).toNat (w.bits - 1) 1 = bitsAt (s.operand w rs1) (w.bits - 1) 1))

/-- The round trips of serialization (43_move_and_serialization.md R210, R208), command after command: a store in range and
then the load of the same bytes gives the operand back, `LDBE` after `TRUNCBE` its low M bytes, `BSWAP` twice the operand. -/
def Obligations.StoreThenLoadRoundTrips : Prop :=
  ∀ (w : Width) (rs rd : Reg) (len : BitVec 6) (addr : BitVec 14) (s : State),
    (addr.toNat + w.bytes ≤ 16384 →
      ∃ t u, exec (.stle w rs addr) s = .next t ∧ exec (.ldle w rd addr) t = .next u ∧
        (u.reg rd).toNat = s.operand w rs) ∧
    (addr.toNat + w.bytes ≤ 16384 → len.toNat + 1 = w.bytes →
      ∃ t u, exec (.stbe w rs addr) s = .next t ∧ exec (.ldbe w rd len addr) t = .next u ∧
        (u.reg rd).toNat = s.operand w rs) ∧
    (addr.toNat + (len.toNat + 1) ≤ 16384 → len.toNat + 1 < w.bytes →
      ∃ t u, exec (.truncbe w rs len addr) s = .next t ∧ exec (.ldbe w rd len addr) t = .next u ∧
        (u.reg rd).toNat = s.operand w rs % 2 ^ (8 * (len.toNat + 1))) ∧
    (∃ t u, exec (.bswap w rd rs) s = .next t ∧ exec (.bswap w rd rd) t = .next u ∧
      (u.reg rd).toNat = s.operand w rs)

/-! ## The datapath meets the results -/

/-- The ripple adder and subtracter (42_additive.md R170, R175) compute the sum with carry and the difference with borrow. -/
def Obligations.RippleUnitsMeetContracts : Prop :=
  ∀ (w : Width) (x y : Nat) (c : Bool), x < 2 ^ w.bits → y < 2 ^ w.bits →
    adderCircuit w x y c = addWithCarry w x y c ∧ subtracterCircuit w x y c = subWithBorrow w x y c

/-- The shifts written on halves (41_bitwise_shift.md R147, R148) are the shifts, for every distance below N. -/
def Obligations.HalfShiftersAgree : Prop :=
  ∀ (w : Width) (a d : Nat), a < 2 ^ w.bits → d < w.bits →
    shiftLeftHalves w.half a d = shiftLeft w a d ∧ shiftRightHalves w.half a d = shiftRight w a d

/-- The same structure applied down to single words (41_bitwise_shift.md R147 to R149) is the shift too. -/
def Obligations.WordShifterAgrees : Prop :=
  ∀ (w : Width) (a d : Nat), a < 2 ^ w.bits → d < w.bits →
    shiftByLevels w.levels true a d = shiftLeft w a d ∧ shiftByLevels w.levels false a d = shiftRight w a d

/-- "Both must produce bit-identical results for all inputs" (44_multiply.md R233): the recursive and the loop formulation of
the full-width multiplier agree. That both equal the exact product is the spec's own inference (R233, marked derived there). -/
def Obligations.MultiplierFormulationsAgree : Prop :=
  ∀ (w : Width) (x y : Nat), x < 2 ^ w.bits → y < 2 ^ w.bits →
    umulByLevels w.levels x y = umulByLoop w x y ∧ umulByLoop w x y = x * y

/-- Truncated multiplication (44_multiply.md R237) and the squaring identity (R239) are the product modulo 2^N. -/
def Obligations.TruncatedProductCircuits : Prop :=
  ∀ (w : Width) (x y : Nat), x < 2 ^ w.bits → y < 2 ^ w.bits →
    mulByLoop w x y = x * y % 2 ^ w.bits ∧ squareByHalves w x = x * x % 2 ^ w.bits

/-- Exponentiation (44_multiply.md R241, R243): the base-2 fast path changes no result, and exponents add. -/
def Obligations.PowerPathsAgree : Prop :=
  ∀ (w : Width) (b e f : Nat), b < 2 ^ w.bits → e < 2 ^ w.bits → f < 2 ^ w.bits →
    expWithFastPath w b e = b ^ e % 2 ^ w.bits ∧ power w b e = b ^ e % 2 ^ w.bits ∧
    (e + f < 2 ^ w.bits → power w b (e + f) = power w b e * power w b f % 2 ^ w.bits)

/-- The 2-by-1 trial unit (45_division.md R262, R264): under its preconditions the step sequence returns the exact quotient and
remainder. The formulas are the spec's passages from general knowledge. -/
def Obligations.TwoByOneStepsMeetContract : Prop :=
  ∀ uhi ulo d : Word, 2 ^ 63 ≤ d.toNat → uhi < d →
    let qr := udivrem2by1Steps uhi ulo d (reciprocal2by1 d)
    qr = udivrem2by1 uhi ulo d ∧
    qr.1.toNat * d.toNat + qr.2.toNat = uhi.toNat * 2 ^ 64 + ulo.toNat ∧ qr.2 < d

/-- The 3-by-2 trial unit (45_division.md R263, R265), as `TwoByOneStepsMeetContract`. -/
def Obligations.ThreeByTwoStepsMeetContract : Prop :=
  ∀ (u2 u1 u0 : Word) (d : DoubleWord), 2 ^ 127 ≤ d.toNat → joinWords u2 u1 < d →
    let qr := udivrem3by2Steps u2 u1 u0 d (reciprocal3by2 d)
    qr = udivrem3by2 u2 u1 u0 d ∧
    qr.1.toNat * d.toNat + qr.2.toNat = u2.toNat * 2 ^ 128 + u1.toNat * 2 ^ 64 + u0.toNat ∧ qr.2 < d

/-- `submul` (45_division.md R266): `value(x) - multiplier * value(y) = value(r) - borrow * 2^(64 len)`. -/
def Obligations.SubmulContract : Prop :=
  ∀ (x y : List Word) (multiplier : Word), x.length = y.length →
    let rb := submul x y multiplier 0
    rb.1.length = x.length ∧
    (value x : Int) - multiplier.toNat * value y = value rb.1 - rb.2.toNat * 2 ^ (64 * x.length)

/-- The divider circuit (45_division.md R261, R266 to R275): normalization, the two fast paths, Algorithm D with its overflow
branch and correction step, and denormalization give exactly quotient and remainder, at both widths. -/
def Obligations.DividerCircuitDivides : Prop :=
  ∀ (w : Width) (u v : Nat), u < 2 ^ w.bits → v < 2 ^ w.bits → v ≠ 0 →
    (divide w.words u v).q = u / v ∧ (divide w.words u v).r = u % v

/-- The paths of the modular units (46_modular.md R301, R302, R306): the generic path of `addmod` is the remainder of the sum,
and so is the fast path wherever its guard holds; the multiplier and the 512-bit divider give the remainder of the product. -/
def Obligations.ModularPathsAgree : Prop :=
  ∀ x y m : Nat, x < 2 ^ 256 → y < 2 ^ 256 → m < 2 ^ 256 → m ≠ 0 →
    addmodGeneric x y m = (x + y) % m ∧ (fastPathApplies x y m = true → addmodFast x y m = (x + y) % m) ∧
    mulmodByUnits x y m = x * y % m
end

