-- ==== Sys2Proof/Laws/State.lean ====
section
/-! SUPPORT. What each field of `State` is after each named update: true by `rfl`, so that no proof unfolds an update. -/

namespace Sys2Proof.Machine

/-! ## `State.setReg` -/

@[simp] theorem State.setReg_regs (s : State) (r : Reg) (v : Wide) : (s.setReg r v).regs = s.regs.set r v := rfl
@[simp] theorem State.setReg_written (s : State) (r : Reg) (v : Wide) : (s.setReg r v).written = s.written.set r true := rfl
@[simp] theorem State.setReg_carry (s : State) (r : Reg) (v : Wide) : (s.setReg r v).carry = s.carry := rfl
@[simp] theorem State.setReg_pc (s : State) (r : Reg) (v : Wide) : (s.setReg r v).pc = s.pc := rfl
@[simp] theorem State.setReg_runState (s : State) (r : Reg) (v : Wide) : (s.setReg r v).runState = s.runState := rfl
@[simp] theorem State.setReg_cause (s : State) (r : Reg) (v : Wide) : (s.setReg r v).cause = s.cause := rfl
@[simp] theorem State.setReg_fpc (s : State) (r : Reg) (v : Wide) : (s.setReg r v).fpc = s.fpc := rfl
@[simp] theorem State.setReg_entry (s : State) (r : Reg) (v : Wide) : (s.setReg r v).entry = s.entry := rfl
@[simp] theorem State.setReg_dmem (s : State) (r : Reg) (v : Wide) : (s.setReg r v).dmem = s.dmem := rfl
@[simp] theorem State.setReg_imem (s : State) (r : Reg) (v : Wide) : (s.setReg r v).imem = s.imem := rfl
@[simp] theorem State.setReg_hostTurns (s : State) (r : Reg) (v : Wide) : (s.setReg r v).hostTurns = s.hostTurns := rfl

/-! ## `State.writeResult` -/

@[simp] theorem State.writeResult_regs (s : State) (r : Reg) (v : Nat) : (s.writeResult r v).regs = s.regs.set r (BitVec.ofNat 512 v) := rfl
@[simp] theorem State.writeResult_written (s : State) (r : Reg) (v : Nat) : (s.writeResult r v).written = s.written.set r true := rfl
@[simp] theorem State.writeResult_carry (s : State) (r : Reg) (v : Nat) : (s.writeResult r v).carry = s.carry := rfl
@[simp] theorem State.writeResult_pc (s : State) (r : Reg) (v : Nat) : (s.writeResult r v).pc = s.pc := rfl
@[simp] theorem State.writeResult_runState (s : State) (r : Reg) (v : Nat) : (s.writeResult r v).runState = s.runState := rfl
@[simp] theorem State.writeResult_cause (s : State) (r : Reg) (v : Nat) : (s.writeResult r v).cause = s.cause := rfl
@[simp] theorem State.writeResult_fpc (s : State) (r : Reg) (v : Nat) : (s.writeResult r v).fpc = s.fpc := rfl
@[simp] theorem State.writeResult_entry (s : State) (r : Reg) (v : Nat) : (s.writeResult r v).entry = s.entry := rfl
@[simp] theorem State.writeResult_dmem (s : State) (r : Reg) (v : Nat) : (s.writeResult r v).dmem = s.dmem := rfl
@[simp] theorem State.writeResult_imem (s : State) (r : Reg) (v : Nat) : (s.writeResult r v).imem = s.imem := rfl
@[simp] theorem State.writeResult_hostTurns (s : State) (r : Reg) (v : Nat) : (s.writeResult r v).hostTurns = s.hostTurns := rfl

/-! ## `State.advance` -/

@[simp] theorem State.advance_regs (s : State) : (s.advance).regs = s.regs := rfl
@[simp] theorem State.advance_written (s : State) : (s.advance).written = s.written := rfl
@[simp] theorem State.advance_carry (s : State) : (s.advance).carry = s.carry := rfl
@[simp] theorem State.advance_pc (s : State) : (s.advance).pc = s.pc + 1 := rfl
@[simp] theorem State.advance_runState (s : State) : (s.advance).runState = s.runState := rfl
@[simp] theorem State.advance_cause (s : State) : (s.advance).cause = s.cause := rfl
@[simp] theorem State.advance_fpc (s : State) : (s.advance).fpc = s.fpc := rfl
@[simp] theorem State.advance_entry (s : State) : (s.advance).entry = s.entry := rfl
@[simp] theorem State.advance_dmem (s : State) : (s.advance).dmem = s.dmem := rfl
@[simp] theorem State.advance_imem (s : State) : (s.advance).imem = s.imem := rfl
@[simp] theorem State.advance_hostTurns (s : State) : (s.advance).hostTurns = s.hostTurns := rfl

/-! ## `State.takeFault` -/

@[simp] theorem State.takeFault_regs (s : State) (k : Cause) : (s.takeFault k).regs = s.regs := rfl
@[simp] theorem State.takeFault_written (s : State) (k : Cause) : (s.takeFault k).written = s.written := rfl
@[simp] theorem State.takeFault_carry (s : State) (k : Cause) : (s.takeFault k).carry = s.carry := rfl
@[simp] theorem State.takeFault_pc (s : State) (k : Cause) : (s.takeFault k).pc = s.pc := rfl
@[simp] theorem State.takeFault_runState (s : State) (k : Cause) : (s.takeFault k).runState = .faulted := rfl
@[simp] theorem State.takeFault_cause (s : State) (k : Cause) : (s.takeFault k).cause = k := rfl
@[simp] theorem State.takeFault_fpc (s : State) (k : Cause) : (s.takeFault k).fpc = s.pc := rfl
@[simp] theorem State.takeFault_entry (s : State) (k : Cause) : (s.takeFault k).entry = s.entry := rfl
@[simp] theorem State.takeFault_dmem (s : State) (k : Cause) : (s.takeFault k).dmem = s.dmem := rfl
@[simp] theorem State.takeFault_imem (s : State) (k : Cause) : (s.takeFault k).imem = s.imem := rfl
@[simp] theorem State.takeFault_hostTurns (s : State) (k : Cause) : (s.takeFault k).hostTurns = s.hostTurns := rfl

/-! ## `State.halt` -/

@[simp] theorem State.halt_regs (s : State) : (s.halt).regs = s.regs := rfl
@[simp] theorem State.halt_written (s : State) : (s.halt).written = s.written := rfl
@[simp] theorem State.halt_carry (s : State) : (s.halt).carry = s.carry := rfl
@[simp] theorem State.halt_pc (s : State) : (s.halt).pc = s.pc := rfl
@[simp] theorem State.halt_runState (s : State) : (s.halt).runState = .halted := rfl
@[simp] theorem State.halt_cause (s : State) : (s.halt).cause = s.cause := rfl
@[simp] theorem State.halt_fpc (s : State) : (s.halt).fpc = s.pc := rfl
@[simp] theorem State.halt_entry (s : State) : (s.halt).entry = s.entry := rfl
@[simp] theorem State.halt_dmem (s : State) : (s.halt).dmem = s.dmem := rfl
@[simp] theorem State.halt_imem (s : State) : (s.halt).imem = s.imem := rfl
@[simp] theorem State.halt_hostTurns (s : State) : (s.halt).hostTurns = s.hostTurns := rfl

/-! ## `State.start` -/

@[simp] theorem State.start_regs (s : State) : (s.start).regs = s.regs := rfl
@[simp] theorem State.start_written (s : State) : (s.start).written = s.written := rfl
@[simp] theorem State.start_carry (s : State) : (s.start).carry = false := rfl
@[simp] theorem State.start_pc (s : State) : (s.start).pc = s.entry := rfl
@[simp] theorem State.start_runState (s : State) : (s.start).runState = .running := rfl
@[simp] theorem State.start_cause (s : State) : (s.start).cause = .none := rfl
@[simp] theorem State.start_fpc (s : State) : (s.start).fpc = s.fpc := rfl
@[simp] theorem State.start_entry (s : State) : (s.start).entry = s.entry := rfl
@[simp] theorem State.start_dmem (s : State) : (s.start).dmem = s.dmem := rfl
@[simp] theorem State.start_imem (s : State) : (s.start).imem = s.imem := rfl
@[simp] theorem State.start_hostTurns (s : State) : (s.start).hostTurns = s.hostTurns := rfl

/-! ## The views `reg`, `isWritten`, `dmemByte`, `imemWord`, `operand` -/

@[simp] theorem State.reg_setReg_self (s : State) (r : Reg) (v : Wide) : (s.setReg r v).reg r = v := by
  simp [State.reg]

theorem State.reg_setReg_of_ne (s : State) (r q : Reg) (v : Wide) (h : q ≠ r) : (s.setReg r v).reg q = s.reg q := by
  have h' : (r : Nat) ≠ q := fun e => h (Fin.ext e.symm)
  simp [State.reg, Vector.getElem_set_ne, h']

@[simp] theorem State.isWritten_setReg_self (s : State) (r : Reg) (v : Wide) : (s.setReg r v).isWritten r = true := by
  simp [State.isWritten]

theorem State.isWritten_setReg_of_ne (s : State) (r q : Reg) (v : Wide) (h : q ≠ r) :
    (s.setReg r v).isWritten q = s.isWritten q := by
  have h' : (r : Nat) ≠ q := fun e => h (Fin.ext e.symm)
  simp [State.isWritten, Vector.getElem_set_ne, h']

@[simp] theorem State.reg_writeResult_self (s : State) (r : Reg) (v : Nat) :
    (s.writeResult r v).reg r = BitVec.ofNat 512 v := State.reg_setReg_self ..

theorem State.reg_writeResult_of_ne (s : State) (r q : Reg) (v : Nat) (h : q ≠ r) :
    (s.writeResult r v).reg q = s.reg q := State.reg_setReg_of_ne _ _ _ _ h

@[simp] theorem State.isWritten_writeResult_self (s : State) (r : Reg) (v : Nat) :
    (s.writeResult r v).isWritten r = true := State.isWritten_setReg_self ..

theorem State.isWritten_writeResult_of_ne (s : State) (r q : Reg) (v : Nat) (h : q ≠ r) :
    (s.writeResult r v).isWritten q = s.isWritten q := State.isWritten_setReg_of_ne _ _ _ _ h

@[simp] theorem State.setReg_dmemByte (s : State) (r : Reg) (v : Wide) (a : Nat) : (s.setReg r v).dmemByte a = s.dmemByte a := rfl
@[simp] theorem State.setReg_imemWord (s : State) (r : Reg) (v : Wide) (a : Nat) : (s.setReg r v).imemWord a = s.imemWord a := rfl
@[simp] theorem State.writeResult_dmemByte (s : State) (r : Reg) (v : Nat) (a : Nat) : (s.writeResult r v).dmemByte a = s.dmemByte a := rfl
@[simp] theorem State.writeResult_imemWord (s : State) (r : Reg) (v : Nat) (a : Nat) : (s.writeResult r v).imemWord a = s.imemWord a := rfl
@[simp] theorem State.advance_reg (s : State) (q : Reg) : (s.advance).reg q = s.reg q := rfl
@[simp] theorem State.advance_isWritten (s : State) (q : Reg) : (s.advance).isWritten q = s.isWritten q := rfl
@[simp] theorem State.advance_dmemByte (s : State) (a : Nat) : (s.advance).dmemByte a = s.dmemByte a := rfl
@[simp] theorem State.advance_imemWord (s : State) (a : Nat) : (s.advance).imemWord a = s.imemWord a := rfl
@[simp] theorem State.advance_operand (s : State) (w : Width) (q : Reg) : (s.advance).operand w q = s.operand w q := rfl
@[simp] theorem State.takeFault_reg (s : State) (k : Cause) (q : Reg) : (s.takeFault k).reg q = s.reg q := rfl
@[simp] theorem State.takeFault_isWritten (s : State) (k : Cause) (q : Reg) : (s.takeFault k).isWritten q = s.isWritten q := rfl
@[simp] theorem State.takeFault_dmemByte (s : State) (k : Cause) (a : Nat) : (s.takeFault k).dmemByte a = s.dmemByte a := rfl
@[simp] theorem State.takeFault_imemWord (s : State) (k : Cause) (a : Nat) : (s.takeFault k).imemWord a = s.imemWord a := rfl
@[simp] theorem State.takeFault_operand (s : State) (k : Cause) (w : Width) (q : Reg) : (s.takeFault k).operand w q = s.operand w q := rfl
@[simp] theorem State.halt_reg (s : State) (q : Reg) : (s.halt).reg q = s.reg q := rfl
@[simp] theorem State.halt_isWritten (s : State) (q : Reg) : (s.halt).isWritten q = s.isWritten q := rfl
@[simp] theorem State.halt_dmemByte (s : State) (a : Nat) : (s.halt).dmemByte a = s.dmemByte a := rfl
@[simp] theorem State.halt_imemWord (s : State) (a : Nat) : (s.halt).imemWord a = s.imemWord a := rfl
@[simp] theorem State.halt_operand (s : State) (w : Width) (q : Reg) : (s.halt).operand w q = s.operand w q := rfl
@[simp] theorem State.start_reg (s : State) (q : Reg) : (s.start).reg q = s.reg q := rfl
@[simp] theorem State.start_isWritten (s : State) (q : Reg) : (s.start).isWritten q = s.isWritten q := rfl
@[simp] theorem State.start_dmemByte (s : State) (a : Nat) : (s.start).dmemByte a = s.dmemByte a := rfl
@[simp] theorem State.start_imemWord (s : State) (a : Nat) : (s.start).imemWord a = s.imemWord a := rfl
@[simp] theorem State.start_operand (s : State) (w : Width) (q : Reg) : (s.start).operand w q = s.operand w q := rfl

/-! ## Reset -/

@[simp] theorem State.reset_reg (r : Reg) : State.reset.reg r = Config.resetRegister := by
  simp [State.reg, State.reset]

@[simp] theorem State.reset_isWritten (r : Reg) : State.reset.isWritten r = false := by
  simp [State.isWritten, State.reset]

end Sys2Proof.Machine
end

