-- ==== Sys2Proof/Laws/Operands.lean ====
section
/-! SUPPORT. Widths, operands, bit fields and byte images: the bounds and the values they stand for. -/

namespace Sys2Proof

/-! ## Widths -/

theorem Width.bits_eq_bytes (w : Width) : w.bits = 8 * w.bytes := by cases w <;> rfl

theorem Width.bits_eq_words (w : Width) : w.bits = 64 * w.words := by cases w <;> rfl

theorem Width.bits_eq_half (w : Width) : w.bits = w.half + w.half := by cases w <;> rfl

theorem Width.bits_eq_levels (w : Width) : w.bits = 64 * 2 ^ w.levels := by cases w <;> rfl

theorem Width.bits_le (w : Width) : w.bits ≤ 512 := by cases w <;> simp [Width.bits]

theorem Width.bits_pos (w : Width) : 0 < w.bits := by cases w <;> simp [Width.bits]

theorem Width.two_pow_pos (w : Width) : 0 < 2 ^ w.bits := Nat.two_pow_pos _

end Sys2Proof

namespace Sys2Proof.Machine

/-! ## Bit fields -/

theorem trunc_lt (k v : Nat) : trunc k v < 2 ^ k := Nat.mod_lt _ (Nat.two_pow_pos k)

theorem trunc_of_lt {k v : Nat} (h : v < 2 ^ k) : trunc k v = v := Nat.mod_eq_of_lt h

theorem bitsAt_lt (v lo n : Nat) : bitsAt v lo n < 2 ^ n := Nat.mod_lt _ (Nat.two_pow_pos n)

theorem bitsAt_zero (v n : Nat) : bitsAt v 0 n = v % 2 ^ n := by simp [bitsAt]

/-- A value of two halves is its high half above its low half. -/
theorem bitsAt_halves {h v : Nat} (hv : v < 2 ^ (h + h)) : v = bitsAt v h h * 2 ^ h + bitsAt v 0 h := by
  have hlt : v / 2 ^ h < 2 ^ h := by
    rw [Nat.div_lt_iff_lt_mul (Nat.two_pow_pos h), ← Nat.pow_add]; exact hv
  rw [bitsAt_zero, bitsAt, Nat.mod_eq_of_lt hlt]
  exact (Nat.div_add_mod' v (2 ^ h)).symm

/-! ## Operands and results -/

theorem State.operand_lt (s : State) (w : Width) (r : Reg) : s.operand w r < 2 ^ w.bits := trunc_lt _ _

theorem State.operand_w512 (s : State) (r : Reg) : s.operand .w512 r = (s.reg r).toNat :=
  Nat.mod_eq_of_lt (s.reg r).isLt

/-- A result that fits in 512 bits is what the destination register holds afterwards. -/
theorem State.toNat_reg_writeResult (s : State) (rd : Reg) (v : Nat) (h : v < 2 ^ 512) :
    ((s.writeResult rd v).reg rd).toNat = v := by
  rw [State.reg_writeResult_self, BitVec.toNat_ofNat, Nat.mod_eq_of_lt h]

theorem lt_wide {w : Width} {v : Nat} (h : v < 2 ^ w.bits) : v < 2 ^ 512 :=
  Nat.lt_of_lt_of_le h (Nat.pow_le_pow_right (by decide) w.bits_le)

/-! ## Byte images -/

@[simp] theorem length_leImage (n v : Nat) : (leImage n v).length = n := by simp [leImage]

@[simp] theorem length_beImage (n v : Nat) : (beImage n v).length = n := by simp [beImage]

theorem getElem?_leImage (n v k : Nat) (h : k < n) : (leImage n v)[k]? = some (BitVec.ofNat 8 (v / 2 ^ (8 * k))) := by
  simp [leImage, h]

theorem getElem?_beImage (n v k : Nat) (h : k < n) :
    (beImage n v)[k]? = some (BitVec.ofNat 8 (v / 2 ^ (8 * (n - 1 - k)))) := by
  simp [beImage, h]

/-- "BE is its full byte reversal" (20_memory.md R73). -/
theorem beImage_eq_reverse (n v : Nat) : beImage n v = (leImage n v).reverse := by
  apply List.ext_getElem (by simp)
  intro k h1 h2
  simp [beImage, leImage]

theorem leImage_succ (n v : Nat) : leImage (n + 1) v = BitVec.ofNat 8 v :: leImage n (v / 2 ^ 8) := by
  simp only [leImage, List.range_succ_eq_map, List.map_cons, List.map_map, List.cons.injEq]
  refine ⟨by simp, List.map_congr_left fun k _ => ?_⟩
  simp only [Function.comp_apply, Nat.succ_eq_add_one]
  rw [Nat.div_div_eq_div_mul, ← Nat.pow_add, show 8 * (k + 1) = 8 + 8 * k by omega]

theorem ofLe_lt (bs : List Byte) : ofLe bs < 2 ^ (8 * bs.length) := by
  induction bs with
  | nil => simp [ofLe]
  | cons b bs ih =>
    have := b.isLt
    simp only [ofLe, List.length_cons, show 8 * (bs.length + 1) = 8 + 8 * bs.length by omega, Nat.pow_add]
    omega

theorem ofBe_lt (bs : List Byte) : ofBe bs < 2 ^ (8 * bs.length) := by
  simpa [ofBe] using ofLe_lt bs.reverse

/-- Reading back a little-endian image gives the low `n` bytes of the value. -/
theorem ofLe_leImage (n v : Nat) : ofLe (leImage n v) = v % 2 ^ (8 * n) := by
  induction n generalizing v with
  | zero => simp [leImage, ofLe, Nat.mod_one]
  | succ n ih =>
    rw [leImage_succ, ofLe, ih, BitVec.toNat_ofNat, show 8 * (n + 1) = 8 + 8 * n by omega, Nat.pow_add, Nat.mod_mul]

/-- Reading back a big-endian image gives the low `n` bytes of the value. -/
theorem ofBe_beImage (n v : Nat) : ofBe (beImage n v) = v % 2 ^ (8 * n) := by
  rw [ofBe, beImage_eq_reverse, List.reverse_reverse, ofLe_leImage]

/-- The little-endian image of the value of a list of bytes is that list. -/
theorem leImage_ofLe (bs : List Byte) : leImage bs.length (ofLe bs) = bs := by
  induction bs with
  | nil => rfl
  | cons b bs ih =>
    have hb := b.isLt
    have h1 : ofLe (b :: bs) / 2 ^ 8 = ofLe bs := by simp only [ofLe]; omega
    have h2 : BitVec.ofNat 8 (ofLe (b :: bs)) = b := by
      apply BitVec.eq_of_toNat_eq
      simp only [ofLe, BitVec.toNat_ofNat]; omega
    rw [List.length_cons, leImage_succ, h1, h2, ih]

theorem byteSwap_lt (w : Width) (a : Nat) : byteSwap w a < 2 ^ w.bits := by
  rw [Width.bits_eq_bytes]; simpa [byteSwap] using ofLe_lt (beImage w.bytes a)

end Sys2Proof.Machine
end

