-- ==== Sys2Proof/Laws/Arithmetic.lean ====
section
/-! SUPPORT. One lemma for each arithmetic function of the commands, in the words of the spec's contracts. -/

namespace Sys2Proof.Machine

/-- The adder's contract `x + y + cin = cout * 2^N + sum` (42_additive.md R170). -/
theorem addWithCarry_spec (w : Width) (x y : Nat) (cin : Bool) (hx : x < 2 ^ w.bits) (hy : y < 2 ^ w.bits) :
    x + y + cin.toNat = (addWithCarry w x y cin).2.toNat * 2 ^ w.bits + (addWithCarry w x y cin).1 := by
  have hc : cin.toNat ≤ 1 := Bool.toNat_le cin
  simp only [addWithCarry, trunc]
  generalize hN : 2 ^ w.bits = N at *
  by_cases h : N ≤ x + y + cin.toNat
  · rw [Nat.mod_eq_sub_mod h, Nat.mod_eq_of_lt (by omega)]
    simp [h]
  · rw [Nat.mod_eq_of_lt (by omega)]
    simp [h]

/-- The subtracter's contract `x - y - bin = diff - borrow * 2^N` (42_additive.md R175), as a sum of natural numbers. -/
theorem subWithBorrow_spec (w : Width) (x y : Nat) (bin : Bool) (hx : x < 2 ^ w.bits) (hy : y < 2 ^ w.bits) :
    x + (subWithBorrow w x y bin).2.toNat * 2 ^ w.bits = (subWithBorrow w x y bin).1 + y + bin.toNat := by
  have hb : bin.toNat ≤ 1 := Bool.toNat_le bin
  simp only [subWithBorrow, trunc]
  generalize hN : 2 ^ w.bits = N at *
  by_cases h : x < y + bin.toNat
  · rw [Nat.mod_eq_of_lt (by omega)]
    simp [h]; omega
  · rw [Nat.mod_eq_sub_mod (by omega), Nat.mod_eq_of_lt (by omega)]
    simp [h]; omega

theorem addWithCarry_fst_lt (w : Width) (x y : Nat) (cin : Bool) : (addWithCarry w x y cin).1 < 2 ^ w.bits := trunc_lt _ _

theorem subWithBorrow_fst_lt (w : Width) (x y : Nat) (bin : Bool) : (subWithBorrow w x y bin).1 < 2 ^ w.bits :=
  trunc_lt _ _

@[simp] theorem borrowOf_eq (w : Width) (x y : Nat) : borrowOf w x y = decide (x < y) := by
  simp [borrowOf, subWithBorrow]

/-- `NEG a = trunc_N(2^N - a)` (42_additive.md R173). -/
theorem negate_eq (w : Width) (a : Nat) (h : a < 2 ^ w.bits) : negate w a = trunc w.bits (2 ^ w.bits - a) := by
  simp only [negate, addWithCarry, Nat.add_zero, Bool.toNat_true]
  congr 1
  omega

theorem negate_lt (w : Width) (a : Nat) : negate w a < 2 ^ w.bits := trunc_lt _ _

theorem negateIf_lt (c : Bool) (w : Width) (a : Nat) (h : a < 2 ^ w.bits) : negateIf c w a < 2 ^ w.bits := by
  cases c
  · exact h
  · exact negate_lt w a

theorem shiftLeft_lt (w : Width) (a d : Nat) : shiftLeft w a d < 2 ^ w.bits := by
  unfold shiftLeft
  split
  · exact w.two_pow_pos
  · exact trunc_lt _ _

theorem shiftRight_lt (w : Width) (a d : Nat) (h : a < 2 ^ w.bits) : shiftRight w a d < 2 ^ w.bits := by
  unfold shiftRight
  split
  · exact w.two_pow_pos
  · exact Nat.lt_of_le_of_lt (Nat.div_le_self _ _) h

/-- The square-and-multiply loop keeps `acc * b^e` modulo 2^N (44_multiply.md R241). -/
theorem powLoop_mod (n fuel acc b e : Nat) (he : e < 2 ^ fuel) :
    powLoop n fuel acc b e % 2 ^ n = acc * b ^ e % 2 ^ n := by
  induction fuel generalizing acc b e with
  | zero =>
    obtain rfl : e = 0 := by simpa using he
    simp [powLoop]
  | succ fuel ih =>
    rw [powLoop]
    split
    · rename_i h; simp [h]
    · have hhalf : e / 2 < 2 ^ fuel := by rw [Nat.pow_succ] at he; omega
      have hsq : trunc n (b * b) ^ (e / 2) ≡ (b * b) ^ (e / 2) [MOD 2 ^ n] := (Nat.mod_modEq _ _).pow _
      have he2 : e = 2 * (e / 2) + e % 2 := (Nat.div_add_mod e 2).symm
      rw [ih _ _ _ hhalf]
      rcases Nat.mod_two_eq_zero_or_one e with h | h
      · conv_rhs => rw [he2, h, Nat.add_zero, Nat.pow_mul, Nat.pow_two]
        simp only [h, Nat.zero_ne_one, if_false]
        exact hsq.mul_left acc
      · conv_rhs => rw [he2, h, Nat.pow_succ, Nat.pow_mul, Nat.pow_two]
        have hacc : trunc n (acc * b) ≡ acc * b [MOD 2 ^ n] := Nat.mod_modEq _ _
        simp only [h, if_true]
        rw [show acc * ((b * b) ^ (e / 2) * b) = acc * b * (b * b) ^ (e / 2) by ring]
        exact hacc.mul hsq

theorem powLoop_lt (n fuel acc b e : Nat) (h : acc < 2 ^ n) : powLoop n fuel acc b e < 2 ^ n := by
  induction fuel generalizing acc b e with
  | zero => exact h
  | succ fuel ih =>
    rw [powLoop]
    split
    · exact h
    · apply ih
      split
      · exact trunc_lt _ _
      · exact h

theorem power_lt (w : Width) (b e : Nat) : power w b e < 2 ^ w.bits :=
  powLoop_lt _ _ _ _ _ (Nat.one_lt_two_pow (Nat.pos_iff_ne_zero.1 w.bits_pos))

theorem fst_udivremValue_lt {u v n : Nat} (h : u < n) : (udivremValue u v).1 < n :=
  Nat.lt_of_le_of_lt (Nat.div_le_self _ _) h

theorem snd_udivremValue_lt {u v n : Nat} (h : u < n) : (udivremValue u v).2 < n :=
  Nat.lt_of_le_of_lt (Nat.mod_le _ _) h

theorem sdivremValue_lt (w : Width) (u v : Nat) (hu : u < 2 ^ w.bits) :
    (sdivremValue w u v).1 < 2 ^ w.bits ∧ (sdivremValue w u v).2 < 2 ^ w.bits := by
  have h := negateIf_lt (isNegative w u) w u hu
  exact ⟨negateIf_lt _ _ _ (fst_udivremValue_lt h), negateIf_lt _ _ _ (snd_udivremValue_lt h)⟩

end Sys2Proof.Machine
end

