-- ==== Sys2Proof/Laws/Decode.lean ====
section
/-! SUPPORT. The fields of the words the encoder builds (30_encoding.md R101 to R105): every field reads back, and the reserved
bits read 0. -/

namespace Sys2Proof

theorem Width.bit_le (w : Width) : w.bit ≤ 1 := by cases w <;> simp [Width.bit]

theorem Width.of_bit (w : Width) : (if w.bit = 0 then Width.w256 else .w512) = w := by cases w <;> rfl

section
variable {op rd rs1 rs2 rs3 imm16 len addr : Nat} (w : Width)

theorem toNat_encodeR (ho : op < 64) (h0 : rd < 16) (h1 : rs1 < 16) (h2 : rs2 < 16) (h3 : rs3 < 16) :
    (encodeR op w rd rs1 rs2 rs3).toNat =
      op + w.bit * 2 ^ 6 + rd * 2 ^ 8 + rs1 * 2 ^ 12 + rs2 * 2 ^ 16 + rs3 * 2 ^ 20 := by
  have := w.bit_le
  rw [encodeR, BitVec.toNat_ofNat]
  omega

theorem toNat_encodeI (ho : op < 64) (h0 : rd < 16) (h1 : imm16 < 2 ^ 16) :
    (encodeI op w rd imm16).toNat = op + w.bit * 2 ^ 6 + rd * 2 ^ 8 + imm16 * 2 ^ 16 := by
  have := w.bit_le
  rw [encodeI, BitVec.toNat_ofNat]
  omega

theorem toNat_encodeM (ho : op < 64) (h0 : rd < 16) (h1 : len < 2 ^ 6) (h2 : addr < 2 ^ 14) :
    (encodeM op w rd len addr).toNat = op + w.bit * 2 ^ 6 + rd * 2 ^ 8 + len * 2 ^ 12 + addr * 2 ^ 18 := by
  have := w.bit_le
  rw [encodeM, BitVec.toNat_ofNat]
  omega

/-- The fields of a Format R word. -/
theorem fields_encodeR (ho : op < 64) (h0 : rd < 16) (h1 : rs1 < 16) (h2 : rs2 < 16) (h3 : rs3 < 16) :
    let n := (encodeR op w rd rs1 rs2 rs3).toNat
    field n 0 6 = op ∧ field n 6 1 = w.bit ∧ field n 7 1 = 0 ∧ field n 8 4 = rd ∧ field n 12 4 = rs1 ∧
      field n 16 4 = rs2 ∧ field n 20 4 = rs3 ∧ field n 24 8 = 0 := by
  have := w.bit_le
  simp only [toNat_encodeR w ho h0 h1 h2 h3, field]
  omega

/-- The fields of a Format I word. -/
theorem fields_encodeI (ho : op < 64) (h0 : rd < 16) (h1 : imm16 < 2 ^ 16) :
    let n := (encodeI op w rd imm16).toNat
    field n 0 6 = op ∧ field n 6 1 = w.bit ∧ field n 7 1 = 0 ∧ field n 8 4 = rd ∧ field n 12 4 = 0 ∧
      field n 16 16 = imm16 := by
  have := w.bit_le
  simp only [toNat_encodeI w ho h0 h1, field]
  omega

/-- The fields of a Format M word. -/
theorem fields_encodeM (ho : op < 64) (h0 : rd < 16) (h1 : len < 2 ^ 6) (h2 : addr < 2 ^ 14) :
    let n := (encodeM op w rd len addr).toNat
    field n 0 6 = op ∧ field n 6 1 = w.bit ∧ field n 7 1 = 0 ∧ field n 8 4 = rd ∧ field n 12 6 = len ∧
      field n 18 14 = addr := by
  have := w.bit_le
  simp only [toNat_encodeM w ho h0 h1 h2, field]
  omega

end

/-- A register field that holds the index of `r` names `r`. -/
theorem regField_of_eq {n lo : Nat} (r : Reg) (h : field n lo 4 = r) : regField n lo = r := by
  rw [regField, h]
  exact Fin.ext (Nat.mod_eq_of_lt r.isLt)

theorem widthField_of_eq {n : Nat} (w : Width) (h : field n 6 1 = w.bit) : widthField n = w := by
  rw [widthField, h, Width.of_bit]

end Sys2Proof
end

