-- ==== Sys2Proof/Laws/Memory.lean ====
section
/-! SUPPORT. The laws of the sparse memory: read after write, frames of a write and of a range, and that every memory operation
keeps the canonical form. -/

namespace Sys2Proof.Machine

variable {α : Type}

@[simp] theorem Memory.read_nil (a : Nat) : Memory.read ([] : List (Nat × α)) a = none := rfl

@[simp] theorem Memory.read_write_self (m : List (Nat × α)) (a : Nat) (v : α) :
    Memory.read (Memory.write m a v) a = some v := by
  induction m with
  | nil => simp [Memory.write, Memory.read]
  | cons c m ih =>
    obtain ⟨k, u⟩ := c
    simp only [Memory.write]
    split
    · simp [Memory.read]
    · split
      · simp [Memory.read]
      · rename_i h
        have hk : k ≠ a := fun e => h e.symm
        simp [Memory.read, hk, ih]

theorem Memory.read_write_of_ne (m : List (Nat × α)) (a b : Nat) (v : α) (h : b ≠ a) :
    Memory.read (Memory.write m a v) b = Memory.read m b := by
  induction m with
  | nil => simp [Memory.write, Memory.read, h.symm]
  | cons c m ih =>
    obtain ⟨k, u⟩ := c
    simp only [Memory.write]
    split
    · simp [Memory.read, h.symm]
    · split
      · rename_i h2
        subst h2
        simp [Memory.read, h.symm]
      · simp [Memory.read, ih]

theorem Memory.read_writeRange_outside (bs : List α) (m : List (Nat × α)) (a b : Nat)
    (h : b < a ∨ a + bs.length ≤ b) : Memory.read (Memory.writeRange m a bs) b = Memory.read m b := by
  induction bs generalizing m a with
  | nil => rfl
  | cons v bs ih =>
    simp only [List.length_cons] at h
    rw [Memory.writeRange, ih _ _ (by omega), Memory.read_write_of_ne _ _ _ _ (by omega)]

theorem Memory.read_writeRange_inside (bs : List α) (m : List (Nat × α)) (a k : Nat) (h : k < bs.length) :
    Memory.read (Memory.writeRange m a bs) (a + k) = bs[k]? := by
  induction bs generalizing m a k with
  | nil => simp at h
  | cons v bs ih =>
    rw [Memory.writeRange]
    cases k with
    | zero => rw [Memory.read_writeRange_outside _ _ _ _ (by omega)]; simp
    | succ k =>
      rw [show a + (k + 1) = (a + 1) + k by omega, ih _ _ _ (by simpa using h)]
      simp

/-! ## Ranges -/

theorem Memory.readRange_congr (m m' : List (Nat × α)) (n a : Nat)
    (h : ∀ k, k < n → Memory.read m' (a + k) = Memory.read m (a + k)) :
    Memory.readRange m' a n = Memory.readRange m a n := by
  induction n generalizing a with
  | zero => rfl
  | succ n ih =>
    have h0 : Memory.read m' a = Memory.read m a := h 0 (by omega)
    have h1 := ih (a + 1) fun k hk => by
      have := h (k + 1) (by omega)
      rwa [show a + (k + 1) = a + 1 + k by omega] at this
    simp only [Memory.readRange, h0, h1]

/-- A range reads as `bs` exactly when it has the length of `bs` and each of its cells holds that of `bs`. -/
theorem Memory.readRange_eq_ok (m : List (Nat × α)) (n a : Nat) (bs : List α) :
    Memory.readRange m a n = .ok bs ↔
      bs.length = n ∧ ∀ k, k < n → Memory.read m (a + k) = bs[k]? := by
  induction n generalizing a bs with
  | zero => simp [Memory.readRange, eq_comm]
  | succ n ih =>
    simp only [Memory.readRange]
    cases h0 : Memory.read m a with
    | none =>
      simp only [reduceCtorEq, false_iff, not_and]
      intro hl h
      have := h 0 (by omega)
      cases bs <;> simp_all
    | some v =>
      cases h1 : Memory.readRange m (a + 1) n with
      | error b =>
        simp only [reduceCtorEq, false_iff, not_and]
        intro hl h
        cases bs with
        | nil => simp at hl
        | cons x xs =>
          have : Memory.readRange m (a + 1) n = .ok xs := (ih (a + 1) xs).2
            ⟨by simpa using hl, fun k hk => by
              have := h (k + 1) (by omega)
              rw [show a + 1 + k = a + (k + 1) by omega, this]; simp⟩
          simp [h1] at this
      | ok vs =>
        have hv := (ih (a + 1) vs).1 h1
        constructor
        · intro e
          cases e
          refine ⟨by simp [hv.1], fun k hk => ?_⟩
          cases k with
          | zero => simpa using h0
          | succ k =>
            rw [show a + (k + 1) = a + 1 + k by omega, hv.2 k (by omega)]; simp
        · rintro ⟨hl, h⟩
          cases bs with
          | nil => simp at hl
          | cons x xs =>
            have e0 := h 0 (by omega)
            simp only [Nat.add_zero, h0, List.getElem?_cons_zero, Option.some.injEq] at e0
            have : Memory.readRange m (a + 1) n = .ok xs := (ih (a + 1) xs).2
              ⟨by simpa using hl, fun k hk => by
                have := h (k + 1) (by omega)
                rw [show a + 1 + k = a + (k + 1) by omega, this]; simp⟩
            rw [h1] at this
            cases this
            rw [e0]

/-- A range does not read exactly when some cell of it is unwritten; the error names the first such cell. -/
theorem Memory.readRange_eq_error (m : List (Nat × α)) (n a b : Nat) :
    Memory.readRange m a n = .error b ↔
      a ≤ b ∧ b < a + n ∧ Memory.read m b = none ∧ ∀ c, a ≤ c → c < b → Memory.read m c ≠ none := by
  induction n generalizing a with
  | zero => simp [Memory.readRange]; omega
  | succ n ih =>
    simp only [Memory.readRange]
    cases h0 : Memory.read m a with
    | none =>
      simp only [Except.error.injEq]
      constructor
      · rintro rfl
        exact ⟨by omega, by omega, h0, fun c h1 h2 => by omega⟩
      · rintro ⟨h1, _, _, h3⟩
        by_contra hne
        exact h3 a (by omega) (by omega) h0
    | some v =>
      have key : Memory.readRange m (a + 1) n = .error b ↔
          a ≤ b ∧ b < a + (n + 1) ∧ Memory.read m b = none ∧ ∀ c, a ≤ c → c < b → Memory.read m c ≠ none := by
        rw [ih]
        constructor
        · rintro ⟨h1, h2, h3, h4⟩
          refine ⟨by omega, by omega, h3, fun c hc hc' => ?_⟩
          by_cases e : c = a
          · subst e; simp [h0]
          · exact h4 c (by omega) hc'
        · rintro ⟨h1, h2, h3, h4⟩
          have : b ≠ a := by rintro rfl; simp [h0] at h3
          exact ⟨by omega, by omega, h3, fun c hc hc' => h4 c (by omega) hc'⟩
      cases h1 : Memory.readRange m (a + 1) n with
      | error b' => rw [← key, h1]
      | ok vs =>
        rw [h1] at key
        rw [← key]
        simp

/-! ## The canonical form -/

theorem Memory.wf_cons (size k : Nat) (u : α) (m : List (Nat × α)) :
    Memory.wf size ((k, u) :: m) = true ↔ k < size ∧ (∀ c, c ∈ m → k < c.1) ∧ Memory.wf size m = true := by
  simp [Memory.wf, and_assoc]

theorem Memory.mem_write (m : List (Nat × α)) (a : Nat) (v : α) (c : Nat × α) (h : c ∈ Memory.write m a v) :
    c = (a, v) ∨ c ∈ m := by
  induction m with
  | nil => simpa [Memory.write] using h
  | cons d m ih =>
    obtain ⟨k, u⟩ := d
    simp only [Memory.write] at h
    split at h
    · simpa using h
    · split at h
      · simp only [List.mem_cons] at h ⊢; tauto
      · simp only [List.mem_cons] at h ⊢
        rcases h with h | h
        · tauto
        · rcases ih h with h | h <;> tauto

theorem Memory.wf_write (size : Nat) (m : List (Nat × α)) (a : Nat) (v : α) (ha : a < size)
    (h : Memory.wf size m = true) : Memory.wf size (Memory.write m a v) = true := by
  induction m with
  | nil => simp [Memory.write, Memory.wf, ha]
  | cons c m ih =>
    obtain ⟨k, u⟩ := c
    have h' := (Memory.wf_cons size k u m).1 h
    simp only [Memory.write]
    split
    · rename_i hlt
      refine (Memory.wf_cons _ _ _ _).2 ⟨ha, fun c hc => ?_, h⟩
      rcases List.mem_cons.1 hc with rfl | hc
      · exact hlt
      · exact Nat.lt_trans hlt (h'.2.1 c hc)
    · split
      · rename_i e
        subst e
        exact (Memory.wf_cons _ _ _ _).2 ⟨ha, h'.2.1, h'.2.2⟩
      · refine (Memory.wf_cons _ _ _ _).2 ⟨h'.1, fun c hc => ?_, ih h'.2.2⟩
        rcases Memory.mem_write _ _ _ _ hc with rfl | hc
        · simp only; omega
        · exact h'.2.1 c hc

theorem Memory.wf_writeRange (size : Nat) (bs : List α) (m : List (Nat × α)) (a : Nat) (ha : a + bs.length ≤ size)
    (h : Memory.wf size m = true) : Memory.wf size (Memory.writeRange m a bs) = true := by
  induction bs generalizing m a with
  | nil => exact h
  | cons v bs ih =>
    simp only [List.length_cons] at ha
    exact ih _ _ (by omega) (Memory.wf_write _ _ _ _ (by omega) h)

/-- In canonical form nothing is listed outside the memory's addresses. -/
theorem Memory.read_of_size_le (size : Nat) (m : List (Nat × α)) (a : Nat) (h : Memory.wf size m = true)
    (ha : size ≤ a) : Memory.read m a = none := by
  induction m with
  | nil => rfl
  | cons c m ih =>
    obtain ⟨k, u⟩ := c
    have h' := (Memory.wf_cons size k u m).1 h
    have : k ≠ a := by omega
    simp [Memory.read, this, ih h'.2.2]

/-- Two memories in canonical form that read alike everywhere are the same list. -/
theorem Memory.eq_of_read_eq (size : Nat) (m m' : List (Nat × α)) (h : Memory.wf size m = true)
    (h' : Memory.wf size m' = true) (e : ∀ a, Memory.read m a = Memory.read m' a) : m = m' := by
  have below : ∀ (n : List (Nat × α)) (k a : Nat), (∀ c, c ∈ n → k < c.1) → a ≤ k → Memory.read n a = none := by
    intro n k a hn ha
    induction n with
    | nil => rfl
    | cons d n ih =>
      have hd := hn d List.mem_cons_self
      have hne : d.1 ≠ a := by omega
      obtain ⟨q, x⟩ := d
      simp only at hne
      simp [Memory.read, hne, ih fun c hc => hn c (List.mem_cons_of_mem _ hc)]
  induction m generalizing m' with
  | nil =>
    cases m' with
    | nil => rfl
    | cons d m' => have := e d.1; simp [Memory.read] at this
  | cons c m ih =>
    cases m' with
    | nil => have := e c.1; simp [Memory.read] at this
    | cons d m' =>
      obtain ⟨k, u⟩ := c
      obtain ⟨q, x⟩ := d
      have hw := (Memory.wf_cons size k u m).1 h
      have hw' := (Memory.wf_cons size q x m').1 h'
      have hk : k = q := by
        rcases Nat.lt_trichotomy k q with hlt | heq | hlt
        · have := e k
          have hne : q ≠ k := by omega
          simp [Memory.read, hne, below m' q k hw'.2.1 (by omega)] at this
        · exact heq
        · have := e q
          have hne : k ≠ q := by omega
          simp [Memory.read, hne, below m k q hw.2.1 (by omega)] at this
      subst hk
      have hu : u = x := by simpa [Memory.read] using e k
      subst hu
      have : m = m' := ih m' hw.2.2 hw'.2.2 fun a => by
        by_cases ha : k = a
        · subst ha
          rw [below m k k hw.2.1 (by omega), below m' k k hw'.2.1 (by omega)]
        · simpa [Memory.read, ha] using e a
      rw [this]

end Sys2Proof.Machine
end

