-- ==== Sys2Proof/Laws/PerInstr.lean ====
section
/-! SUPPORT. Every encoded command has the fixed bits of its row of spec/opcode_table.json: one lemma per constructor. -/

namespace Sys2Proof.Laws

/-- The fixed bits of the instruction's row of spec/opcode_table.json: low bit, number of bits, value. -/
def fixedBits : Instr → List (Nat × Nat × Nat)
  | .nop => [(0, 32, 1)]
  | .halt => [(0, 32, 2)]
  | .li _ _ _ => [(0, 6, 4), (7, 1, 0), (12, 4, 0)]
  | .mov _ _ _ => [(0, 6, 5), (7, 1, 0), (16, 16, 0)]
  | .pair _ _ _ _ => [(0, 6, 6), (7, 1, 0), (20, 12, 0)]
  | .and _ _ _ _ => [(0, 6, 8), (7, 1, 0), (20, 12, 0)]
  | .or _ _ _ _ => [(0, 6, 9), (7, 1, 0), (20, 12, 0)]
  | .xor _ _ _ _ => [(0, 6, 10), (7, 1, 0), (20, 12, 0)]
  | .not _ _ _ => [(0, 6, 11), (7, 1, 0), (16, 16, 0)]
  | .shl _ _ _ _ => [(0, 6, 12), (7, 1, 0), (20, 12, 0)]
  | .shr _ _ _ _ => [(0, 6, 13), (7, 1, 0), (20, 12, 0)]
  | .add _ _ _ _ => [(0, 6, 16), (7, 1, 0), (20, 12, 0)]
  | .adc _ _ _ _ => [(0, 6, 17), (7, 1, 0), (20, 12, 0)]
  | .sub _ _ _ _ => [(0, 6, 18), (7, 1, 0), (20, 12, 0)]
  | .sbb _ _ _ _ => [(0, 6, 19), (7, 1, 0), (20, 12, 0)]
  | .neg _ _ _ => [(0, 6, 20), (7, 1, 0), (16, 16, 0)]
  | .eq _ _ _ _ => [(0, 6, 24), (7, 1, 0), (20, 12, 0)]
  | .lt _ _ _ _ => [(0, 6, 25), (7, 1, 0), (20, 12, 0)]
  | .gt _ _ _ _ => [(0, 6, 26), (7, 1, 0), (20, 12, 0)]
  | .le _ _ _ _ => [(0, 6, 27), (7, 1, 0), (20, 12, 0)]
  | .ge _ _ _ _ => [(0, 6, 28), (7, 1, 0), (20, 12, 0)]
  | .mul _ _ _ _ => [(0, 6, 32), (7, 1, 0), (20, 12, 0)]
  | .umul _ _ _ _ _ => [(0, 6, 33), (7, 1, 0), (24, 8, 0)]
  | .sqr _ _ _ => [(0, 6, 34), (7, 1, 0), (16, 16, 0)]
  | .exp _ _ _ _ => [(0, 6, 35), (7, 1, 0), (20, 12, 0)]
  | .udivrem _ _ _ _ _ => [(0, 6, 40), (7, 1, 0), (24, 8, 0)]
  | .udiv _ _ _ _ => [(0, 6, 41), (7, 1, 0), (20, 12, 0)]
  | .urem _ _ _ _ => [(0, 6, 42), (7, 1, 0), (20, 12, 0)]
  | .sdivrem _ _ _ _ _ => [(0, 6, 43), (7, 1, 0), (24, 8, 0)]
  | .addmod _ _ _ _ => [(0, 8, 48), (24, 8, 0)]
  | .mulmod _ _ _ _ => [(0, 8, 49), (24, 8, 0)]
  | .ldle _ _ _ => [(0, 6, 56), (7, 1, 0), (12, 6, 0)]
  | .stle _ _ _ => [(0, 6, 57), (7, 1, 0), (12, 6, 0)]
  | .ldbe _ _ _ _ => [(0, 6, 58), (7, 1, 0)]
  | .stbe _ _ _ => [(0, 6, 59), (7, 1, 0), (12, 6, 0)]
  | .truncbe _ _ _ _ => [(0, 6, 60), (7, 1, 0)]
  | .bswap _ _ _ => [(0, 6, 61), (7, 1, 0), (16, 16, 0)]

/-- The encoded instruction has, in each fixed field of its row, the value the row gives. -/
def TableRow.Statement (i : Instr) : Prop :=
  ∀ f, f ∈ fixedBits i → field (encode i).toNat f.1 f.2.1 = f.2.2

/-- Format R: the fixed fields of a row follow from the fields of the word. -/
theorem fixed_of_encodeR {op rd rs1 rs2 rs3 : Nat} (w : Width) (ho : op < 64) (h0 : rd < 16) (h1 : rs1 < 16)
    (h2 : rs2 < 16) (h3 : rs3 < 16) :
    let n := (encodeR op w rd rs1 rs2 rs3).toNat
    field n 0 6 = op ∧ field n 7 1 = 0 ∧ field n 24 8 = 0 ∧ (rs3 = 0 → field n 20 12 = 0) ∧
      (rs2 = 0 → rs3 = 0 → field n 16 16 = 0) ∧ (w = .w256 → field n 0 8 = op) := by
  have := w.bit_le
  simp only [toNat_encodeR w ho h0 h1 h2 h3, field]
  refine ⟨by omega, by omega, by omega, by omega, by omega, ?_⟩
  rintro rfl
  simp only [Width.bit]
  omega

theorem TableRow.nop : TableRow.Statement .nop := by
  simp [TableRow.Statement, fixedBits, encode, field]

theorem TableRow.halt : TableRow.Statement .halt := by
  simp [TableRow.Statement, fixedBits, encode, field]

theorem TableRow.li (w : Width) (rd : Reg) (imm16 : BitVec 16) : TableRow.Statement (.li w rd imm16) := by
  have h := fields_encodeI (op := 0x04) w (by decide) rd.isLt imm16.isLt
  simp only at h
  simp [TableRow.Statement, fixedBits, encode, h]

theorem TableRow.mov (w : Width) (rd rs1 : Reg) : TableRow.Statement (.mov w rd rs1) := by
  have h := fixed_of_encodeR (op := 0x05) w (by decide) rd.isLt rs1.isLt (by decide : 0 < 16) (by decide : 0 < 16)
  simp only at h
  simp [TableRow.Statement, fixedBits, encode, h]

theorem TableRow.pair (w : Width) (rd rs1 rs2 : Reg) : TableRow.Statement (.pair w rd rs1 rs2) := by
  have h := fixed_of_encodeR (op := 0x06) w (by decide) rd.isLt rs1.isLt rs2.isLt (by decide : 0 < 16)
  simp only at h
  simp [TableRow.Statement, fixedBits, encode, h]

theorem TableRow.and (w : Width) (rd rs1 rs2 : Reg) : TableRow.Statement (.and w rd rs1 rs2) := by
  have h := fixed_of_encodeR (op := 0x08) w (by decide) rd.isLt rs1.isLt rs2.isLt (by decide : 0 < 16)
  simp only at h
  simp [TableRow.Statement, fixedBits, encode, h]

theorem TableRow.or (w : Width) (rd rs1 rs2 : Reg) : TableRow.Statement (.or w rd rs1 rs2) := by
  have h := fixed_of_encodeR (op := 0x09) w (by decide) rd.isLt rs1.isLt rs2.isLt (by decide : 0 < 16)
  simp only at h
  simp [TableRow.Statement, fixedBits, encode, h]

theorem TableRow.xor (w : Width) (rd rs1 rs2 : Reg) : TableRow.Statement (.xor w rd rs1 rs2) := by
  have h := fixed_of_encodeR (op := 0x0A) w (by decide) rd.isLt rs1.isLt rs2.isLt (by decide : 0 < 16)
  simp only at h
  simp [TableRow.Statement, fixedBits, encode, h]

theorem TableRow.not (w : Width) (rd rs1 : Reg) : TableRow.Statement (.not w rd rs1) := by
  have h := fixed_of_encodeR (op := 0x0B) w (by decide) rd.isLt rs1.isLt (by decide : 0 < 16) (by decide : 0 < 16)
  simp only at h
  simp [TableRow.Statement, fixedBits, encode, h]

theorem TableRow.shl (w : Width) (rd rs1 rs2 : Reg) : TableRow.Statement (.shl w rd rs1 rs2) := by
  have h := fixed_of_encodeR (op := 0x0C) w (by decide) rd.isLt rs1.isLt rs2.isLt (by decide : 0 < 16)
  simp only at h
  simp [TableRow.Statement, fixedBits, encode, h]

theorem TableRow.shr (w : Width) (rd rs1 rs2 : Reg) : TableRow.Statement (.shr w rd rs1 rs2) := by
  have h := fixed_of_encodeR (op := 0x0D) w (by decide) rd.isLt rs1.isLt rs2.isLt (by decide : 0 < 16)
  simp only at h
  simp [TableRow.Statement, fixedBits, encode, h]

theorem TableRow.add (w : Width) (rd rs1 rs2 : Reg) : TableRow.Statement (.add w rd rs1 rs2) := by
  have h := fixed_of_encodeR (op := 0x10) w (by decide) rd.isLt rs1.isLt rs2.isLt (by decide : 0 < 16)
  simp only at h
  simp [TableRow.Statement, fixedBits, encode, h]

theorem TableRow.adc (w : Width) (rd rs1 rs2 : Reg) : TableRow.Statement (.adc w rd rs1 rs2) := by
  have h := fixed_of_encodeR (op := 0x11) w (by decide) rd.isLt rs1.isLt rs2.isLt (by decide : 0 < 16)
  simp only at h
  simp [TableRow.Statement, fixedBits, encode, h]

theorem TableRow.sub (w : Width) (rd rs1 rs2 : Reg) : TableRow.Statement (.sub w rd rs1 rs2) := by
  have h := fixed_of_encodeR (op := 0x12) w (by decide) rd.isLt rs1.isLt rs2.isLt (by decide : 0 < 16)
  simp only at h
  simp [TableRow.Statement, fixedBits, encode, h]

theorem TableRow.sbb (w : Width) (rd rs1 rs2 : Reg) : TableRow.Statement (.sbb w rd rs1 rs2) := by
  have h := fixed_of_encodeR (op := 0x13) w (by decide) rd.isLt rs1.isLt rs2.isLt (by decide : 0 < 16)
  simp only at h
  simp [TableRow.Statement, fixedBits, encode, h]

theorem TableRow.neg (w : Width) (rd rs1 : Reg) : TableRow.Statement (.neg w rd rs1) := by
  have h := fixed_of_encodeR (op := 0x14) w (by decide) rd.isLt rs1.isLt (by decide : 0 < 16) (by decide : 0 < 16)
  simp only at h
  simp [TableRow.Statement, fixedBits, encode, h]

theorem TableRow.eq (w : Width) (rd rs1 rs2 : Reg) : TableRow.Statement (.eq w rd rs1 rs2) := by
  have h := fixed_of_encodeR (op := 0x18) w (by decide) rd.isLt rs1.isLt rs2.isLt (by decide : 0 < 16)
  simp only at h
  simp [TableRow.Statement, fixedBits, encode, h]

theorem TableRow.lt (w : Width) (rd rs1 rs2 : Reg) : TableRow.Statement (.lt w rd rs1 rs2) := by
  have h := fixed_of_encodeR (op := 0x19) w (by decide) rd.isLt rs1.isLt rs2.isLt (by decide : 0 < 16)
  simp only at h
  simp [TableRow.Statement, fixedBits, encode, h]

theorem TableRow.gt (w : Width) (rd rs1 rs2 : Reg) : TableRow.Statement (.gt w rd rs1 rs2) := by
  have h := fixed_of_encodeR (op := 0x1A) w (by decide) rd.isLt rs1.isLt rs2.isLt (by decide : 0 < 16)
  simp only at h
  simp [TableRow.Statement, fixedBits, encode, h]

theorem TableRow.le (w : Width) (rd rs1 rs2 : Reg) : TableRow.Statement (.le w rd rs1 rs2) := by
  have h := fixed_of_encodeR (op := 0x1B) w (by decide) rd.isLt rs1.isLt rs2.isLt (by decide : 0 < 16)
  simp only at h
  simp [TableRow.Statement, fixedBits, encode, h]

theorem TableRow.ge (w : Width) (rd rs1 rs2 : Reg) : TableRow.Statement (.ge w rd rs1 rs2) := by
  have h := fixed_of_encodeR (op := 0x1C) w (by decide) rd.isLt rs1.isLt rs2.isLt (by decide : 0 < 16)
  simp only at h
  simp [TableRow.Statement, fixedBits, encode, h]

theorem TableRow.mul (w : Width) (rd rs1 rs2 : Reg) : TableRow.Statement (.mul w rd rs1 rs2) := by
  have h := fixed_of_encodeR (op := 0x20) w (by decide) rd.isLt rs1.isLt rs2.isLt (by decide : 0 < 16)
  simp only at h
  simp [TableRow.Statement, fixedBits, encode, h]

theorem TableRow.umul (w : Width) (rd rd2 rs1 rs2 : Reg) : TableRow.Statement (.umul w rd rd2 rs1 rs2) := by
  have h := fixed_of_encodeR (op := 0x21) w (by decide) rd.isLt rs1.isLt rs2.isLt rd2.isLt
  simp only at h
  simp [TableRow.Statement, fixedBits, encode, h]

theorem TableRow.sqr (w : Width) (rd rs1 : Reg) : TableRow.Statement (.sqr w rd rs1) := by
  have h := fixed_of_encodeR (op := 0x22) w (by decide) rd.isLt rs1.isLt (by decide : 0 < 16) (by decide : 0 < 16)
  simp only at h
  simp [TableRow.Statement, fixedBits, encode, h]

theorem TableRow.exp (w : Width) (rd rs1 rs2 : Reg) : TableRow.Statement (.exp w rd rs1 rs2) := by
  have h := fixed_of_encodeR (op := 0x23) w (by decide) rd.isLt rs1.isLt rs2.isLt (by decide : 0 < 16)
  simp only at h
  simp [TableRow.Statement, fixedBits, encode, h]

theorem TableRow.udivrem (w : Width) (rd rd2 rs1 rs2 : Reg) : TableRow.Statement (.udivrem w rd rd2 rs1 rs2) := by
  have h := fixed_of_encodeR (op := 0x28) w (by decide) rd.isLt rs1.isLt rs2.isLt rd2.isLt
  simp only at h
  simp [TableRow.Statement, fixedBits, encode, h]

theorem TableRow.udiv (w : Width) (rd rs1 rs2 : Reg) : TableRow.Statement (.udiv w rd rs1 rs2) := by
  have h := fixed_of_encodeR (op := 0x29) w (by decide) rd.isLt rs1.isLt rs2.isLt (by decide : 0 < 16)
  simp only at h
  simp [TableRow.Statement, fixedBits, encode, h]

theorem TableRow.urem (w : Width) (rd rs1 rs2 : Reg) : TableRow.Statement (.urem w rd rs1 rs2) := by
  have h := fixed_of_encodeR (op := 0x2A) w (by decide) rd.isLt rs1.isLt rs2.isLt (by decide : 0 < 16)
  simp only at h
  simp [TableRow.Statement, fixedBits, encode, h]

theorem TableRow.sdivrem (w : Width) (rd rd2 rs1 rs2 : Reg) : TableRow.Statement (.sdivrem w rd rd2 rs1 rs2) := by
  have h := fixed_of_encodeR (op := 0x2B) w (by decide) rd.isLt rs1.isLt rs2.isLt rd2.isLt
  simp only at h
  simp [TableRow.Statement, fixedBits, encode, h]

theorem TableRow.addmod (rd rs1 rs2 rs3 : Reg) : TableRow.Statement (.addmod rd rs1 rs2 rs3) := by
  have h := fixed_of_encodeR (op := 0x30) .w256 (by decide) rd.isLt rs1.isLt rs2.isLt rs3.isLt
  simp only at h
  simp [TableRow.Statement, fixedBits, encode, h]

theorem TableRow.mulmod (rd rs1 rs2 rs3 : Reg) : TableRow.Statement (.mulmod rd rs1 rs2 rs3) := by
  have h := fixed_of_encodeR (op := 0x31) .w256 (by decide) rd.isLt rs1.isLt rs2.isLt rs3.isLt
  simp only at h
  simp [TableRow.Statement, fixedBits, encode, h]

theorem TableRow.ldle (w : Width) (rr : Reg) (addr : BitVec 14) : TableRow.Statement (.ldle w rr addr) := by
  have h := fields_encodeM (op := 0x38) w (by decide) rr.isLt (by decide : 0 < 2 ^ 6) addr.isLt
  simp only at h
  simp [TableRow.Statement, fixedBits, encode, h]

theorem TableRow.stle (w : Width) (rr : Reg) (addr : BitVec 14) : TableRow.Statement (.stle w rr addr) := by
  have h := fields_encodeM (op := 0x39) w (by decide) rr.isLt (by decide : 0 < 2 ^ 6) addr.isLt
  simp only at h
  simp [TableRow.Statement, fixedBits, encode, h]

theorem TableRow.ldbe (w : Width) (rr : Reg) (len : BitVec 6) (addr : BitVec 14) : TableRow.Statement (.ldbe w rr len addr) := by
  have h := fields_encodeM (op := 0x3A) w (by decide) rr.isLt len.isLt addr.isLt
  simp only at h
  simp [TableRow.Statement, fixedBits, encode, h]

theorem TableRow.stbe (w : Width) (rr : Reg) (addr : BitVec 14) : TableRow.Statement (.stbe w rr addr) := by
  have h := fields_encodeM (op := 0x3B) w (by decide) rr.isLt (by decide : 0 < 2 ^ 6) addr.isLt
  simp only at h
  simp [TableRow.Statement, fixedBits, encode, h]

theorem TableRow.truncbe (w : Width) (rr : Reg) (len : BitVec 6) (addr : BitVec 14) : TableRow.Statement (.truncbe w rr len addr) := by
  have h := fields_encodeM (op := 0x3C) w (by decide) rr.isLt len.isLt addr.isLt
  simp only at h
  simp [TableRow.Statement, fixedBits, encode, h]

theorem TableRow.bswap (w : Width) (rd rs1 : Reg) : TableRow.Statement (.bswap w rd rs1) := by
  have h := fixed_of_encodeR (op := 0x3D) w (by decide) rd.isLt rs1.isLt (by decide : 0 < 16) (by decide : 0 < 16)
  simp only at h
  simp [TableRow.Statement, fixedBits, encode, h]

end Sys2Proof.Laws
end

