-- ==== Sys2Proof/Laws/Shapes.lean ====
section
/-! SUPPORT. For each shape of command, everything it can do: the next state it answers, or the stop. -/

namespace Sys2Proof.Machine

/-- The four ways a command that answers a next state can leave the machine. -/
inductive Effect (s t : State) : Prop where
  /-- It completed, writing the registers `ds`; the carry flag is whatever it is. -/
  | completed (ds : List Reg) (h : Completed ds s t)
  /-- It stored the bytes `bs` at `a`, all inside data memory. -/
  | stored (a : Nat) (bs : List Byte) (hr : a + bs.length ≤ Config.dmemBytes)
      (hm : t.dmem = Memory.writeRange s.dmem a bs) (h : Stored a bs s t)
  /-- It took the fault entry with a cause. -/
  | faulted (k : Cause) (hk : k ≠ .none) (h : t = s.takeFault k)
  /-- It halted. -/
  | halted (h : t = s.halt)

theorem Completed.of_writeResult (s : State) (rd : Reg) (v : Nat) : Completed [rd] s (s.writeResult rd v).advance := by
  refine ⟨rfl, fun r hr => ?_, fun r hr => ?_, ⟨rfl, rfl, rfl, rfl, rfl⟩, fun _ => rfl, fun _ => rfl⟩
  · have hne : r ≠ rd := by simpa using hr
    simp [State.reg_writeResult_of_ne _ _ _ _ hne, State.isWritten_writeResult_of_ne _ _ _ _ hne]
  · obtain rfl : r = rd := by simpa using hr
    simp

/-- One result: the command completes, `rd` holds the result, `C` is unchanged. -/
theorem finish_spec (rd : Reg) (v : Nat) (s : State) :
    ∃ t, finish rd v s = .next t ∧ Completed [rd] s t ∧ t.reg rd = BitVec.ofNat 512 v ∧ t.carry = s.carry :=
  ⟨_, rfl, Completed.of_writeResult s rd v, by simp, rfl⟩

/-- Two results in two registers: the command completes, each holds its result, `C` is unchanged. -/
theorem finishTwo_spec (rd rd2 : Reg) (v v2 : Nat) (s : State) (hne : rd ≠ rd2) :
    ∃ t, finishTwo rd rd2 v v2 s = .next t ∧ Completed [rd, rd2] s t ∧ t.reg rd = BitVec.ofNat 512 v ∧
      t.reg rd2 = BitVec.ofNat 512 v2 ∧ t.carry = s.carry := by
  refine ⟨_, rfl, ⟨rfl, fun r hr => ?_, fun r hr => ?_, ⟨rfl, rfl, rfl, rfl, rfl⟩, fun _ => rfl, fun _ => rfl⟩, ?_,
    by simp, rfl⟩
  · simp only [List.mem_cons, List.not_mem_nil, or_false, not_or] at hr
    simp [State.reg_writeResult_of_ne _ _ _ _ hr.1, State.reg_writeResult_of_ne _ _ _ _ hr.2,
      State.isWritten_writeResult_of_ne _ _ _ _ hr.1, State.isWritten_writeResult_of_ne _ _ _ _ hr.2]
  · by_cases h2 : r = rd2
    · subst h2; simp
    · obtain rfl : r = rd := by simpa [h2] using hr
      simp [State.isWritten_writeResult_of_ne _ _ _ _ h2]
  · simp [State.reg_writeResult_of_ne _ _ _ _ hne]

/-- One result and a new carry flag. -/
theorem finishCarry_spec (rd : Reg) (r : Nat × Bool) (s : State) :
    ∃ t, finishCarry rd r s = .next t ∧ Completed [rd] s t ∧ t.reg rd = BitVec.ofNat 512 r.1 ∧ t.carry = r.2 := by
  have h := Completed.of_writeResult s rd r.1
  exact ⟨_, rfl, ⟨h.1, h.2.1, h.2.2.1, h.2.2.2.1, h.2.2.2.2.1, h.2.2.2.2.2⟩, State.reg_writeResult_self s rd r.1, rfl⟩

/-- The fault entry changes the three fields of 60_exceptions.md R331 and nothing else. -/
theorem Faulted.of_takeFault (k : Cause) (s : State) : Faulted k s (s.takeFault k) :=
  ⟨rfl, rfl, rfl, rfl, fun _ _ => ⟨rfl, rfl⟩, rfl, rfl, rfl, fun _ => rfl, fun _ => rfl⟩

theorem Stored.of_writeRange (s : State) (a : Nat) (bs : List Byte) :
    Stored a bs s { s with dmem := Memory.writeRange s.dmem a bs }.advance :=
  ⟨rfl, fun _ _ => ⟨rfl, rfl⟩, rfl, ⟨rfl, rfl, rfl, rfl, rfl⟩, fun _ => rfl,
    fun k hk => Memory.read_writeRange_inside bs s.dmem a k hk,
    fun b hb => Memory.read_writeRange_outside bs s.dmem a b hb⟩

/-- A load in range of written bytes completes with the value they stand for. -/
theorem load_ok (n : Nat) (value : List Byte → Nat) (rd : Reg) (addr : BitVec 14) (s : State) (bs : List Byte)
    (hr : addr.toNat + n ≤ Config.dmemBytes) (hb : Memory.readRange s.dmem addr.toNat n = .ok bs) :
    load n value rd addr s = finish rd (value bs) s := by
  simp [load, hb, Nat.not_lt.2 hr]

/-- The three outcomes of a load, in the order of 60_exceptions.md R332. -/
theorem load_cases (n : Nat) (value : List Byte → Nat) (rd : Reg) (addr : BitVec 14) (s : State) :
    (Config.dmemBytes < addr.toNat + n ∧ load n value rd addr s = .next (s.takeFault .dmemRange)) ∨
    (addr.toNat + n ≤ Config.dmemBytes ∧ ∃ a, Memory.readRange s.dmem addr.toNat n = .error a ∧
      load n value rd addr s = .fault (.unwrittenRead (.dmemByte a))) ∨
    (addr.toNat + n ≤ Config.dmemBytes ∧ ∃ bs, Memory.readRange s.dmem addr.toNat n = .ok bs ∧
      load n value rd addr s = finish rd (value bs) s) := by
  by_cases h : Config.dmemBytes < addr.toNat + n
  · exact .inl ⟨h, by simp [load, h, raise]⟩
  · have h' := Nat.not_lt.1 h
    cases hb : Memory.readRange s.dmem addr.toNat n with
    | error a => exact .inr (.inl ⟨h', a, rfl, by simp [load, h, hb]⟩)
    | ok bs => exact .inr (.inr ⟨h', bs, rfl, load_ok n value rd addr s bs h' hb⟩)

/-- The two outcomes of a store. -/
theorem store_cases (bytes : List Byte) (addr : BitVec 14) (s : State) :
    (Config.dmemBytes < addr.toNat + bytes.length ∧ store bytes addr s = .next (s.takeFault .dmemRange)) ∨
    (addr.toNat + bytes.length ≤ Config.dmemBytes ∧
      store bytes addr s = .next { s with dmem := Memory.writeRange s.dmem addr.toNat bytes }.advance) := by
  by_cases h : Config.dmemBytes < addr.toNat + bytes.length
  · exact .inl ⟨h, by simp [store, h, raise]⟩
  · exact .inr ⟨Nat.not_lt.1 h, by simp [store, h]⟩

theorem finish_effect {rd : Reg} {v : Nat} {s t : State} (h : finish rd v s = .next t) : Effect s t := by
  cases h; exact .completed [rd] (Completed.of_writeResult s rd v)

theorem finishCarry_effect {rd : Reg} {r : Nat × Bool} {s t : State} (h : finishCarry rd r s = .next t) :
    Effect s t := by
  obtain ⟨t', h', hc, -⟩ := finishCarry_spec rd r s
  rw [h] at h'; cases h'
  exact .completed [rd] hc

theorem finishTwo_effect {rd rd2 : Reg} {v v2 : Nat} {s t : State} (h : finishTwo rd rd2 v v2 s = .next t) :
    Effect s t := by
  by_cases hne : rd = rd2
  · subst hne
    cases h
    refine .completed [rd] ⟨rfl, fun r hr => ?_, fun r hr => ?_, ⟨rfl, rfl, rfl, rfl, rfl⟩, fun _ => rfl, fun _ => rfl⟩
    · have hn : r ≠ rd := by simpa using hr
      simp [State.reg_writeResult_of_ne _ _ _ _ hn, State.isWritten_writeResult_of_ne _ _ _ _ hn]
    · obtain rfl : r = rd := by simpa using hr
      simp
  · obtain ⟨t', h', hc, -⟩ := finishTwo_spec rd rd2 v v2 s hne
    rw [h] at h'; cases h'
    exact .completed _ hc

theorem raise_effect {k : Cause} {s t : State} (hk : k ≠ .none) (h : raise k s = .next t) : Effect s t := by
  cases h; exact .faulted k hk rfl

theorem load_effect {n : Nat} {value : List Byte → Nat} {rd : Reg} {addr : BitVec 14} {s t : State}
    (h : load n value rd addr s = .next t) : Effect s t := by
  rcases load_cases n value rd addr s with ⟨-, e⟩ | ⟨-, a, -, e⟩ | ⟨-, bs, -, e⟩
  · rw [e] at h; cases h; exact .faulted .dmemRange (by decide) rfl
  · rw [e] at h; cases h
  · rw [e] at h; exact finish_effect h

theorem store_effect {bytes : List Byte} {addr : BitVec 14} {s t : State} (h : store bytes addr s = .next t) :
    Effect s t := by
  rcases store_cases bytes addr s with ⟨-, e⟩ | ⟨hr, e⟩
  · rw [e] at h; cases h; exact .faulted .dmemRange (by decide) rfl
  · rw [e] at h; cases h; exact .stored _ _ hr rfl (Stored.of_writeRange s _ _)

end Sys2Proof.Machine
end

