-- ==== Sys2Proof/Laws/Step.lean ====
section
/-! SUPPORT. What `exec`, the sequencer and a step can do, said once. -/

namespace Sys2Proof.Machine

/-- Every command that answers a next state has one of the four effects. -/
theorem exec_effect (i : Instr) (s t : State) (h : exec i s = .next t) : Effect s t := by
  have division : ∀ {c : Prop} [Decidable c] {o : Host.Outcome State Fault Refusal},
      (if c then raise .divideByZero s else o) = .next t → (o = .next t → Effect s t) → Effect s t := by
    intro c _ o h ho
    split at h
    · exact raise_effect (by decide) h
    · exact ho h
  cases i with
  | nop => cases h; exact .completed [] ⟨rfl, fun _ _ => ⟨rfl, rfl⟩, by simp, ⟨rfl, rfl, rfl, rfl, rfl⟩, fun _ => rfl, fun _ => rfl⟩
  | halt => cases h; exact .halted rfl
  | add | adc | sub | sbb => exact finishCarry_effect h
  | umul => exact finishTwo_effect h
  | udivrem | sdivrem => exact division h finishTwo_effect
  | udiv | urem | addmod | mulmod => exact division h finish_effect
  | ldle | ldbe => exact load_effect h
  | stle | stbe | truncbe => exact store_effect h
  | li | mov | pair | and | or | xor | not | shl | shr | neg | eq | lt | gt | le | ge | mul | sqr | exp | bswap =>
    exact finish_effect h

/-- Only a load of a byte that was never written has no next state. -/
theorem exec_stops (i : Instr) (s : State) :
    (∃ t, exec i s = .next t) ∨ ∃ a, exec i s = .fault (.unwrittenRead (.dmemByte a)) ∧ s.dmemByte a = none := by
  have division : ∀ {c : Prop} [Decidable c] {o : Host.Outcome State Fault Refusal},
      (∃ t, o = .next t) → ∃ t, (if c then raise .divideByZero s else o) = .next t := by
    intro c _ o ho
    split
    · exact ⟨_, rfl⟩
    · exact ho
  have loads : ∀ (n : Nat) (value : List Byte → Nat) (rd : Reg) (addr : BitVec 14),
      (∃ t, load n value rd addr s = .next t) ∨
        ∃ a, load n value rd addr s = .fault (.unwrittenRead (.dmemByte a)) ∧ s.dmemByte a = none := by
    intro n value rd addr
    rcases load_cases n value rd addr s with ⟨-, e⟩ | ⟨-, a, ha, e⟩ | ⟨-, bs, -, e⟩
    · exact .inl ⟨_, e⟩
    · exact .inr ⟨a, e, ((Memory.readRange_eq_error _ _ _ _).1 ha).2.2.1⟩
    · exact .inl ⟨_, e.trans rfl⟩
  have stores : ∀ (bytes : List Byte) (addr : BitVec 14), ∃ t, store bytes addr s = .next t := by
    intro bytes addr
    rcases store_cases bytes addr s with ⟨-, e⟩ | ⟨-, e⟩ <;> exact ⟨_, e⟩
  cases i with
  | ldle w rr addr => exact loads _ _ rr addr
  | ldbe w rr len addr => exact loads _ _ rr addr
  | stle w rr addr => exact .inl (stores _ addr)
  | stbe w rr addr => exact .inl (stores _ addr)
  | truncbe w rr len addr => exact .inl (stores _ addr)
  | udivrem | sdivrem | udiv | urem | addmod | mulmod => exact .inl (division ⟨_, rfl⟩)
  | nop | halt | li | mov | pair | and | or | xor | not | shl | shr | add | adc | sub | sbb | neg | eq | lt | gt | le | ge
  | mul | umul | sqr | exp | bswap => exact .inl ⟨_, rfl⟩

/-! ## Fetch -/

theorem fetch_outOfRange {s : State} (h : Config.imemWords ≤ s.pc.toNat) : fetch s = .outOfRange := by
  simp [fetch, h]

theorem fetch_unwritten {s : State} (h : s.pc.toNat < Config.imemWords) (hw : s.imemWord s.pc.toNat = none) :
    fetch s = .unwritten := by
  simp [fetch, Nat.not_le.2 h, hw]

theorem fetch_illegal {s : State} {c : Command} {e : Illegal} (h : s.pc.toNat < Config.imemWords)
    (hw : s.imemWord s.pc.toNat = some c) (hd : decode c = .error e) : fetch s = .illegal e := by
  simp [fetch, Nat.not_le.2 h, hw, hd]

theorem fetch_command {s : State} {c : Command} {i : Instr} (h : s.pc.toNat < Config.imemWords)
    (hw : s.imemWord s.pc.toNat = some c) (hd : decode c = .ok i) : fetch s = .command i := by
  simp [fetch, Nat.not_le.2 h, hw, hd]

/-- A command is fetched only from a written word inside command memory. -/
theorem fetch_eq_command {s : State} {i : Instr} :
    fetch s = .command i ↔
      s.pc.toNat < Config.imemWords ∧ ∃ c, s.imemWord s.pc.toNat = some c ∧ decode c = .ok i := by
  constructor
  · intro h
    by_cases hp : Config.imemWords ≤ s.pc.toNat
    · simp [fetch_outOfRange hp] at h
    · refine ⟨Nat.not_le.1 hp, ?_⟩
      simp only [fetch, ge_iff_le, hp, if_false] at h
      split at h
      · cases h
      · rename_i c hc
        split at h
        · cases h
        · rename_i j hj
          cases h
          exact ⟨c, hc, hj⟩
  · rintro ⟨h, c, hw, hd⟩
    exact fetch_command h hw hd

/-! ## Turns -/

theorem step_of_no_turns {s : State} (h : s.hostTurns = []) : step s = blockStep s := by simp [step, h]

theorem step_of_pass {s : State} {turns : List HostTurn} (h : s.hostTurns = .pass :: turns) :
    step s = blockStep { s with hostTurns := turns } := by simp [step, h]

theorem step_of_move {s : State} {m : HostMove} {turns : List HostTurn} (h : s.hostTurns = .move m :: turns) :
    step s = hostMove m { s with hostTurns := turns } := by simp [step, h]

theorem blockStep_of_running {s : State} (h : s.runState = .running) : blockStep s = sequencerStep s := by
  simp [blockStep, h]

theorem blockStep_of_not_running {s : State} (h : s.runState ≠ .running) : blockStep s = .next s := by
  unfold blockStep
  split <;> simp_all

/-- A sequencer step that answers a next state has one of the four effects; beyond the fault entry it ran a command inside
command memory. -/
theorem sequencerStep_effect {s t : State} (h : sequencerStep s = .next t) :
    (∃ k, k ≠ Cause.none ∧ t = s.takeFault k) ∨
      (s.pc.toNat < Config.imemWords ∧ ∃ i, fetch s = .command i ∧ exec i s = .next t ∧ Effect s t) := by
  unfold sequencerStep at h
  split at h
  · cases h; exact .inl ⟨.imemRange, by decide, rfl⟩
  · cases h
  · cases h; exact .inl ⟨.illegalCommand, by decide, rfl⟩
  · rename_i i hi
    exact .inr ⟨(fetch_eq_command.1 hi).1, i, hi, h, exec_effect i s t h⟩

end Sys2Proof.Machine
end

