-- ==== Sys2Proof/Laws/WordUnits.lean ====
section
/-! SUPPORT. The contracts of the 64-bit and 128-bit units (10_state.md R45, R46) and the values of word arrays. -/

namespace Sys2Proof.Machine

/-! ## 64-bit units -/

theorem mulWide_spec (a b : Word) : a.toNat * b.toNat = (mulWide a b).1.toNat * 2 ^ 64 + (mulWide a b).2.toNat := by
  have ha := a.isLt
  have hb := b.isLt
  have h : a.toNat * b.toNat < 2 ^ 64 * 2 ^ 64 := Nat.mul_lt_mul'' ha hb
  simp only [mulWide, BitVec.toNat_ofNat]
  generalize a.toNat * b.toNat = p at *
  omega

theorem addCarry_spec (a b : Word) (cin : Bool) :
    a.toNat + b.toNat + cin.toNat = (addCarry a b cin).2.toNat * 2 ^ 64 + (addCarry a b cin).1.toNat := by
  have ha := a.isLt
  have hb := b.isLt
  have hc := Bool.toNat_le cin
  simp only [addCarry, BitVec.toNat_ofNat]
  by_cases h : 2 ^ 64 ≤ a.toNat + b.toNat + cin.toNat
  · simp only [h, decide_true, Bool.toNat_true]; omega
  · simp only [h, decide_false, Bool.toNat_false]; omega

theorem subBorrow_spec (a b : Word) (bin : Bool) :
    a.toNat + (subBorrow a b bin).2.toNat * 2 ^ 64 = (subBorrow a b bin).1.toNat + b.toNat + bin.toNat := by
  have ha := a.isLt
  have hb := b.isLt
  have hc := Bool.toNat_le bin
  simp only [subBorrow, BitVec.toNat_ofNat]
  by_cases h : a.toNat < b.toNat + bin.toNat
  · simp only [h, decide_true, Bool.toNat_true]; omega
  · simp only [h, decide_false, Bool.toNat_false]; omega

/-- `clz64` brings the top bit of a nonzero word to bit 63. -/
theorem clz64_spec (x : Word) (h : x ≠ 0) :
    clz64 x ≤ 63 ∧ 2 ^ 63 ≤ x.toNat * 2 ^ clz64 x ∧ x.toNat * 2 ^ clz64 x < 2 ^ 64 := by
  have hx : x.toNat ≠ 0 := fun e => h (BitVec.eq_of_toNat_eq (by simpa using e))
  have hlt : x.toNat.log2 < 64 := (Nat.log2_lt hx).2 x.isLt
  have hlo : 2 ^ x.toNat.log2 ≤ x.toNat := Nat.log2_self_le hx
  have hhi : x.toNat < 2 ^ (x.toNat.log2 + 1) := Nat.lt_log2_self
  refine ⟨by unfold clz64; omega, ?_, ?_⟩
  · calc 2 ^ 63 = 2 ^ x.toNat.log2 * 2 ^ (63 - x.toNat.log2) := by rw [← Nat.pow_add]; congr 1; omega
      _ ≤ _ := Nat.mul_le_mul_right _ hlo
  · calc x.toNat * 2 ^ clz64 x < 2 ^ (x.toNat.log2 + 1) * 2 ^ (63 - x.toNat.log2) :=
          Nat.mul_lt_mul_of_pos_right hhi (Nat.two_pow_pos _)
      _ = 2 ^ 64 := by rw [← Nat.pow_add]; congr 1; omega

theorem toNat_bswap64 (x : Word) : (bswap64 x).toNat = ofLe (beImage 8 x.toNat) := by
  have h := ofLe_lt (beImage 8 x.toNat)
  rw [length_beImage] at h
  rw [bswap64, BitVec.toNat_ofNat, Nat.mod_eq_of_lt h]

/-! ## The 128-bit unit -/

theorem toNat_joinWords (hi lo : Word) : (joinWords hi lo).toNat = hi.toNat * 2 ^ 64 + lo.toNat := by
  have := hi.isLt
  have := lo.isLt
  rw [joinWords, BitVec.toNat_ofNat]
  omega

theorem doubleWord_eq (d : DoubleWord) : d.toNat = (highWord d).toNat * 2 ^ 64 + (lowWord d).toNat := by
  have := d.isLt
  simp only [highWord, lowWord, BitVec.toNat_ofNat]
  omega

@[simp] theorem highWord_joinWords (hi lo : Word) : highWord (joinWords hi lo) = hi := by
  have := hi.isLt
  have := lo.isLt
  apply BitVec.eq_of_toNat_eq
  rw [highWord, BitVec.toNat_ofNat, toNat_joinWords]
  omega

@[simp] theorem lowWord_joinWords (hi lo : Word) : lowWord (joinWords hi lo) = lo := by
  have := lo.isLt
  apply BitVec.eq_of_toNat_eq
  rw [lowWord, BitVec.toNat_ofNat, toNat_joinWords]
  omega

/-! ## Word arrays -/

theorem value_lt (a : List Word) : value a < 2 ^ (64 * a.length) := by
  induction a with
  | nil => simp [value]
  | cons x xs ih =>
    have := x.isLt
    simp only [value, List.length_cons, show 64 * (xs.length + 1) = 64 + 64 * xs.length by omega, Nat.pow_add]
    omega

@[simp] theorem length_toWords (n v : Nat) : (toWords n v).length = n := by
  induction n generalizing v with
  | zero => rfl
  | succ n ih => simp [toWords, ih]

theorem value_toWords (n v : Nat) : value (toWords n v) = v % 2 ^ (64 * n) := by
  induction n generalizing v with
  | zero => simp [toWords, value, Nat.mod_one]
  | succ n ih =>
    rw [toWords, value, ih, BitVec.toNat_ofNat, show 64 * (n + 1) = 64 + 64 * n by omega, Nat.pow_add, Nat.mod_mul]

theorem toWords_value (a : List Word) : toWords a.length (value a) = a := by
  induction a with
  | nil => rfl
  | cons x xs ih =>
    have hx := x.isLt
    have h1 : value (x :: xs) / 2 ^ 64 = value xs := by simp only [value]; omega
    have h2 : BitVec.ofNat 64 (value (x :: xs)) = x := by
      apply BitVec.eq_of_toNat_eq
      simp only [value, BitVec.toNat_ofNat]; omega
    rw [List.length_cons, toWords, h1, h2, ih]

theorem value_append (a b : List Word) : value (a ++ b) = value a + 2 ^ (64 * a.length) * value b := by
  induction a with
  | nil => simp [value]
  | cons x xs ih =>
    simp only [List.cons_append, value, ih, List.length_cons, show 64 * (xs.length + 1) = 64 + 64 * xs.length by omega,
      Nat.pow_add]
    ring

/-- Word `i` of the array of a value is `word_i` of the value (00_scope.md R8). -/
theorem toNat_wordOf_toWords (n v i : Nat) (h : i < n) : (wordOf (toWords n v) i).toNat = wordAt v i := by
  induction n generalizing v i with
  | zero => omega
  | succ n ih =>
    cases i with
    | zero => simp [toWords, wordOf, wordAt, bitsAt]
    | succ i =>
      have := ih (v / 2 ^ 64) i (by omega)
      simp only [wordOf, toWords, List.getD_cons_succ] at this ⊢
      rw [this, wordAt, wordAt, bitsAt, bitsAt, Nat.div_div_eq_div_mul, ← Nat.pow_add,
        show 64 * (i + 1) = 64 + 64 * i by omega]

/-- Splitting an array at a word splits its value. -/
theorem value_take_drop (a : List Word) (j : Nat) (h : j ≤ a.length) :
    value a = value (a.take j) + 2 ^ (64 * j) * value (a.drop j) := by
  conv_lhs => rw [← List.take_append_drop j a]
  rw [value_append, List.length_take, Nat.min_eq_left h]

end Sys2Proof.Machine
end

