-- ==== Sys2Proof/Machine/Assembly.lean ====
section
/-! DEFINITION. The assembly form of a command, as data, and the pseudo-instructions (spec/30_encoding.md R113, R114). The
spelling of a line is not architectural (spec/92_eei_decisions.md D31); its mnemonic, suffix and operand order are kept
(DESIGN CHOICE, safe: notes/assumptions/14.md). -/

namespace Sys2Proof.Machine

/-- One operand of an assembly line. -/
inductive AsmOperand where
  /-- `r0` to `r15`. -/
  | reg (r : Reg)
  /-- A literal. -/
  | literal (v : Nat)
  /-- `[addr]`. -/
  | address (a : Nat)
  /-- The byte count M, 1 to 64. -/
  | count (m : Nat)
deriving DecidableEq, Repr

/-- An assembly line: mnemonic, the suffix `.256` or `.512` if it has one, operands in order. -/
structure AsmLine where
  mnemonic : String
  suffix : Option Width
  operands : List AsmOperand
deriving DecidableEq, Repr

/-- `op.N rd, rs1`. -/
def asm2 (name : String) (w : Width) (rd rs1 : Reg) : AsmLine := ⟨name, some w, [.reg rd, .reg rs1]⟩

/-- `op.N rd, rs1, rs2`. -/
def asm3 (name : String) (w : Width) (rd rs1 rs2 : Reg) : AsmLine := ⟨name, some w, [.reg rd, .reg rs1, .reg rs2]⟩

/-- `op.N a, b, c, d`. -/
def asm4 (name : String) (w : Width) (a b c d : Reg) : AsmLine := ⟨name, some w, [.reg a, .reg b, .reg c, .reg d]⟩

/-- `op.N r, [addr]`. -/
def asmMem (name : String) (w : Width) (rr : Reg) (addr : BitVec 14) : AsmLine :=
  ⟨name, some w, [.reg rr, .address addr.toNat]⟩

/-- `op.N r, [addr], M` with M = `LEN` + 1. -/
def asmMemCount (name : String) (w : Width) (rr : Reg) (len : BitVec 6) (addr : BitVec 14) : AsmLine :=
  ⟨name, some w, [.reg rr, .address addr.toNat, .count (len.toNat + 1)]⟩

/-- The assembly line of a command (R113). -/
def asm : Instr → AsmLine
  | .nop => ⟨"nop", none, []⟩
  | .halt => ⟨"halt", none, []⟩
  | .li w rd imm16 => ⟨"li", some w, [.reg rd, .literal imm16.toNat]⟩
  | .mov w rd rs1 => asm2 "mov" w rd rs1
  | .pair w rd rs1 rs2 => asm3 "pair" w rd rs1 rs2
  | .and w rd rs1 rs2 => asm3 "and" w rd rs1 rs2
  | .or w rd rs1 rs2 => asm3 "or" w rd rs1 rs2
  | .xor w rd rs1 rs2 => asm3 "xor" w rd rs1 rs2
  | .not w rd rs1 => asm2 "not" w rd rs1
  | .shl w rd rs1 rs2 => asm3 "shl" w rd rs1 rs2
  | .shr w rd rs1 rs2 => asm3 "shr" w rd rs1 rs2
  | .add w rd rs1 rs2 => asm3 "add" w rd rs1 rs2
  | .adc w rd rs1 rs2 => asm3 "adc" w rd rs1 rs2
  | .sub w rd rs1 rs2 => asm3 "sub" w rd rs1 rs2
  | .sbb w rd rs1 rs2 => asm3 "sbb" w rd rs1 rs2
  | .neg w rd rs1 => asm2 "neg" w rd rs1
  | .eq w rd rs1 rs2 => asm3 "eq" w rd rs1 rs2
  | .lt w rd rs1 rs2 => asm3 "lt" w rd rs1 rs2
  | .gt w rd rs1 rs2 => asm3 "gt" w rd rs1 rs2
  | .le w rd rs1 rs2 => asm3 "le" w rd rs1 rs2
  | .ge w rd rs1 rs2 => asm3 "ge" w rd rs1 rs2
  | .mul w rd rs1 rs2 => asm3 "mul" w rd rs1 rs2
  | .umul w rd rd2 rs1 rs2 => asm4 "umul" w rd rd2 rs1 rs2
  | .sqr w rd rs1 => asm2 "sqr" w rd rs1
  | .exp w rd rs1 rs2 => asm3 "exp" w rd rs1 rs2
  | .udivrem w rd rd2 rs1 rs2 => asm4 "udivrem" w rd rd2 rs1 rs2
  | .udiv w rd rs1 rs2 => asm3 "udiv" w rd rs1 rs2
  | .urem w rd rs1 rs2 => asm3 "urem" w rd rs1 rs2
  | .sdivrem w rd rd2 rs1 rs2 => asm4 "sdivrem" w rd rd2 rs1 rs2
  | .addmod rd rs1 rs2 rs3 => asm4 "addmod" .w256 rd rs1 rs2 rs3
  | .mulmod rd rs1 rs2 rs3 => asm4 "mulmod" .w256 rd rs1 rs2 rs3
  | .ldle w rr addr => asmMem "ldle" w rr addr
  | .stle w rr addr => asmMem "stle" w rr addr
  | .ldbe w rr len addr => asmMemCount "ldbe" w rr len addr
  | .stbe w rr addr => asmMem "stbe" w rr addr
  | .truncbe w rr len addr => asmMemCount "truncbe" w rr len addr
  | .bswap w rd rs1 => asm2 "bswap" w rd rs1

/-! ## Pseudo-instructions (R114) -/

/-- `zext rd, rs` (256 to 512 bits). -/
def pseudoZext (rd rs : Reg) : Instr := .mov .w256 rd rs

/-- `trunc rd, rs` (512 to 256 bits): the same word as `zext`. -/
def pseudoTrunc (rd rs : Reg) : Instr := .mov .w256 rd rs

/-- `div.N rd, rs1, rs2`. -/
def pseudoDiv (w : Width) (rd rs1 rs2 : Reg) : Instr := .udiv w rd rs1 rs2

/-- `mod.N rd, rs1, rs2`. -/
def pseudoMod (w : Width) (rd rs1 rs2 : Reg) : Instr := .urem w rd rs1 rs2

/-- `clr.N rd`. -/
def pseudoClr (w : Width) (rd : Reg) : Instr := .li w rd 0

end Sys2Proof.Machine
end

