-- ==== Sys2Proof/Tests/Slice0.lean ====
section
/-! SUPPORT. The model's own tests: the decoder on words written out from spec/30_encoding.md, the commands on the vectors of
spec/95_test_vectors.md (named in each test), and a witness for the hypotheses of each statement. Expected values are the
spec's. -/

set_option Elab.async false

namespace Sys2Proof.Machine.Tests

/-! ## Well-formedness: an ill-formed term for each check, and its nearest well-formed neighbour -/

theorem test_wf_two_results : Instr.wellFormed (.umul .w256 3 3 1 2) = false ∧
    Instr.wellFormed (.udivrem .w512 0 0 1 2) = false ∧ Instr.wellFormed (.sdivrem .w256 15 15 1 2) = false ∧
    Instr.wellFormed (.umul .w256 3 4 1 2) = true := by decide +kernel
theorem test_wf_ldbe : Instr.wellFormed (.ldbe .w256 0 32 0) = false ∧ Instr.wellFormed (.ldbe .w256 0 31 0) = true ∧
    Instr.wellFormed (.ldbe .w512 0 63 0) = true := by decide +kernel
theorem test_wf_truncbe : Instr.wellFormed (.truncbe .w256 0 31 0) = false ∧
    Instr.wellFormed (.truncbe .w256 0 30 0) = true ∧ Instr.wellFormed (.truncbe .w512 0 63 0) = false := by decide +kernel

/-! ## Decoding: the word of each command, its fields written out by hand from 30_encoding.md R103 to R106 and R109 -/

theorem test_decode_bitwise :
    decode 0x00069F48 = .ok (.and .w512 15 9 6) ∧
    decode 0x00069F49 = .ok (.or .w512 15 9 6) ∧
    decode 0x00069F4A = .ok (.xor .w512 15 9 6) ∧
    decode 0x0000C30B = .ok (.not .w256 3 12) := by decide +kernel

theorem test_decode_shift :
    decode 0x000E210C = .ok (.shl .w256 1 2 14) ∧
    decode 0x000E210D = .ok (.shr .w256 1 2 14) := by decide +kernel

theorem test_decode_additive :
    decode 0x00098750 = .ok (.add .w512 7 8 9) ∧
    decode 0x00098751 = .ok (.adc .w512 7 8 9) ∧
    decode 0x00098752 = .ok (.sub .w512 7 8 9) ∧
    decode 0x00098753 = .ok (.sbb .w512 7 8 9) ∧
    decode 0x0000BA54 = .ok (.neg .w512 10 11) := by decide +kernel

theorem test_decode_compare :
    decode 0x00035D18 = .ok (.eq .w256 13 5 3) ∧
    decode 0x00035D19 = .ok (.lt .w256 13 5 3) ∧
    decode 0x00035D1A = .ok (.gt .w256 13 5 3) ∧
    decode 0x00035D1B = .ok (.le .w256 13 5 3) ∧
    decode 0x00035D1C = .ok (.ge .w256 13 5 3) := by decide +kernel

theorem test_decode_move :
    decode 0x04D20504 = .ok (.li .w256 5 1234) ∧
    decode 0xFFFF0F44 = .ok (.li .w512 15 0xFFFF) ∧
    decode 0x00002105 = .ok (.mov .w256 1 2) ∧
    decode 0x00035746 = .ok (.pair .w512 7 5 3) ∧
    decode 0x0000847D = .ok (.bswap .w512 4 8) := by decide +kernel

theorem test_decode_memory :
    decode 0xFF800038 = .ok (.ldle .w256 0 0x3FE0) ∧
    decode 0x00800579 = .ok (.stle .w512 5 0x20) ∧
    decode 0x0103F17A = .ok (.ldbe .w512 1 63 0x40) ∧
    decode 0x0004033B = .ok (.stbe .w256 3 1) ∧
    decode 0xFFFFE97C = .ok (.truncbe .w512 9 62 0x3FFF) := by decide +kernel

theorem test_decode_multiply :
    decode 0x00032120 = .ok (.mul .w256 1 2 3) ∧
    decode 0x00310221 = .ok (.umul .w256 2 3 0 1) ∧
    decode 0x00004522 = .ok (.sqr .w256 5 4) ∧
    decode 0x00051623 = .ok (.exp .w256 6 1 5) := by decide +kernel

theorem test_decode_division :
    decode 0x00410328 = .ok (.udivrem .w256 3 4 0 1) ∧
    decode 0x00010269 = .ok (.udiv .w512 2 0 1) ∧
    decode 0x0001026A = .ok (.urem .w512 2 0 1) ∧
    decode 0x0031022B = .ok (.sdivrem .w256 2 3 0 1) := by decide +kernel

theorem test_decode_modular :
    decode 0x00142330 = .ok (.addmod 3 2 4 1) ∧
    decode 0x00162431 = .ok (.mulmod 4 2 6 1) := by decide +kernel

theorem test_decode_control :
    decode 0x00000001 = .ok (.nop) ∧
    decode 0x00000002 = .ok (.halt) := by decide +kernel


/-- The legal words of 95_test_vectors.md section L2.8 that no program row repeats. -/
theorem test_decode_L2_8_legal :
    decode 0x0001F03A = .ok (.ldbe .w256 0 31 0) ∧ decode 0x0000F03C = .ok (.truncbe .w256 0 15 0) ∧
    decode 0x0000F07C = .ok (.truncbe .w512 0 15 0) ∧ decode 0xFF800038 = .ok (.ldle .w256 0 0x3FE0) ∧
    decode 0xFFFC017A = .ok (.ldbe .w512 1 0 0x3FFF) := by decide +kernel

/-- The illegal words of 95_test_vectors.md section L2.8, each by the condition its row names. -/
theorem test_decode_L2_8_illegal :
    decode 0x00000000 = .error .reservedOpcode ∧ decode 0x0000003F = .error .reservedOpcode ∧
    decode 0x00000080 = .error .reservedBit7 ∧ decode 0x01000010 = .error .reservedHighByte ∧
    decode 0x0001000B = .error .unusedRegisterField ∧ decode 0x00001004 = .error .reservedImmediateField ∧
    decode 0x00000042 = .error .operandsOnFormatN ∧ decode 0x00100128 = .error .equalDestinations ∧
    decode 0x00000070 = .error .modularAtWidth512 ∧ decode 0x00001038 = .error .lengthNotZero ∧
    decode 0x0002003A = .error .loadTooLong ∧ decode 0x0001F03C = .error .truncationTooLong := by decide +kernel

/-! ## Execution: the vectors of 95_test_vectors.md section L2, one command each -/

abbrev m256 : Nat := 2 ^ 256 - 1
abbrev m512 : Nat := 2 ^ 512 - 1

/-- A running block whose listed registers hold the listed values. -/
def withRegs : List (Reg × Nat) → State
  | [] => { State.reset with runState := .running }
  | (r, v) :: rest => (withRegs rest).writeResult r v

/-- The same with bytes of data memory. -/
def withBytes (a : Nat) (bs : List Byte) (s : State) : State := { s with dmem := Memory.writeRange s.dmem a bs }

/-- The same with the command word at `pc`. -/
def withWord (c : Command) (s : State) : State := { s with imem := Memory.write s.imem s.pc.toNat c }

/-- The value of a register and the carry flag after a command that did not fault. -/
def result (o : Host.Outcome State Fault Refusal) (r : Reg) : Option (Nat × Bool) :=
  match o with
  | .next t => if t.runState = .faulted then none else some ((t.reg r).toNat, t.carry)
  | .fault _ => none
  | .refused _ => none

/-- The cause and `FPC` after a command that faulted. -/
def faultOf (o : Host.Outcome State Fault Refusal) : Option (Cause × Nat) :=
  match o with
  | .next t => if t.runState = .faulted then some (t.cause, t.fpc.toNat) else none
  | .fault _ => none
  | .refused _ => none

/-- What an `UNWRITTEN_READ` read. -/
def unwrittenOf (o : Host.Outcome State Fault Refusal) : Option Unwritten :=
  match o with
  | .next _ => none
  | .fault (.unwrittenRead u) => some u
  | .refused _ => none

/-- Bytes `a` to `a + n - 1` after a command that did not fault. -/
def bytesOf (o : Host.Outcome State Fault Refusal) (a n : Nat) : Option (List Nat) :=
  match o with
  | .next t =>
    match Memory.readRange t.dmem a n with
    | .ok bs => if t.runState = .faulted then none else some (bs.map BitVec.toNat)
    | .error _ => none
  | .fault _ => none
  | .refused _ => none

/-- A view of the next state. -/
def view {α : Type} (f : State → α) (o : Host.Outcome State Fault Refusal) : Option α :=
  match o with
  | .next t => some (f t)
  | .fault _ => none
  | .refused _ => none

/-- The host makes two moves, then the block a step. -/
def afterMoves (m n : HostMove) (s : State) : Host.Outcome State Fault Refusal :=
  match hostMove m s with
  | .next t =>
    match hostMove n t with
    | .next u => step u
    | o => o
  | o => o

/-- Registers 1 and 2 hold `x` and `y`. -/
abbrev two (x y : Nat) : State := withRegs [(1, x), (2, y)]

/-- The same with `C` = 1. -/
abbrev twoC (x y : Nat) : State := { two x y with carry := true }

-- B1 to B6
theorem test_and_B1 : result (exec (.and .w256 3 1 2) (two 0xF0F0 0xFF00)) 3 = some (0xF000, false) := by decide +kernel
theorem test_or_B2 : result (exec (.or .w256 3 1 2) (two 0xF0F0 0x0F00)) 3 = some (0xFFF0, false) := by decide +kernel
theorem test_xor_B3 : result (exec (.xor .w512 3 1 2) (two (2 ^ 511 + 1) 1)) 3 = some (2 ^ 511, false) := by
  decide +kernel
theorem test_not_B5 : result (exec (.not .w256 3 1) (two (2 ^ 300) 0)) 3 = some (m256, false) := by decide +kernel
theorem test_not_B6 : result (exec (.not .w512 1 1) (two 0 0)) 1 = some (m512, false) := by decide +kernel

-- B9, B14, B16, B17
theorem test_shl_B17 : result (exec (.shl .w256 3 1 2) (two 1 (2 ^ 256))) 3 = some (1, false) := by decide +kernel
theorem test_shl_B9 : result (exec (.shl .w256 3 1 2) (two 1 256)) 3 = some (0, false) := by decide +kernel
theorem test_shr_B14 : result (exec (.shr .w512 3 1 2) (two (2 ^ 511) 511)) 3 = some (1, false) := by decide +kernel
theorem test_shr_B12 : result (exec (.shr .w256 3 1 2) (two m256 (2 ^ 200))) 3 = some (0, false) := by decide +kernel

-- A+1 to A+15
theorem test_add_A1 : result (exec (.add .w256 3 1 2) (two m256 1)) 3 = some (0, true) := by decide +kernel
theorem test_add_A3 : result (exec (.add .w256 3 1 2) (twoC 5 7)) 3 = some (0xC, false) := by decide +kernel
theorem test_adc_A4 : result (exec (.adc .w256 3 1 2) (twoC m256 m256)) 3 = some (m256, true) := by decide +kernel
theorem test_adc_A5 : result (exec (.adc .w256 3 1 2) (twoC 0 0)) 3 = some (1, false) := by decide +kernel
theorem test_sub_A7 : result (exec (.sub .w256 3 1 2) (two 0 1)) 3 = some (m256, true) := by decide +kernel
theorem test_sub_A9 : result (exec (.sub .w256 3 1 2) (twoC (2 ^ 255) 1)) 3 = some (2 ^ 255 - 1, false) := by
  decide +kernel
theorem test_sbb_A11 : result (exec (.sbb .w256 3 1 2) (twoC 5 3)) 3 = some (1, false) := by decide +kernel
theorem test_sbb_A12 : result (exec (.sbb .w512 3 1 2) (twoC 0 m512)) 3 = some (0, true) := by decide +kernel
theorem test_neg_A13 : result (exec (.neg .w256 3 1) (twoC 1 0)) 3 = some (m256, true) := by decide +kernel
theorem test_neg_A14 : result (exec (.neg .w256 3 1) (two 0 0)) 3 = some (0, false) := by decide +kernel

-- A+16 to A+20
theorem test_eq_A16 : result (exec (.eq .w256 3 1 2) (twoC 7 7)) 3 = some (1, true) := by decide +kernel
theorem test_lt_A19 : result (exec (.lt .w512 3 1 2) (two (2 ^ 256) m256)) 3 = some (0, false) := by decide +kernel
theorem test_lt_A20 : result (exec (.lt .w256 3 1 2) (two (2 ^ 256) 1)) 3 = some (1, false) := by decide +kernel
theorem test_gt_A18 : result (exec (.gt .w256 3 1 2) (two m256 0)) 3 = some (1, false) := by decide +kernel
theorem test_le_A16 : result (exec (.le .w256 3 1 2) (two 7 7)) 3 = some (1, false) := by decide +kernel
theorem test_ge_A17 : result (exec (.ge .w256 3 1 2) (two 1 2)) 3 = some (0, false) := by decide +kernel

-- M1 to M18
theorem test_mov_M1 : result (exec (.mov .w256 3 1) (two (2 ^ 300 + 5) 0)) 3 = some (5, false) := by decide +kernel
theorem test_mov_M2 : result (exec (.mov .w512 3 1) (two (2 ^ 300 + 5) 0)) 3 = some (2 ^ 300 + 5, false) := by
  decide +kernel
theorem test_pair_M3 : result (exec (.pair .w512 3 1 2) (two 1 2)) 3 = some (2 ^ 256 + 2, false) := by decide +kernel
theorem test_pair_M4 : result (exec (.pair .w256 3 1 2) (two (2 ^ 128 + 3) m256)) 3 =
    some (3 * 2 ^ 128 + (2 ^ 128 - 1), false) := by decide +kernel
theorem test_li_M6 : result (exec (.li .w256 0 0xFFFF) (two 0 0)) 0 = some (65535, false) := by decide +kernel
theorem test_bswap_M16 : result (exec (.bswap .w256 3 1) (two 0x0102030405060708 0)) 3 =
    some (0x0807060504030201 * 2 ^ 192, false) := by decide +kernel
theorem test_bswap_M17 : result (exec (.bswap .w512 3 1) (two 1 0)) 3 = some (2 ^ 504, false) := by decide +kernel
theorem test_ldle_M7 :
    result (exec (.ldle .w256 3 0x3FE0) (withBytes 0x3FE0 (1 :: 2 :: List.replicate 30 0) (two 0 0))) 3 =
      some (0x0201, false) := by decide +kernel
theorem test_stle_M8 : bytesOf (exec (.stle .w256 1 5) (two 1234 0)) 5 32 =
    some ([0xD2, 0x04] ++ List.replicate 30 0) := by decide +kernel
theorem test_stbe_M9 : bytesOf (exec (.stbe .w256 1 5) (two 1234 0)) 5 32 =
    some (List.replicate 30 0 ++ [0x04, 0xD2]) := by decide +kernel
theorem test_ldbe_M10 : result (exec (.ldbe .w256 3 1 7) (withBytes 7 [0x04, 0xD2] (two 0 0))) 3 =
    some (1234, false) := by decide +kernel
theorem test_ldbe_M11 :
    result (exec (.ldbe .w512 3 63 0) (withBytes 0 (1 :: List.replicate 63 0) (two 0 0))) 3 = some (2 ^ 504, false) := by
  decide +kernel
theorem test_truncbe_M13 : bytesOf (exec (.truncbe .w256 1 1 9) (two 0x0102030405 0)) 9 2 = some [4, 5] := by
  decide +kernel
theorem test_truncbe_M14 : bytesOf (exec (.truncbe .w512 1 62 0) (two m512 0)) 0 63 = some (List.replicate 63 0xFF) := by
  decide +kernel

-- X1 to X21
theorem test_umul_X1_low : result (exec (.umul .w256 3 4 1 2) (two m256 m256)) 3 = some (1, false) := by decide +kernel
theorem test_umul_X1_high : result (exec (.umul .w256 3 4 1 2) (two m256 m256)) 4 = some (2 ^ 256 - 2, false) := by
  decide +kernel
theorem test_mul_X6 : result (exec (.mul .w256 3 1 2) (two (2 ^ 255) 2)) 3 = some (0, false) := by decide +kernel
theorem test_mul_X7 : result (exec (.mul .w256 3 1 2) (two m256 m256)) 3 = some (1, false) := by decide +kernel
theorem test_sqr_X8 : result (exec (.sqr .w256 3 1) (two (2 ^ 128 + 3) 0)) 3 = some (6 * 2 ^ 128 + 9, false) := by
  decide +kernel
theorem test_sqr_X11 : result (exec (.sqr .w512 3 1) (two (2 ^ 256 + 1) 0)) 3 = some (2 ^ 257 + 1, false) := by
  decide +kernel
theorem test_exp_X13 : result (exec (.exp .w256 3 1 2) (two 0 0)) 3 = some (1, false) := by decide +kernel
theorem test_exp_X21 : result (exec (.exp .w256 3 1 2) (two m256 m256)) 3 = some (m256, false) := by decide +kernel

-- D3, D18 to D25
theorem test_udivrem_D3_quotient :
    result (exec (.udivrem .w256 3 4 1 2) (two (2 ^ 255) 0x800000000000000000000000000000000000000000000001)) 3 =
      some (0xffffffffffffffff, false) := by decide +kernel
theorem test_udivrem_D3_remainder :
    result (exec (.udivrem .w256 3 4 1 2) (two (2 ^ 255) 0x800000000000000000000000000000000000000000000001)) 4 =
      some (0x7fffffffffffffffffffffffffffffff0000000000000001, false) := by decide +kernel
theorem test_udiv_D17 : result (exec (.udiv .w512 3 1 2) (two m512 1)) 3 = some (m512, false) := by decide +kernel
theorem test_urem_D6 : result (exec (.urem .w256 3 1 2) (two m256 10)) 3 = some (5, false) := by decide +kernel
theorem test_sdivrem_D20 :
    (result (exec (.sdivrem .w256 3 4 1 2) (two 7 (2 ^ 256 - 2))) 3,
      result (exec (.sdivrem .w256 3 4 1 2) (two 7 (2 ^ 256 - 2))) 4) =
        (some (2 ^ 256 - 3, false), some (1, false)) := by decide +kernel
theorem test_sdivrem_D24 :
    (result (exec (.sdivrem .w256 3 4 1 2) (two (2 ^ 255) m256)) 3,
      result (exec (.sdivrem .w256 3 4 1 2) (two (2 ^ 255) m256)) 4) = (some (2 ^ 255, false), some (0, false)) := by
  decide +kernel

-- A1, A2, A8, A10; F11
theorem test_addmod_A1 : result (exec (.addmod 3 1 1 2) (two m256 (2 ^ 255))) 3 = some (2 ^ 255 - 2, false) := by
  decide +kernel
theorem test_addmod_F11 : faultOf (exec (.addmod 3 1 2 0) (withRegs [(0, 0), (1, 5), (2, 5)])) = some (.divideByZero, 0) := by
  decide +kernel
theorem test_mulmod_A8 : result (exec (.mulmod 3 1 1 2) (two m256 (2 ^ 256 - 189))) 3 = some (35344, false) := by
  decide +kernel
theorem test_mulmod_A10 : result (exec (.mulmod 3 1 2 0) (withRegs [(0, m256), (1, 2 ^ 255), (2, 2)])) 3 = some (1, false) := by
  decide +kernel

-- K1, K2
theorem test_nop_K1 : view (fun t => (t.pc.toNat, t.runState)) (exec .nop { two 0 0 with pc := 7 }) =
    some (8, .running) := by decide +kernel
theorem test_halt_K2 :
    view (fun t => (t.pc.toNat, t.fpc.toNat, t.runState, t.cause, t.done)) (exec .halt { two 0 0 with pc := 5 }) =
      some (5, 5, .halted, .none, true) := by decide +kernel

/-! ## Faults and their priority: 95_test_vectors.md section L2.9 -/

-- F1, F1b: the host writes 5000 to `ENTRY`, which stores 4096, starts the block, and the first fetch faults.
theorem test_fault_F1b : faultOf (afterMoves (.writeCsr 0x10 5000) (.writeCsr 0x00 1) State.reset) =
    some (.imemRange, 4096) := by decide +kernel

-- F2
theorem test_fault_F2 : faultOf (strictStep (withWord 0x01000010 (withRegs []))) = some (.illegalCommand, 0) := by
  decide +kernel

-- F3, F4
theorem test_fault_F3 : unwrittenOf (strictStep (withWord 0x00010229 (withRegs [(1, 0)]))) = some (.register 0) := by
  decide +kernel
theorem test_fault_F4 : faultOf (strictStep (withWord 0x00010229 (withRegs [(0, 7), (1, 0)]))) = some (.divideByZero, 0) := by
  decide +kernel

-- F5, F6: `stle.256 r3, [0x3FF0]`
theorem test_fault_F5 : unwrittenOf (strictStep (withWord 0xFFC00339 (withRegs []))) = some (.register 3) := by
  decide +kernel
theorem test_fault_F6 : faultOf (strictStep (withWord 0xFFC00339 (withRegs [(3, 1)]))) = some (.dmemRange, 0) := by
  decide +kernel

-- F7, F8: `ldle.256 r0` at 0x3FE1 and 0x3FE0 with no byte written
theorem test_fault_F7 : faultOf (strictStep (withWord 0xFF840038 (withRegs []))) = some (.dmemRange, 0) := by
  decide +kernel
theorem test_fault_F8 : unwrittenOf (strictStep (withWord 0xFF800038 (withRegs []))) = some (.dmemByte 0x3FE0) := by
  decide +kernel

-- F10, F12
theorem test_fault_F10 : faultOf (strictStep (withWord 0xFF04017B (withRegs [(1, 0)]))) = some (.dmemRange, 0) := by
  decide +kernel
theorem test_fault_F12 : unwrittenOf (strictStep (withRegs [])) = some (.imemWord 0) := by decide +kernel

/-! ## The datapath: results and branches of 95_test_vectors.md section L2.5, the unit vectors, and L2.6 -/

theorem test_divide_D3 : divide 4 (2 ^ 255) 0x800000000000000000000000000000000000000000000001 =
    ⟨0xffffffffffffffff, 0x7fffffffffffffffffffffffffffffff0000000000000001,
      [.incremented, .knuth, .correction, .overflow]⟩ := by decide +kernel
theorem test_divide_D5 : divide 4 (2 ^ 200) (2 ^ 200 + 1) = ⟨0, 2 ^ 200, [.incremented, .knuth, .correction]⟩ := by
  decide +kernel
theorem test_divide_D7 : divide 4 m256 (2 ^ 63) =
    ⟨0x1ffffffffffffffffffffffffffffffffffffffffffffffff, 0x7fffffffffffffff, [.incremented, .byOneWord]⟩ := by
  decide +kernel
theorem test_divide_D10 : divide 4 m256 (2 ^ 128 - 1) =
    ⟨0x100000000000000000000000000000001, 0, [.incremented, .byTwoWords]⟩ := by decide +kernel
theorem test_divide_D12_D13 :
    (divide 4 5 7).path = [.notLonger] ∧ (divide 4 0 7).path = [.fewerWords] := by decide +kernel
theorem test_divide_D16 : divide 8 m512 (2 ^ 300 + 12345) =
    ⟨0xfffffffffffffffffffffffffffffffffffffffffffffffffffff,
      0xffffffffffffffffffcfc700000000000000000000000000000000000000000000000003038, [.incremented, .knuth]⟩ := by
  decide +kernel
theorem test_reciprocals : (reciprocal2by1 (BitVec.ofNat 64 (2 ^ 63))).toNat = 2 ^ 64 - 1 ∧
    (reciprocal2by1 (BitVec.ofNat 64 (2 ^ 64 - 1))).toNat = 1 ∧
    (reciprocal3by2 (BitVec.ofNat 128 (2 ^ 127))).toNat = 2 ^ 64 - 1 ∧
    (reciprocal3by2 (BitVec.ofNat 128 (2 ^ 128 - 1))).toNat = 0 := by decide +kernel
theorem test_trial_units :
    udivrem2by1Steps 5 7 (BitVec.ofNat 64 (2 ^ 63)) (BitVec.ofNat 64 (2 ^ 64 - 1)) = (10, 7) ∧
    udivrem3by2Steps 0 (BitVec.ofNat 64 (2 ^ 64 - 1)) (BitVec.ofNat 64 (2 ^ 64 - 1)) (BitVec.ofNat 128 (2 ^ 127))
      (BitVec.ofNat 64 (2 ^ 64 - 1)) = (1, BitVec.ofNat 128 (2 ^ 127 - 1)) := by decide +kernel
theorem test_addmod_paths_A2_A7 :
    fastPathApplies m256 m256 (2 ^ 256 - 189) = true ∧ addmodFast m256 m256 (2 ^ 256 - 189) = 376 ∧
    addmodGeneric m256 m256 (2 ^ 256 - 189) = 376 ∧
    fastPathApplies (5 * 2 ^ 192) (5 * 2 ^ 192) (5 * 2 ^ 192 + 7) = true ∧
    addmodFast (5 * 2 ^ 192) (5 * 2 ^ 192) (5 * 2 ^ 192 + 7) = 5 * 2 ^ 192 - 7 ∧
    fastPathApplies m256 m256 (2 ^ 255) = false ∧ mulmodByUnits m256 m256 (2 ^ 256 - 189) = 35344 := by decide +kernel

/-! ## Assembly (30_encoding.md R113 to R115) and reset -/

theorem test_pseudo_words : encode (pseudoZext 1 2) = 0x00002105 ∧ encode (pseudoTrunc 1 2) = 0x00002105 ∧
    encode (pseudoClr .w512 4) = 0x00000444 ∧ encode (pseudoDiv .w256 1 2 3) = 0x00032129 := by decide +kernel
theorem test_asm_operands : (asm (.ldbe .w512 1 1 0x40)).operands = [.reg 1, .address 0x40, .count 2] ∧
    (asm (.umul .w256 2 3 0 1)).operands = [.reg 2, .reg 3, .reg 0, .reg 1] := by decide +kernel

/-- A word placed for the next fetch runs as the next step. -/
theorem test_withFetchWord : result (step (State.reset.withFetchWord 32 0x04D20504)) 5 = some (1234, false) := by
  decide +kernel

/-! ## Witnesses: for each statement with hypotheses, states and operands that meet all of them, at the boundaries -/

theorem witness_DecodeInvertsEncode : Instr.wellFormed (.ldbe .w256 15 31 0x3FFF) = true ∧
    Instr.wellFormed (.truncbe .w512 15 62 0) = true ∧ Instr.wellFormed (.sdivrem .w512 15 0 15 0) = true := by
  decide +kernel

theorem witness_EncodeInvertsDecode : decode 0xFFFF0F44 = .ok (.li .w512 15 0xFFFF) ∧
    decode 0x00310228 = .ok (.udivrem .w256 2 3 0 1) := by decide +kernel

/-- A running state at the last index whose word there is `c`. -/
abbrev atLast (c : Command) : State := withWord c { withRegs [] with pc := 4095 }

theorem witness_IllegalWordsFault_each_condition :
    IllegalWord 0x00000000 ∧ IllegalWord 0x00000081 ∧ IllegalWord 0x01000010 ∧ IllegalWord 0x0001000B ∧
    IllegalWord 0x00100010 ∧ IllegalWord 0x00001004 ∧ IllegalWord 0x00000042 ∧ IllegalWord 0x00100128 ∧
    IllegalWord 0x00000070 ∧ IllegalWord 0x00001038 ∧ IllegalWord 0x0002003A ∧ IllegalWord 0x0001F03C ∧
    IllegalWord 0x0003F07C ∧ ¬IllegalWord 0x0003F07A := by
  refine ⟨?_, ?_, ?_, ?_, ?_, ?_, ?_, ?_, ?_, ?_, ?_, ?_, ?_, ?_⟩ <;> decide +kernel

theorem witness_IllegalWordsFault_state :
    (atLast 0x00000042).hostTurns = [] ∧ (atLast 0x00000042).runState = .running ∧
    (atLast 0x00000042).pc.toNat < 4096 ∧
    (atLast 0x00000042).imemWord (atLast 0x00000042).pc.toNat = some 0x00000042 := by decide +kernel

theorem witness_StepRunsDecodedCommand :
    (atLast 0x00000001).runState = .running ∧ (atLast 0x00000001).pc.toNat < 4096 ∧
    (atLast 0x00000001).imemWord (atLast 0x00000001).pc.toNat = some 0x00000001 ∧ decode 0x00000001 = .ok .nop ∧
    (atLast 0x00000001).hostTurns = [] ∧
    { atLast 0x00000001 with hostTurns := [.pass] }.hostTurns = .pass :: [] := by decide +kernel

/-- A running state past the last index. -/
abbrev pastLast : State := { withRegs [] with pc := 4096 }

theorem witness_FetchStops :
    (pastLast.hostTurns = [] ∧ pastLast.runState = .running ∧ pastLast.pc = 4096) ∧
    ({ pastLast with pc := 4095 }.pc.toNat < 4096 ∧ { pastLast with pc := 4095 }.imemWord 4095 = none) ∧
    State.reset.runState ≠ .running ∧ { State.reset with entry := 4096 }.entry = 4096 := by decide +kernel

theorem witness_ChecksInPriorityOrder_coded :
    (let s := withWord 0x00010229 (withRegs [(0, 7), (1, 0)])
     decode 0x00010229 = .ok (.udiv .w256 2 0 1) ∧ s.imemWord s.pc.toNat = some 0x00010229 ∧
     (∀ r, r ∈ sources (.udiv .w256 2 0 1) → s.isWritten r = true) ∧ divisorOf s (.udiv .w256 2 0 1) = some 0) ∧
    (let s := withWord 0xFFC00339 (withRegs [(3, 1)])
     decode 0xFFC00339 = .ok (.stle .w256 3 0x3FF0) ∧ s.imemWord s.pc.toNat = some 0xFFC00339 ∧
     (∀ r, r ∈ sources (.stle .w256 3 0x3FF0) → s.isWritten r = true) ∧
     storeAccess (.stle .w256 3 0x3FF0) = some (0x3FF0, 32) ∧ 16384 < 0x3FF0 + 32) := by decide +kernel

theorem witness_ChecksInPriorityOrder_unwritten :
    (let s := withWord 0x00010229 (withRegs [(1, 0)])
     s.imemWord s.pc.toNat = some 0x00010229 ∧ 0 ∈ sources (.udiv .w256 2 0 1) ∧ s.isWritten 0 = false) ∧
    (let s := withWord 0xFF800038 (withRegs [])
     decode 0xFF800038 = .ok (.ldle .w256 0 0x3FE0) ∧ s.imemWord s.pc.toNat = some 0xFF800038 ∧
     loadAccess (.ldle .w256 0 0x3FE0) = some (0x3FE0, 32) ∧ 0x3FE0 + 32 ≤ 16384 ∧ s.dmemByte 0x3FFF = none) := by
  decide +kernel

theorem witness_ChecksInPriorityOrder_completes :
    let s := withWord 0x00010229 (withRegs [(0, 7), (1, 1)])
    s.hostTurns = [] ∧ s.runState = .running ∧ s.pc.toNat < 4096 ∧ s.imemWord s.pc.toNat = some 0x00010229 ∧
    (∀ r, r ∈ sources (.udiv .w256 2 0 1) → s.isWritten r = true) ∧ divisorOf s (.udiv .w256 2 0 1) ≠ some 0 ∧
    loadAccess (.udiv .w256 2 0 1) = none ∧ storeAccess (.udiv .w256 2 0 1) = none := by decide +kernel

theorem witness_IdleBlockKeepsState :
    State.reset.runState ≠ .running ∧ State.reset.hostTurns = [] := by decide +kernel

/-- Two running states that differ in the value of the poisoned register 9, and write register 5 next. -/
theorem witness_PoisonValuesDoNotLeak :
    let s := withWord 0x04D20504 (withRegs [])
    let s' := { s with regs := s.regs.set 9 77 }
    SameButPoison s s' ∧ s.reg 9 ≠ s'.reg 9 ∧ result (strictStep s) 5 = some (1234, false) := by
  unfold SameButPoison; decide +kernel

theorem witness_FaultsArePrecise :
    let s := withWord 0x00010229 (withRegs [(0, 7), (1, 0)])
    s.hostTurns = [] ∧ s.runState = .running ∧ view (fun t => t.runState) (step s) = some .faulted := by decide +kernel

theorem witness_NopOnlyAdvances_HaltEndsTheRun :
    (field (0x00000041 : Command).toNat 0 6 = 1 ∧ field (0x00000041 : Command).toNat 6 26 ≠ 0) ∧
    (field (0x80000002 : Command).toNat 0 6 = 2 ∧ field (0x80000002 : Command).toNat 6 26 ≠ 0) := by decide +kernel

theorem witness_StartBeginsARun : State.reset.runState ≠ .running ∧ (0xFFFFFFFF : BitVec 32).getLsbD 0 = true ∧
    (withRegs []).runState = .running ∧ (0xFFFFFFFE : BitVec 32).getLsbD 0 = false := by decide +kernel

theorem witness_EntryHoldsALegalIndex : State.reset.runState ≠ .running ∧ (withRegs []).runState = .running ∧
    (0xFFFF1000 : BitVec 32).toNat % 8192 ≤ 4096 ∧ ¬(0xFFFF1001 : BitVec 32).toNat % 8192 ≤ 4096 := by decide +kernel

/-- The invariant holds after reset, and so its statement's premise can be met. -/
theorem witness_StepKeepsInvariant : State.reset.Inv ∧ step State.reset = .next State.reset :=
  ⟨⟨by decide +kernel, by decide +kernel, by decide +kernel, rfl, rfl, by decide +kernel, by decide +kernel⟩, rfl⟩

theorem witness_StepKeepsInvariant_running :
    (atLast 0x00000001).Inv ∧ view (fun t => t.pc.toNat) (step (atLast 0x00000001)) = some 4096 :=
  ⟨⟨by decide +kernel, by decide +kernel, by decide +kernel, by decide +kernel, by decide +kernel, by decide +kernel,
    by decide +kernel⟩, by decide +kernel⟩

theorem witness_EveryRunEnds :
    (atLast 0x00000001).Inv ∧ (atLast 0x00000001).hostTurns = [] ∧ (atLast 0x00000001).runState = .running :=
  ⟨witness_StepKeepsInvariant_running.1, by decide +kernel, by decide +kernel⟩

theorem witness_ResetValues : view (fun t => (t.pc.toNat, t.runState)) (hostMove .reset (atLast 0x00000001)) =
    some (0, .idle) := by decide +kernel

theorem witness_HostAccessDuringRun : (atLast 0x00000001).runState = .running := by decide +kernel

theorem witness_HostAccessesMemoryNotRegisters : State.reset.runState ≠ .running ∧
    HostMove.writeDmem 0x3FFF 0xFF ≠ .reset ∧
    view (fun t => t.dmemByte 0x3FFF) (hostMove (.writeDmem 0x3FFF 0xFF) State.reset) = some (some 0xFF) := by
  decide +kernel

theorem witness_CarryFlagUsers :
    ¬WritesCarry (.neg .w256 3 1) ∧ result (exec (.neg .w256 3 1) (twoC 1 0)) 3 = some (m256, true) ∧
    ¬ReadsCarry (.add .w256 3 1 2) ∧ result (exec (.add .w256 3 1 2) (twoC 5 7)) 3 = some (0xC, false) ∧
    State.reset.runState ≠ .running ∧ view (fun t => t.carry) (hostMove (.writeCsr 0 1) State.reset) = some false := by
  unfold WritesCarry ReadsCarry; decide +kernel

theorem witness_CommandsNeverWriteImem :
    view (fun t => t.imem) (exec (.stle .w256 1 5) (two 1234 0)) = some [] ∧ (withRegs []).runState = .running ∧
    view (fun t => (t.pc.toNat, (0 : BitVec 12).toNat)) (hostMove (.writeImem 0 0x00000001) State.reset) = some (0, 0) ∧
    decode 0x00000001 = .ok .nop := by decide +kernel

theorem witness_OnlyStoresWriteDmem :
    storeAccess (.stle .w256 1 5) = some (5, 32) ∧ (4 < 5 ∨ 5 + 32 ≤ 4) ∧ (37 < 5 ∨ 5 + 32 ≤ 37) ∧
    bytesOf (exec (.stle .w256 1 5) (two 1234 0)) 5 1 = some [0xD2] := by decide +kernel

theorem witness_PcOnlyAdvances_CommandsDoNotReadPc :
    (two 7 0).runState = .running ∧ view (fun t => t.runState) (exec (.udiv .w256 3 1 2) (two 7 0)) = some .faulted ∧
    view (fun t => t.runState) (exec .halt (two 7 0)) = some .halted ∧
    view (fun t => t.runState) (exec .nop (two 7 0)) = some .running := by decide +kernel

/-- `LoadResults` and `StoreResults` at the last legal addresses of each access. -/
theorem witness_LoadResults :
    (let s := withBytes 0x3FE0 (leImage 32 m256) (two 0 0)
     (0x3FE0 : BitVec 14).toNat + Width.w256.bytes ≤ 16384 ∧
     ∀ k, k < Width.w256.bytes → s.dmemByte ((0x3FE0 : BitVec 14).toNat + k) = some 0xFF) ∧
    (let s := withBytes 0x3FC0 (leImage 64 m512) (two 0 0)
     (0x3FC0 : BitVec 14).toNat + ((63 : BitVec 6).toNat + 1) ≤ 16384 ∧
     ∀ k, k < (63 : BitVec 6).toNat + 1 → s.dmemByte ((0x3FC0 : BitVec 14).toNat + k) = some 0xFF) := by decide +kernel

theorem witness_StoreResults_StoreThenLoadRoundTrips :
    (0x3FC0 : BitVec 14).toNat + Width.w512.bytes ≤ 16384 ∧
    (0x3FFF : BitVec 14).toNat + ((0 : BitVec 6).toNat + 1) ≤ 16384 ∧
    (63 : BitVec 6).toNat + 1 = Width.w512.bytes ∧ (30 : BitVec 6).toNat + 1 < Width.w256.bytes := by decide +kernel

/-- The counts and addresses on the other side of each bound of `LoadResults` and `StoreResults`. -/
theorem witness_LoadResults_StoreResults_bounds :
    (31 : BitVec 6).toNat + 1 ≤ Width.w256.bytes ∧ Width.w256.bytes < (32 : BitVec 6).toNat + 1 ∧
    (30 : BitVec 6).toNat + 1 < Width.w256.bytes ∧ Width.w256.bytes ≤ (31 : BitVec 6).toNat + 1 ∧
    16384 < (0x3FE1 : BitVec 14).toNat + Width.w256.bytes ∧
    16384 < (0x3FFF : BitVec 14).toNat + ((1 : BitVec 6).toNat + 1) := by decide +kernel

theorem witness_CsrWindow : 0x14 ∉ [0x00, 0x04, 0x08, 0x0C, 0x10] := by decide +kernel

theorem witness_OutOfRangeAccessFaults :
    (loadAccess (.ldle .w256 0 0x3FE1) = some (0x3FE1, 32) ∧ 16384 < 0x3FE1 + 32) ∧
    (storeAccess (.stbe .w512 1 0x3FC1) = some (0x3FC1, 64) ∧ 16384 < 0x3FC1 + 64) ∧
    (loadAccess (.ldbe .w256 0 1 0x3FFF) = some (0x3FFF, 2) ∧ 16384 < 0x3FFF + 2) := by decide +kernel

theorem witness_ProductResults : (3 : Reg) ≠ 4 := by decide +kernel

theorem witness_DivisionResults_DivisionLaws_SignedDivisionResult :
    (two (2 ^ 255) m256).operand .w256 2 ≠ 0 ∧ (two 7 (2 ^ 256)).operand .w512 2 ≠ 0 ∧ (3 : Reg) ≠ 4 ∧
    (two 7 (2 ^ 256)).operand .w256 2 = 0 := by
  decide +kernel

theorem witness_ZeroDivisorFaults :
    divisorOf (two 7 (2 ^ 256)) (.udivrem .w256 3 4 1 2) = some 0 ∧ divisorOf (two 7 0) (.udiv .w256 3 1 2) = some 0 ∧
    divisorOf (two 7 0) (.urem .w512 3 1 2) = some 0 ∧ divisorOf (two 7 0) (.sdivrem .w512 3 4 1 2) = some 0 ∧
    divisorOf (two 7 (2 ^ 256)) (.addmod 3 1 1 2) = some 0 ∧ divisorOf (two 7 0) (.mulmod 3 1 1 2) = some 0 := by
  decide +kernel

theorem witness_ModularResults : (two m256 1).operand .w256 2 ≠ 0 ∧ (two m256 (2 ^ 256)).operand .w256 2 = 0 := by
  decide +kernel

/-- The bounds of `ShiftLaws`, `AdditiveLaws`, `RippleUnitsMeetContracts`, `HalfShiftersAgree`, `WordShifterAgrees`,
`MultiplierFormulationsAgree`, `TruncatedProductCircuits` and `PowerPathsAgree`. -/
theorem witness_value_bounds :
    m256 < 2 ^ Width.w256.bits ∧ (0 : Nat) < Width.w256.bits ∧ 255 < Width.w256.bits ∧ Width.w512.bits ≤ 512 ∧
    m512 < 2 ^ Width.w512.bits ∧ 1 + (m256 - 1) < 2 ^ Width.w256.bits := by decide +kernel

theorem witness_TwoByOneStepsMeetContract :
    2 ^ 63 ≤ (0x8000000000000000 : Word).toNat ∧ (0x7FFFFFFFFFFFFFFF : Word) < 0x8000000000000000 := by decide +kernel

theorem witness_ThreeByTwoStepsMeetContract :
    2 ^ 127 ≤ (0x80000000000000000000000000000000 : DoubleWord).toNat ∧
    joinWords 0x7FFFFFFFFFFFFFFF 0xFFFFFFFFFFFFFFFF < 0x80000000000000000000000000000000 := by decide +kernel

theorem witness_SubmulContract : (toWords 4 m256).length = (toWords 4 1).length := by decide +kernel

theorem witness_DividerCircuitDivides_ModularPathsAgree :
    2 ^ 255 < 2 ^ Width.w256.bits ∧ 0x800000000000000000000000000000000000000000000001 < 2 ^ Width.w256.bits ∧
    0x800000000000000000000000000000000000000000000001 ≠ 0 ∧ m256 < 2 ^ 256 ∧
    fastPathApplies m256 m256 (2 ^ 256 - 189) = true := by decide +kernel

end Sys2Proof.Machine.Tests
end

/-! ## What a command's effect is built from, and relations that it keeps -/

namespace Sys2Proof.Machine

/-- If the outcome `o` is a next state, so is `o'`, and the relation `R` holds between the two. -/
def Transfers (R : State → State → Prop) (o o' : Host.Outcome State Fault Refusal) : Prop :=
  ∀ t, o = .next t → ∃ t', o' = .next t' ∧ R t t'

/-- The relation `R` survives every state update that the command `i` is built from, made on both sides with the same
values. Only some commands write `C` and only `HALT` halts; the last two fields ask nothing for the others. -/
structure KeptByUpdates (i : Instr) (R : State → State → Prop) : Prop where
  writeResult : ∀ {s s'} (rd : Reg) (v : Nat), R s s' → R (s.writeResult rd v) (s'.writeResult rd v)
  advance : ∀ {s s'}, R s s' → R s.advance s'.advance
  takeFault : ∀ {s s'} (k : Cause), R s s' → R (s.takeFault k) (s'.takeFault k)
  storeBytes : ∀ {s s'} (a : Nat) (bs : List Byte), a + bs.length ≤ Config.dmemBytes → R s s' →
    R { s with dmem := Memory.writeRange s.dmem a bs } { s' with dmem := Memory.writeRange s'.dmem a bs }
  setCarry : ∀ {s s'} (c : Bool), WritesCarry i → R s s' → R { s with carry := c } { s' with carry := c }
  halt : ∀ {s s'}, i = .halt → R s s' → R s.halt s'.halt

section
variable {i : Instr} {R : State → State → Prop} {s s' : State}

theorem Transfers.next {t t' : State} (h : R t t') : Transfers R (.next t) (.next t') := by
  intro u hu; cases hu; exact ⟨t', rfl, h⟩

theorem Transfers.of_fault {f : Fault} {o' : Host.Outcome State Fault Refusal} : Transfers R (.fault f) o' := nofun

theorem Transfers.of_refused {r : Refusal} {o' : Host.Outcome State Fault Refusal} : Transfers R (.refused r) o' := nofun

theorem Transfers.ite {c c' : Prop} [Decidable c] [Decidable c'] {a b a' b' : Host.Outcome State Fault Refusal}
    (hc : c ↔ c') (ha : Transfers R a a') (hb : Transfers R b b') :
    Transfers R (if c then a else b) (if c' then a' else b') := by
  by_cases h : c
  · rwa [if_pos h, if_pos (hc.1 h)]
  · rwa [if_neg h, if_neg fun h' => h (hc.2 h')]

theorem finish_transfers (hR : KeptByUpdates i R) (hs : R s s') (rd : Reg) {v v' : Nat} (hv : v = v') :
    Transfers R (finish rd v s) (finish rd v' s') := by
  subst hv; exact .next (hR.advance (hR.writeResult rd v hs))

theorem finishTwo_transfers (hR : KeptByUpdates i R) (hs : R s s') (rd rd2 : Reg) {v v' v2 v2' : Nat} (hv : v = v')
    (hv2 : v2 = v2') : Transfers R (finishTwo rd rd2 v v2 s) (finishTwo rd rd2 v' v2' s') := by
  subst hv hv2; exact .next (hR.advance (hR.writeResult rd2 v2 (hR.writeResult rd v hs)))

theorem finishCarry_transfers (hR : KeptByUpdates i R) (hi : WritesCarry i) (hs : R s s') (rd : Reg)
    {r r' : Nat × Bool} (hr : r = r') : Transfers R (finishCarry rd r s) (finishCarry rd r' s') := by
  subst hr; exact .next (hR.setCarry r.2 hi (hR.advance (hR.writeResult rd r.1 hs)))

theorem raise_transfers (hR : KeptByUpdates i R) (hs : R s s') (k : Cause) : Transfers R (raise k s) (raise k s') :=
  .next (hR.takeFault k hs)

theorem load_transfers (hR : KeptByUpdates i R) (hs : R s s') (hmem : s.dmem = s'.dmem) (n : Nat)
    (value : List Byte → Nat) (rd : Reg) (addr : BitVec 14) :
    Transfers R (load n value rd addr s) (load n value rd addr s') := by
  unfold load
  refine .ite Iff.rfl (raise_transfers hR hs _) ?_
  rw [← hmem]
  cases Memory.readRange s.dmem addr.toNat n with
  | error a => exact .of_fault
  | ok bs => exact finish_transfers hR hs rd rfl

theorem store_transfers (hR : KeptByUpdates i R) (hs : R s s') {bs bs' : List Byte} (hbs : bs = bs')
    (addr : BitVec 14) : Transfers R (store bs addr s) (store bs' addr s') := by
  subst hbs
  by_cases hr : addr.toNat + bs.length > Config.dmemBytes
  · simpa only [store, if_pos hr] using raise_transfers hR hs .dmemRange
  · simpa only [store, if_neg hr] using Transfers.next (hR.advance (hR.storeBytes _ bs (Nat.not_lt.1 hr) hs))

/-- A relation kept by the updates of a command is kept by the command, when its sources, data memory and, where the command
reads it, the carry flag are the same in the two states: nothing else is read. -/
theorem exec_transfers (hR : KeptByUpdates i R) (hs : R s s') (hsrc : ∀ r, r ∈ sources i → s.reg r = s'.reg r)
    (hcarry : ReadsCarry i → s.carry = s'.carry) (hmem : s.dmem = s'.dmem) :
    Transfers R (exec i s) (exec i s') := by
  have hop : ∀ w r, r ∈ sources i → s.operand w r = s'.operand w r := fun w r hr => by
    rw [State.operand, State.operand, hsrc r hr]
  cases i with
  | nop => exact .next (hR.advance hs)
  | halt => exact .next (hR.halt rfl hs)
  | add | sub =>
    simp only [sources, List.forall_mem_cons] at hop
    exact finishCarry_transfers hR trivial hs _ (by simp only [hop])
  | adc | sbb =>
    simp only [sources, List.forall_mem_cons] at hop
    exact finishCarry_transfers hR trivial hs _ (by simp only [hop, hcarry trivial])
  | umul =>
    simp only [sources, List.forall_mem_cons] at hop
    exact finishTwo_transfers hR hs _ _ (by simp only [hop]) (by simp only [hop])
  | udivrem | sdivrem =>
    simp only [sources, List.forall_mem_cons] at hop
    exact .ite (by simp only [hop]) (raise_transfers hR hs _)
      (finishTwo_transfers hR hs _ _ (by simp only [hop]) (by simp only [hop]))
  | udiv | urem | addmod | mulmod =>
    simp only [sources, List.forall_mem_cons] at hop
    exact .ite (by simp only [hop]) (raise_transfers hR hs _) (finish_transfers hR hs _ (by simp only [hop]))
  | ldle | ldbe => exact load_transfers hR hs hmem _ _ _ _
  | stle | stbe | truncbe =>
    simp only [sources, List.forall_mem_cons] at hop
    exact store_transfers hR hs (by simp only [hop]) _
  | li => exact finish_transfers hR hs _ rfl
  | mov | pair | and | or | xor | not | shl | shr | neg | eq | lt | gt | le | ge | mul | sqr | exp | bswap =>
    simp only [sources, List.forall_mem_cons] at hop
    exact finish_transfers hR hs _ (by simp only [hop])

/-- `exec_transfers` for a property of one state. -/
theorem exec_keeps {P : State → Prop} {t : State} (hP : KeptByUpdates i fun s _ => P s) (hs : P s)
    (h : exec i s = .next t) : P t := by
  obtain ⟨_, -, ht⟩ := exec_transfers (s' := s) hP hs (fun _ _ => rfl) (fun _ => rfl) rfl t h
  exact ht

end
end Sys2Proof.Machine

/-! ## The CSR window (10_state.md R38 to R43) -/

namespace Sys2Proof.Machine

theorem State.done_eq_true {s : State} : s.done = true ↔ s.runState = .halted ∨ s.runState = .faulted := by
  simp [State.done]

theorem RunState.code_lt (r : RunState) : r.code < 4 := by cases r <;> decide

theorem toNat_statusWord (s : State) :
    (statusWord s).toNat = s.runState.code + s.carry.toNat * 4 + s.done.toNat * 8 := by
  have := s.runState.code_lt
  have := s.carry.toNat_le
  have := s.done.toNat_le
  rw [statusWord, BitVec.toNat_ofNat]
  omega

theorem statusWord_carry (s : State) : (statusWord s).getLsbD 2 = s.carry := by
  have := s.runState.code_lt
  have := s.carry.toNat_le
  have hbit : (statusWord s).toNat / 2 ^ 2 % 2 = s.carry.toNat := by rw [toNat_statusWord]; omega
  rw [BitVec.getLsbD, Nat.testBit_eq_decide_div_mod_eq, hbit]
  simp

theorem statusWord_done (s : State) : (statusWord s).getLsbD 3 = s.done := by
  have := s.runState.code_lt
  have := s.carry.toNat_le
  have := s.done.toNat_le
  have hbit : (statusWord s).toNat / 2 ^ 3 % 2 = s.done.toNat := by rw [toNat_statusWord]; omega
  rw [BitVec.getLsbD, Nat.testBit_eq_decide_div_mod_eq, hbit]
  simp

theorem toNat_readCsr_entry (s : State) : (readCsr 0x10 s).toNat = s.entry.toNat :=
  BitVec.toNat_setWidth_of_le (by decide)

/-- What `ENTRY` stores: the index bits, or 4096 where they say more. -/
theorem toNat_legalEntry (v : BitVec 32) : (legalEntry v).toNat = min (v.toNat % 8192) 4096 := by
  rw [legalEntry, BitVec.toNat_ofNat, bitsAt_zero]
  exact Nat.mod_eq_of_lt (Nat.lt_of_le_of_lt (Nat.min_le_right ..) (by decide))

theorem bitsAt_zero_one_iff (v : BitVec 32) : bitsAt v.toNat 0 1 = 1 ↔ v.getLsbD 0 = true := by
  rw [bitsAt_zero, BitVec.getLsbD, Nat.testBit_zero, decide_eq_true_iff, Nat.pow_one]

theorem writeCsr_ctrl_start {s : State} {v : BitVec 32} (hs : s.runState ≠ .running) (hv : v.getLsbD 0 = true) :
    writeCsr 0x00 v s = s.start := if_pos ⟨hs, (bitsAt_zero_one_iff v).2 hv⟩

theorem writeCsr_entry {s : State} (v : BitVec 32) (hs : s.runState ≠ .running) :
    writeCsr 0x10 v s = { s with entry := legalEntry v } := if_pos hs

theorem writeCsr_of_not_ctrl_entry {offset : Nat} (h : offset ≠ 0x00 ∧ offset ≠ 0x10) (v : BitVec 32) (s : State) :
    writeCsr offset v s = s := by
  unfold writeCsr
  split
  · exact absurd rfl h.1
  · exact absurd rfl h.2
  · rfl

/-- A write of the CSR window neither reads nor changes the wide registers. -/
theorem writeCsr_withRegs (offset : Nat) (value : BitVec 32) (s : State) (g : Vector Wide 16) :
    writeCsr offset value { s with regs := g } = { writeCsr offset value s with regs := g } := by
  unfold writeCsr
  split
  · split <;> rfl
  · split <;> rfl
  · rfl

/-- Everything a write of the CSR window can do: nothing, START, or a new `ENTRY`, the last two outside a run only. -/
theorem writeCsr_cases (offset : Nat) (value : BitVec 32) (s : State) :
    writeCsr offset value s = s ∨
      s.runState ≠ .running ∧
        (writeCsr offset value s = s.start ∨ writeCsr offset value s = { s with entry := legalEntry value }) := by
  unfold writeCsr
  split
  · split
    · exact .inr ⟨‹_ ∧ _›.1, .inl rfl⟩
    · exact .inl rfl
  · split
    · exact .inr ⟨‹_›, .inr rfl⟩
    · exact .inl rfl
  · exact .inl rfl

theorem writeCsr_isWritten (offset : Nat) (value : BitVec 32) (s : State) (r : Reg) :
    (writeCsr offset value s).isWritten r = s.isWritten r := by
  obtain h | ⟨-, h | h⟩ := writeCsr_cases offset value s <;> rw [h] <;> rfl

theorem writeCsr_reg (offset : Nat) (value : BitVec 32) (s : State) (r : Reg) :
    (writeCsr offset value s).reg r = s.reg r := by
  obtain h | ⟨-, h | h⟩ := writeCsr_cases offset value s <;> rw [h] <;> rfl

end Sys2Proof.Machine

/-! ## The step with register poison, and what a poisoned register holds (10_state.md R33, 60_exceptions.md R332 item 4) -/

namespace Sys2Proof.Machine

theorem strictExec_of_written {i : Instr} {s : State} (h : ∀ r, r ∈ sources i → s.isWritten r = true) :
    strictExec i s = exec i s := by
  have : poisonedSource i s = none := List.find?_eq_none.2 fun r hr => by simp [h r hr]
  simp [strictExec, this]

/-- Either every source of a command holds a value, or the command stops at one that does not. -/
theorem strictExec_cases (i : Instr) (s : State) :
    (∀ r, r ∈ sources i → s.isWritten r = true) ∨
      ∃ r, r ∈ sources i ∧ s.isWritten r = false ∧ strictExec i s = .fault (.unwrittenRead (.register r)) := by
  cases h : poisonedSource i s with
  | none => exact .inl fun r hr => by simpa using List.find?_eq_none.1 h r hr
  | some r =>
    exact .inr ⟨r, List.mem_of_find?_eq_some h, by simpa using List.find?_some h, by simp [strictExec, h]⟩

/-- The block's turn of `strictStep`, as `blockStep` is that of `step`. -/
def strictBlockStep (s : State) : Host.Outcome State Fault Refusal :=
  match s.runState, fetch s with
  | .running, .command i => strictExec i s
  | _, _ => blockStep s

theorem strictBlockStep_of_command {s : State} {i : Instr} (hr : s.runState = .running) (hf : fetch s = .command i) :
    strictBlockStep s = strictExec i s := by simp [strictBlockStep, hr, hf]

theorem strictBlockStep_of_not_running {s : State} (hr : s.runState ≠ .running) : strictBlockStep s = .next s := by
  rw [← blockStep_of_not_running hr]
  unfold strictBlockStep
  split
  · contradiction
  · rfl

theorem strictBlockStep_of_no_command {s : State} (hf : ∀ i, fetch s ≠ .command i) :
    strictBlockStep s = blockStep s := by
  unfold strictBlockStep
  split
  · rename_i i _ h; exact absurd h (hf i)
  · rfl

theorem strictStep_of_no_turns {s : State} (h : s.hostTurns = []) : strictStep s = strictBlockStep s := by
  rw [strictBlockStep, ← step_of_no_turns h, strictStep, h]
  cases s.runState <;> cases fetch s <;> rfl

theorem strictStep_of_pass {s : State} {turns : List HostTurn} (h : s.hostTurns = .pass :: turns) :
    strictStep s = strictBlockStep { s with hostTurns := turns } := by
  have hf : fetch { s with hostTurns := turns } = fetch s := rfl
  rw [strictBlockStep, ← step_of_pass h, strictStep, h, hf]
  cases s.runState <;> cases fetch s <;> rfl

theorem strictStep_of_move {s : State} {m : HostMove} {turns : List HostTurn} (h : s.hostTurns = .move m :: turns) :
    strictStep s = hostMove m { s with hostTurns := turns } := by
  rw [← step_of_move h, strictStep, h]

/-- Two states that differ in poisoned registers only are one state with two register files. -/
theorem SameButPoison.exists_regs {s s' : State} (h : SameButPoison s s') :
    ∃ g, s' = { s with regs := g } ∧ ∀ r : Reg, s.isWritten r = true → s.reg r = g[r] := by
  obtain ⟨hw, hr, hc, hpc, hrun, hca, hf, he, hd, hi, ht⟩ := h
  exact ⟨s'.regs, by rw [hw, hc, hpc, hrun, hca, hf, he, hd, hi, ht], hr⟩

theorem SameButPoison.of_regs {s : State} {g : Vector Wide 16}
    (h : ∀ r : Reg, s.isWritten r = true → s.reg r = g[r]) : SameButPoison s { s with regs := g } :=
  ⟨rfl, h, rfl, rfl, rfl, rfl, rfl, rfl, rfl, rfl, rfl⟩

theorem SameButPoison.runState_eq {s s' : State} (h : SameButPoison s s') : s'.runState = s.runState := by
  obtain ⟨g, rfl, -⟩ := h.exists_regs; rfl

theorem SameButPoison.hostTurns_eq {s s' : State} (h : SameButPoison s s') : s'.hostTurns = s.hostTurns := by
  obtain ⟨g, rfl, -⟩ := h.exists_regs; rfl

theorem SameButPoison.isWritten_eq {s s' : State} (h : SameButPoison s s') : s'.isWritten = s.isWritten := by
  obtain ⟨g, rfl, -⟩ := h.exists_regs; rfl

theorem SameButPoison.fetch_eq {s s' : State} (h : SameButPoison s s') : fetch s' = fetch s := by
  obtain ⟨g, rfl, -⟩ := h.exists_regs; rfl

theorem SameButPoison.withTurns {s s' : State} (h : SameButPoison s s') (turns : List HostTurn) :
    SameButPoison { s with hostTurns := turns } { s' with hostTurns := turns } := by
  obtain ⟨g, rfl, hg⟩ := h.exists_regs; exact .of_regs hg

theorem SameButPoison.refl (s : State) : SameButPoison s s := .of_regs fun _ _ => rfl

theorem SameButPoison.writeResult {s s' : State} (h : SameButPoison s s') (rd : Reg) (v : Nat) :
    SameButPoison (s.writeResult rd v) (s'.writeResult rd v) := by
  obtain ⟨g, rfl, hg⟩ := h.exists_regs
  refine .of_regs (g := g.set rd (BitVec.ofNat 512 v)) fun r hw => ?_
  change _ = (State.writeResult { s with regs := g } rd v).reg r
  by_cases hr : r = rd
  · subst hr; simp
  · rw [State.isWritten_writeResult_of_ne _ _ _ _ hr] at hw
    rw [State.reg_writeResult_of_ne _ _ _ _ hr, State.reg_writeResult_of_ne _ _ _ _ hr]
    exact hg r hw

theorem sameButPoison_keptByUpdates (i : Instr) : KeptByUpdates i SameButPoison where
  writeResult rd v h := h.writeResult rd v
  advance h := by obtain ⟨g, rfl, hg⟩ := h.exists_regs; exact .of_regs hg
  takeFault _ h := by obtain ⟨g, rfl, hg⟩ := h.exists_regs; exact .of_regs hg
  storeBytes _ _ _ h := by obtain ⟨g, rfl, hg⟩ := h.exists_regs; exact .of_regs hg
  setCarry _ _ h := by obtain ⟨g, rfl, hg⟩ := h.exists_regs; exact .of_regs hg
  halt _ h := by obtain ⟨g, rfl, hg⟩ := h.exists_regs; exact .of_regs hg

/-- A command that reads no poisoned register does the same from two states that differ in such registers only. -/
theorem strictExec_transfers (i : Instr) {s s' : State} (h : SameButPoison s s') :
    Transfers SameButPoison (strictExec i s) (strictExec i s') := by
  obtain hw | ⟨r, -, -, hstop⟩ := strictExec_cases i s
  · rw [strictExec_of_written hw, strictExec_of_written (h.isWritten_eq ▸ hw)]
    obtain ⟨g, rfl, hg⟩ := h.exists_regs
    exact exec_transfers (sameButPoison_keptByUpdates i) h (fun r hr => hg r (hw r hr)) (fun _ => rfl) rfl
  · rw [hstop]; exact .of_fault

/-- A sequencer step that fetches no command does the same from two such states. -/
theorem sequencerStep_transfers {s s' : State} (h : SameButPoison s s') (hf : ∀ i, fetch s ≠ .command i) :
    Transfers SameButPoison (sequencerStep s) (sequencerStep s') := by
  have raised := raise_transfers (sameButPoison_keptByUpdates .nop) h
  rw [sequencerStep, sequencerStep, h.fetch_eq]
  cases e : fetch s with
  | outOfRange => exact raised .imemRange
  | unwritten => exact .of_fault
  | illegal _ => exact raised .illegalCommand
  | command i => exact absurd e (hf i)

theorem strictBlockStep_transfers {s s' : State} (h : SameButPoison s s') :
    Transfers SameButPoison (strictBlockStep s) (strictBlockStep s') := by
  by_cases hr : s.runState = .running
  · have hr' := h.runState_eq.trans hr
    by_cases hf : ∃ i, fetch s = .command i
    · obtain ⟨i, hf⟩ := hf
      rw [strictBlockStep_of_command hr hf, strictBlockStep_of_command hr' (h.fetch_eq.trans hf)]
      exact strictExec_transfers i h
    · have hf := not_exists.1 hf
      rw [strictBlockStep_of_no_command hf, strictBlockStep_of_no_command (h.fetch_eq ▸ hf), blockStep_of_running hr,
        blockStep_of_running hr']
      exact sequencerStep_transfers h hf
  · rw [strictBlockStep_of_not_running hr, strictBlockStep_of_not_running (h.runState_eq ▸ hr)]
    exact .next h

theorem hostMove_transfers (m : HostMove) {s s' : State} (h : SameButPoison s s') :
    Transfers SameButPoison (hostMove m s) (hostMove m s') := by
  obtain ⟨g, rfl, hg⟩ := h.exists_regs
  cases m with
  | reset => exact .next (.refl _)
  | writeCsr offset value =>
    refine .next ?_
    rw [writeCsr_withRegs offset value s g]
    exact .of_regs fun r hw => by
      rw [writeCsr_isWritten] at hw
      rw [writeCsr_reg, hg r hw]
  | writeImem index word => exact .ite Iff.rfl .of_refused (.next (.of_regs hg))
  | writeDmem address byte => exact .ite Iff.rfl .of_refused (.next (.of_regs hg))

theorem strictStep_transfers {s s' : State} (h : SameButPoison s s') :
    Transfers SameButPoison (strictStep s) (strictStep s') := by
  match ht : s.hostTurns with
  | [] =>
    rw [strictStep_of_no_turns ht, strictStep_of_no_turns (h.hostTurns_eq.trans ht)]
    exact strictBlockStep_transfers h
  | .pass :: turns =>
    rw [strictStep_of_pass ht, strictStep_of_pass (h.hostTurns_eq.trans ht)]
    exact strictBlockStep_transfers (h.withTurns turns)
  | .move m :: turns =>
    rw [strictStep_of_move ht, strictStep_of_move (h.hostTurns_eq.trans ht)]
    exact hostMove_transfers m (h.withTurns turns)

theorem CleanFor.of_sameButPoison {n : Nat} {s s' : State} (h : SameButPoison s s') (hc : CleanFor n s) :
    CleanFor n s' := by
  induction n generalizing s s' with
  | zero => trivial
  | succ n ih =>
    obtain ⟨t, ht, hct⟩ := hc
    obtain ⟨t', ht', hrel⟩ := strictStep_transfers h t ht
    exact ⟨t', ht', ih hrel hct⟩

/-- Settles O10: one `strictStep` carries `SameButPoison` to its successor states, and so do `n` of them. -/
theorem poisonValuesDoNotLeak : Obligations.PoisonValuesDoNotLeak :=
  fun _ _ h => ⟨strictStep_transfers h, fun _ => .of_sameButPoison h⟩

theorem strictBlockStep_eq_or_stops (s : State) :
    strictBlockStep s = blockStep s ∨ ∃ i r, fetch s = .command i ∧ r ∈ sources i ∧ s.isWritten r = false ∧
      strictBlockStep s = .fault (.unwrittenRead (.register r)) := by
  by_cases hr : s.runState = .running
  swap
  · exact .inl (by rw [strictBlockStep_of_not_running hr, blockStep_of_not_running hr])
  by_cases hf : ∃ i, fetch s = .command i
  swap
  · exact .inl (strictBlockStep_of_no_command (not_exists.1 hf))
  obtain ⟨i, hf⟩ := hf
  rw [strictBlockStep_of_command hr hf, blockStep_of_running hr]
  obtain hw | ⟨r, hmem, hw, hstop⟩ := strictExec_cases i s
  · exact .inl (by rw [strictExec_of_written hw, sequencerStep, hf])
  · exact .inr ⟨i, r, hf, hmem, hw, hstop⟩

/-- Settles O9: the two steps differ in the block's turn only, and there as `strictBlockStep_eq_or_stops` says. -/
theorem strictStepOnlyAddsStops : Obligations.StrictStepOnlyAddsStops := by
  intro s
  match ht : s.hostTurns with
  | [] =>
    rw [strictStep_of_no_turns ht, step_of_no_turns ht]
    exact strictBlockStep_eq_or_stops s
  | .pass :: turns =>
    rw [strictStep_of_pass ht, step_of_pass ht]
    exact strictBlockStep_eq_or_stops { s with hostTurns := turns }
  | .move m :: turns => exact .inl (by rw [strictStep_of_move ht, step_of_move ht])

end Sys2Proof.Machine

/-! ## The invariant (10_state.md R36, R41 to R43; 60_exceptions.md R331, R340) -/

namespace Sys2Proof.Machine

/-- Both memories are in canonical form and within their sizes. -/
def MemoriesWf (s : State) : Prop :=
  Memory.wf Config.dmemBytes s.dmem = true ∧ Memory.wf Config.imemWords s.imem = true

theorem memoriesWf_keptByUpdates (i : Instr) : KeptByUpdates i fun s _ => MemoriesWf s where
  writeResult _ _ h := h
  advance h := h
  takeFault _ h := h
  storeBytes a bs hr h := ⟨Memory.wf_writeRange _ bs _ a hr h.1, h.2⟩
  setCarry _ _ h := h
  halt _ h := h

theorem State.Inv.memoriesWf {s : State} (h : s.Inv) : MemoriesWf s := ⟨h.dmem_wf, h.imem_wf⟩

theorem State.Inv.cause_of_running {s : State} (h : s.Inv) (hr : s.runState = .running) : s.cause = .none := by
  by_contra hc
  rw [h.cause_iff.2 hc] at hr
  cases hr

theorem inv_reset : State.reset.Inv :=
  ⟨by decide, by decide, by decide, rfl, rfl, by decide, fun _ => rfl⟩

theorem State.Inv.withTurns {s : State} (h : s.Inv) (turns : List HostTurn) :
    State.Inv { s with hostTurns := turns } :=
  ⟨h.pc_le, h.fpc_le, h.entry_le, h.dmem_wf, h.imem_wf, h.cause_iff, h.fpc_eq⟩

theorem State.Inv.takeFault {s : State} (h : s.Inv) {k : Cause} (hk : k ≠ .none) : (s.takeFault k).Inv :=
  ⟨h.pc_le, h.pc_le, h.entry_le, h.dmem_wf, h.imem_wf, by simp [hk], fun _ => rfl⟩

theorem State.Inv.halt {s : State} (h : s.Inv) (hr : s.runState = .running) : s.halt.Inv :=
  ⟨h.pc_le, h.pc_le, h.entry_le, h.dmem_wf, h.imem_wf, by simp [h.cause_of_running hr], fun _ => rfl⟩

theorem State.Inv.start {s : State} (h : s.Inv) : s.start.Inv :=
  ⟨h.entry_le, h.fpc_le, h.entry_le, h.dmem_wf, h.imem_wf, by simp, by simp [State.done_eq_true]⟩

/-- A command that completes below the last index leaves `pc` within its range, and the other fields as they were. -/
theorem State.Inv.of_pc_succ {s t : State} (h : s.Inv) (hr : s.runState = .running) (hlt : s.pc.toNat < Config.imemWords)
    (hpc : t.pc = s.pc + 1) (hc : ControlKept s t) (hm : MemoriesWf t) : t.Inv := by
  obtain ⟨hrun, hcause, hfpc, hentry, -⟩ := hc
  have hrun := hrun.trans hr
  refine ⟨?_, hfpc ▸ h.fpc_le, hentry ▸ h.entry_le, hm.1, hm.2, ?_, ?_⟩
  · rw [hpc]; bv_omega
  · simp [hrun, hcause, h.cause_of_running hr]
  · simp [State.done_eq_true, hrun]

theorem State.Inv.sequencerStep {s t : State} (h : s.Inv) (hr : s.runState = .running)
    (ht : Machine.sequencerStep s = .next t) : t.Inv := by
  obtain ⟨k, hk, rfl⟩ | ⟨hlt, i, -, hexec, heff⟩ := sequencerStep_effect ht
  · exact h.takeFault hk
  have hm : MemoriesWf t := exec_keeps (memoriesWf_keptByUpdates i) h.memoriesWf hexec
  cases heff with
  | completed ds hd =>
    obtain ⟨hpc, -, -, hctl, -⟩ := hd
    exact h.of_pc_succ hr hlt hpc hctl hm
  | stored a bs _ _ hd =>
    obtain ⟨hpc, -, -, hctl, -⟩ := hd
    exact h.of_pc_succ hr hlt hpc hctl hm
  | faulted k hk e => exact e ▸ h.takeFault hk
  | halted e => exact e ▸ h.halt hr

theorem State.Inv.blockStep {s t : State} (h : s.Inv) (ht : Machine.blockStep s = .next t) : t.Inv := by
  by_cases hr : s.runState = .running
  · rw [blockStep_of_running hr] at ht
    exact h.sequencerStep hr ht
  · rw [blockStep_of_not_running hr] at ht
    cases ht; exact h

theorem State.Inv.writeCsr {s : State} (h : s.Inv) (offset : Nat) (value : BitVec 32) :
    (Machine.writeCsr offset value s).Inv := by
  obtain e | ⟨-, e | e⟩ := writeCsr_cases offset value s <;> rw [e]
  · exact h
  · exact h.start
  · refine ⟨h.pc_le, h.fpc_le, ?_, h.dmem_wf, h.imem_wf, h.cause_iff, h.fpc_eq⟩
    rw [toNat_legalEntry]; exact Nat.min_le_right ..

theorem State.Inv.hostMove {s t : State} (h : s.Inv) {m : HostMove} (ht : Machine.hostMove m s = .next t) : t.Inv := by
  cases m with
  | reset => cases ht; exact inv_reset.withTurns _
  | writeCsr offset value => cases ht; exact h.writeCsr offset value
  | writeImem index word =>
    rw [Machine.hostMove] at ht
    split at ht <;> cases ht
    exact ⟨h.pc_le, h.fpc_le, h.entry_le, h.dmem_wf, Memory.wf_write _ _ _ _ index.isLt h.imem_wf, h.cause_iff, h.fpc_eq⟩
  | writeDmem address byte =>
    rw [Machine.hostMove] at ht
    split at ht <;> cases ht
    exact ⟨h.pc_le, h.fpc_le, h.entry_le, Memory.wf_write _ _ _ _ address.isLt h.dmem_wf, h.imem_wf, h.cause_iff, h.fpc_eq⟩

/-- Settles O26, by whose turn the step is. -/
theorem stepKeepsInvariant : Obligations.StepKeepsInvariant := by
  intro s t h ht
  match hturns : s.hostTurns with
  | [] => exact h.blockStep (step_of_no_turns hturns ▸ ht)
  | .pass :: turns => exact (h.withTurns turns).blockStep (step_of_pass hturns ▸ ht)
  | .move m :: turns => exact (h.withTurns turns).hostMove (step_of_move hturns ▸ ht)

/-- Settles O27: `inv_reset`. -/
theorem resetMeetsInvariant : Obligations.ResetMeetsInvariant := inv_reset

/-! ## The carry flag and `pc` (10_state.md R34, R36, R37) -/

/-- The two states differ in the carry flag only. -/
def SameButCarry (s s' : State) : Prop := ∃ b, s' = { s with carry := b }

theorem sameButCarry_keptByUpdates (i : Instr) : KeptByUpdates i SameButCarry where
  writeResult _ _ := by rintro ⟨b, rfl⟩; exact ⟨b, rfl⟩
  advance := by rintro _ _ ⟨b, rfl⟩; exact ⟨b, rfl⟩
  takeFault _ := by rintro ⟨b, rfl⟩; exact ⟨b, rfl⟩
  storeBytes _ _ _ := by rintro ⟨b, rfl⟩; exact ⟨b, rfl⟩
  setCarry c _ := by rintro ⟨b, rfl⟩; exact ⟨c, rfl⟩
  halt _ := by rintro ⟨b, rfl⟩; exact ⟨b, rfl⟩

theorem carry_keptByUpdates {i : Instr} (hi : ¬WritesCarry i) (b : Bool) : KeptByUpdates i fun s _ => s.carry = b where
  writeResult _ _ h := h
  advance h := h
  takeFault _ h := h
  storeBytes _ _ _ h := h
  setCarry _ hw _ := absurd hw hi
  halt _ h := h

/-- `ADD` and `SUB` set the carry flag from their operands alone. -/
theorem exec_carry_irrelevant {i : Instr} (hw : WritesCarry i) (hr : ¬ReadsCarry i) (s : State) (b : Bool) :
    exec i { s with carry := b } = exec i s := by
  cases i with
  | add | sub => rfl
  | adc | sbb => exact absurd trivial hr
  | _ => exact hw.elim

theorem notHalted_keptByUpdates {i : Instr} (hi : i ≠ .halt) : KeptByUpdates i fun s _ => s.runState ≠ .halted where
  writeResult _ _ h := h
  advance h := h
  takeFault _ _ := nofun
  storeBytes _ _ _ h := h
  setCarry _ _ h := h
  halt e _ := absurd e hi

/-- Settles O24: the four effects of a command, of which only `HALT` has the last. -/
theorem pcOnlyAdvances : Obligations.PcOnlyAdvances := by
  intro i s t hr h
  by_cases hi : i = .halt
  · subst hi; cases h
    exact .inr (.inr ⟨rfl, rfl, rfl⟩)
  have hnot : t.runState ≠ .halted := exec_keeps (notHalted_keptByUpdates hi) (by simp [hr]) h
  cases exec_effect i s t h with
  | completed ds hd =>
    obtain ⟨hpc, -, -, ⟨hrun, -⟩, -⟩ := hd
    exact .inl ⟨hi, hrun.trans hr, hpc⟩
  | stored a bs _ _ hd =>
    obtain ⟨hpc, -, -, ⟨hrun, -⟩, -⟩ := hd
    exact .inl ⟨hi, hrun.trans hr, hpc⟩
  | faulted k _ e => subst e; exact .inr (.inl ⟨hi, rfl, rfl⟩)
  | halted e => subst e; exact absurd rfl hnot

/-! ## What the CSR window shows and takes -/

/-- Settles O16: the fields of the sum that `toNat_statusWord` gives. -/
theorem statusShowsRunStateAndCarry : Obligations.StatusShowsRunStateAndCarry := by
  refine ⟨fun s => ⟨?_, statusWord_carry s, ?_, ?_, fun v => rfl⟩, by decide⟩
  · change bitsAt (statusWord s).toNat 0 2 = s.runState.code
    have := s.runState.code_lt
    rw [bitsAt_zero, toNat_statusWord]
    omega
  · rw [← State.done_eq_true, ← statusWord_done]; rfl
  · change bitsAt (statusWord s).toNat 4 28 = 0
    have := s.runState.code_lt
    have := s.carry.toNat_le
    have := s.done.toNat_le
    rw [bitsAt, toNat_statusWord]
    omega

/-- Settles O21: a command keeps the carry flag, or the relation of differing in it only, unless it writes the flag. -/
theorem carryFlagUsers : Obligations.CarryFlagUsers := by
  refine ⟨fun i s t hi h => exec_keeps (carry_keptByUpdates hi s.carry) rfl h, fun i s t b hr h => ?_,
    statusWord_carry, fun s t hs h => ?_, rfl⟩
  · by_cases hw : WritesCarry i
    · exact ⟨t, (exec_carry_irrelevant hw hr s b).trans h, rfl, fun _ => rfl⟩
    · obtain ⟨t', h', c, rfl⟩ := exec_transfers (sameButCarry_keptByUpdates i) ⟨b, rfl⟩ (fun _ _ => rfl)
        (fun hc => absurd hc hr) rfl t h
      exact ⟨_, h', rfl, fun hc => absurd hc hw⟩
  · cases h; rw [writeCsr_ctrl_start hs rfl]; rfl

/-- Settles O17: `CAUSE` code by code, `FPC` by zero extension, and no case of the window for another offset. -/
theorem csrWindow : Obligations.CsrWindow := by
  intro s
  refine ⟨?_, ?_, fun v => ⟨rfl, rfl⟩, fun offset ho => ?_⟩
  · change (BitVec.ofNat 32 s.cause.code).toNat = s.cause.code
    cases s.cause <;> rfl
  · exact BitVec.toNat_setWidth_of_le (by decide)
  · simp only [List.mem_cons, List.not_mem_nil, or_false, not_or] at ho
    obtain ⟨h0, h4, h8, hC, h10⟩ := ho
    refine ⟨?_, fun v => congrArg Host.Outcome.next (writeCsr_of_not_ctrl_entry ⟨h0, h10⟩ v s)⟩
    unfold readCsr
    split
    · exact absurd rfl h4
    · exact absurd rfl h8
    · exact absurd rfl hC
    · exact absurd rfl h10
    · rfl

/-- Settles O14: the write is `State.start` exactly when its two conditions hold. -/
theorem startBeginsARun : Obligations.StartBeginsARun := by
  intro s v
  refine ⟨_, rfl, rfl, fun hs hv => ?_, fun h => if_neg ?_⟩
  · rw [writeCsr_ctrl_start hs hv]
    exact ⟨rfl, rfl, rfl, rfl, rfl, rfl, rfl, fun _ _ => ⟨rfl, rfl⟩, fun _ => rfl, fun _ => rfl⟩
  · rw [bitsAt_zero_one_iff]
    rintro ⟨hs, hv⟩
    obtain h | h := h
    · exact hs h
    · rw [h] at hv; cases hv

/-- Settles O15, with `entry_le` of the invariant for the last part. -/
theorem entryHoldsALegalIndex : Obligations.EntryHoldsALegalIndex := by
  refine ⟨fun s v => ⟨_, rfl, fun hs => ?_, fun hs => if_neg (not_not.2 hs)⟩, rfl, fun s h => ?_⟩
  · rw [writeCsr_entry v hs]
    refine ⟨?_, rfl, fun _ _ => ⟨rfl, rfl⟩, rfl, rfl, rfl, rfl, rfl, fun _ => rfl, fun _ => rfl⟩
    rw [toNat_readCsr_entry]
    change (legalEntry v).toNat = _
    rw [toNat_legalEntry, min_def]
  · rw [toNat_readCsr_entry]; exact h.entry_le

/-! ## The host's moves and the block at rest (10_state.md R37, R50, R52) -/

/-- Settles O8: the turn is the block's, which is not running. -/
theorem idleBlockKeepsState : Obligations.IdleBlockKeepsState :=
  fun _ hr ht => (step_of_no_turns ht).trans (blockStep_of_not_running hr)

/-- Settles O18: in both cases the state is `State.reset` with some turns of the host left. -/
theorem resetValues : Obligations.ResetValues := by
  intro s hs
  have : ∃ turns, s = { State.reset with hostTurns := turns } := by
    obtain rfl | ⟨s₀, h⟩ := hs
    · exact ⟨[], rfl⟩
    · cases h; exact ⟨_, rfl⟩
  obtain ⟨turns, rfl⟩ := this
  exact ⟨State.reset_isWritten, rfl, rfl, rfl, rfl, rfl, rfl, rfl, rfl, rfl, fun _ => rfl, fun _ => rfl⟩

/-- Settles O19: each access checks the run state first. -/
theorem hostAccessDuringRun : Obligations.HostAccessDuringRun := by
  intro s hs
  refine ⟨fun offset v => congrArg Host.Outcome.next ?_, fun _ _ => if_pos hs, fun _ _ => if_pos hs,
    fun _ => if_pos hs, fun _ => if_pos hs⟩
  obtain h | ⟨h, -⟩ := writeCsr_cases offset v s
  · exact h
  · exact absurd hs h

/-- No move of the host but reset touches a wide register or its poison mark. -/
theorem hostMove_regsKept {m : HostMove} {s t : State} (hm : m ≠ .reset) (h : hostMove m s = .next t) :
    RegsKept [] s t := by
  cases m with
  | reset => exact absurd rfl hm
  | writeCsr offset v => cases h; exact fun r _ => ⟨writeCsr_reg .., writeCsr_isWritten ..⟩
  | writeImem | writeDmem =>
    rw [hostMove] at h
    split at h <;> cases h
    exact fun _ _ => ⟨rfl, rfl⟩

theorem hostReadDmem_of_byte {s : State} {a : BitVec 14} {b : Byte} (hs : s.runState ≠ .running)
    (hb : s.dmemByte a.toNat = some b) : hostReadDmem a s = .next b := by
  simp [hostReadDmem, hs, hb]

theorem hostReadImem_of_word {s : State} {i : BitVec 12} {c : Command} (hs : s.runState ≠ .running)
    (hc : s.imemWord i.toNat = some c) : hostReadImem i s = .next c := by
  simp [hostReadImem, hs, hc]

/-- Settles O20, by read after write of the sparse memory. -/
theorem hostAccessesMemoryNotRegisters : Obligations.HostAccessesMemoryNotRegisters := by
  refine ⟨fun s a b hs => ⟨_, if_neg hs, hostReadDmem_of_byte hs (Memory.read_write_self ..), fun a' ha => ?_,
      fun _ => rfl, ⟨rfl, rfl, rfl, rfl, rfl⟩, rfl, rfl⟩,
    fun s i c hs => ⟨_, if_neg hs, hostReadImem_of_word hs (Memory.read_write_self ..), fun i' hi => ?_,
      fun _ => rfl, ⟨rfl, rfl, rfl, rfl, rfl⟩, rfl, rfl⟩,
    fun s t m => hostMove_regsKept⟩
  · exact Memory.read_write_of_ne _ _ _ _ ha
  · exact Memory.read_write_of_ne _ _ _ _ hi

end Sys2Proof.Machine

/-! ## Accesses to the memories (20_memory.md R74, R77, R87) -/

namespace Sys2Proof.Machine

/-- A host write of `IMEM` is a move exactly outside a run, and changes that one word. -/
theorem hostMove_writeImem_eq_next {index : BitVec 12} {word : Command} {s t : State} :
    hostMove (.writeImem index word) s = .next t ↔
      s.runState ≠ .running ∧ t = { s with imem := Memory.write s.imem index.toNat word } := by
  by_cases hs : s.runState = .running <;> simp [hostMove, hs, eq_comm]

theorem imem_keptByUpdates (i : Instr) (m : List (Nat × Command)) : KeptByUpdates i fun s _ => s.imem = m where
  writeResult _ _ h := h
  advance h := h
  takeFault _ h := h
  storeBytes _ _ _ h := h
  setCarry _ _ h := h
  halt _ h := h

/-- Settles O22, by `imem_keptByUpdates` for the commands and by read after write for the fetch. -/
theorem commandsNeverWriteImem : Obligations.CommandsNeverWriteImem := by
  refine ⟨fun i s t h => exec_keeps (imem_keptByUpdates i s.imem) rfl h,
    fun s i c hs t h => (hostMove_writeImem_eq_next.1 h).1 hs, fun s t i c j h hpc hd => ?_⟩
  obtain ⟨-, rfl⟩ := hostMove_writeImem_eq_next.1 h
  refine fetch_command (hpc ▸ i.isLt) ?_ hd
  rw [hpc]
  exact Memory.read_write_self ..

theorem load_dmem {n : Nat} {value : List Byte → Nat} {rd : Reg} {addr : BitVec 14} {s t : State}
    (h : load n value rd addr s = .next t) : t.dmem = s.dmem := by
  obtain ⟨-, e⟩ | ⟨-, a, -, e⟩ | ⟨-, bs, -, e⟩ := load_cases n value rd addr s <;> rw [e] at h <;> cases h <;> rfl

theorem store_dmem {bytes : List Byte} {addr : BitVec 14} {s t : State} (h : store bytes addr s = .next t) :
    t.dmem = s.dmem ∨ t.dmem = Memory.writeRange s.dmem addr.toNat bytes := by
  obtain ⟨-, e⟩ | ⟨-, e⟩ := store_cases bytes addr s <;> rw [e] at h <;> cases h
  · exact .inl rfl
  · exact .inr rfl

/-- Everything a command can do to data memory: nothing, or write as many bytes as its store access says, where it says. -/
theorem exec_dmem {i : Instr} {s t : State} (h : exec i s = .next t) :
    t.dmem = s.dmem ∨
      ∃ a bs, storeAccess i = some (a, bs.length) ∧ t.dmem = Memory.writeRange s.dmem a bs := by
  have division : ∀ {c : Prop} [Decidable c] {u : State},
      (if c then raise .divideByZero s else .next u) = .next t → u.dmem = s.dmem → t.dmem = s.dmem := by
    intro c _ u h hu
    split at h <;> cases h
    · rfl
    · exact hu
  cases i with
  | stle | stbe | truncbe => exact (store_dmem h).imp_right fun e => ⟨_, _, by simp [storeAccess], e⟩
  | ldle | ldbe => exact .inl (load_dmem h)
  | udivrem | udiv | urem | sdivrem | addmod | mulmod => exact .inl (division h rfl)
  | nop | halt | li | mov | pair | and | or | xor | not | shl | shr | add | adc | sub | sbb | neg | eq | lt | gt | le | ge
  | mul | umul | sqr | exp | bswap => cases h; exact .inl rfl

/-- Settles O23, by the frame of a range write. -/
theorem onlyStoresWriteDmem : Obligations.OnlyStoresWriteDmem := by
  intro i s t h a ha
  rw [State.dmemByte, State.dmemByte]
  obtain e | ⟨b, bs, hacc, e⟩ := exec_dmem h <;> rw [e]
  exact Memory.read_writeRange_outside _ _ _ _ (ha b bs.length hacc)

theorem load_of_out_of_range {n : Nat} {addr : BitVec 14} (h : Config.dmemBytes < addr.toNat + n)
    (value : List Byte → Nat) (rd : Reg) (s : State) : load n value rd addr s = .next (s.takeFault .dmemRange) :=
  if_pos h

theorem store_of_out_of_range {bytes : List Byte} {addr : BitVec 14}
    (h : Config.dmemBytes < addr.toNat + bytes.length) (s : State) :
    store bytes addr s = .next (s.takeFault .dmemRange) :=
  if_pos h

/-- The range check comes before any byte is read or written. -/
theorem exec_of_out_of_range {i : Instr} {a n : Nat} (hacc : loadAccess i = some (a, n) ∨ storeAccess i = some (a, n))
    (h : Config.dmemBytes < a + n) (s : State) : exec i s = .next (s.takeFault .dmemRange) := by
  cases i with
  | ldle | ldbe =>
    obtain e | e := hacc <;> cases e
    exact load_of_out_of_range h ..
  | stle | stbe | truncbe =>
    obtain e | e := hacc <;> cases e
    exact store_of_out_of_range (by simpa using h) s
  | _ => obtain e | e := hacc <;> cases e

/-- Settles O39: the outcome is the fault entry itself. -/
theorem outOfRangeAccessFaults : Obligations.OutOfRangeAccessFaults :=
  fun _ s _ _ hacc h => ⟨_, exec_of_out_of_range hacc h s, .of_takeFault .dmemRange s⟩

end Sys2Proof.Machine

/-! ## The decoder and the encoder (30_encoding.md R100 to R112) -/

namespace Sys2Proof

open Machine

/-! ### The fields of a word -/

theorem field_lt (c lo n : Nat) : field c lo n < 2 ^ n := Nat.mod_lt _ (Nat.two_pow_pos n)

theorem val_regField (n lo : Nat) : (regField n lo : Nat) = field n lo 4 := Nat.mod_eq_of_lt (field_lt n lo 4)

theorem regField_eq_iff (n lo lo' : Nat) : regField n lo = regField n lo' ↔ field n lo 4 = field n lo' 4 := by
  rw [Fin.ext_iff, val_regField, val_regField]

theorem bit_widthField (n : Nat) : (widthField n).bit = field n 6 1 := by
  have h := field_lt n 6 1
  unfold widthField
  split <;> simp only [Width.bit] <;> omega

theorem widthField_eq_w512 (n : Nat) : widthField n = .w512 ↔ field n 6 1 = 1 := by
  rw [← bit_widthField]
  cases widthField n <;> simp [Width.bit]

theorem bytes_widthField (n : Nat) : (widthField n).bytes = if field n 6 1 = 0 then 32 else 64 := by
  rw [widthField, apply_ite Width.bytes]
  rfl

theorem toNat_ofNat_field (n lo k : Nat) : (BitVec.ofNat k (field n lo k)).toNat = field n lo k := by
  rw [BitVec.toNat_ofNat, Nat.mod_eq_of_lt (field_lt n lo k)]

/-- The fields of a word read as Format R. -/
def fieldsR (n : Nat) : FieldsR := ⟨widthField n, regField n 8, regField n 12, regField n 16, regField n 20⟩

/-- The fields of a word read as Format M. -/
def fieldsM (n : Nat) : FieldsM :=
  ⟨widthField n, regField n 8, BitVec.ofNat 6 (field n 12 6), BitVec.ofNat 14 (field n 18 14)⟩

theorem fieldsM_len_ne_zero (n : Nat) : (fieldsM n).len ≠ 0 ↔ field n 12 6 ≠ 0 := by
  rw [ne_eq, ← BitVec.toNat_inj, fieldsM, toNat_ofNat_field]
  rfl

/-! ### A word is put together from its fields -/

section
variable {c : Command}

theorem encodeR_fieldsR (h7 : field c.toNat 7 1 = 0) (h24 : field c.toNat 24 8 = 0) :
    let f := fieldsR c.toNat
    encodeR (opField c) f.w f.rd f.rs1 f.rs2 f.rs3 = c := by
  refine BitVec.eq_of_toNat_eq ?_
  simp only [encodeR, fieldsR, val_regField, bit_widthField, BitVec.toNat_ofNat]
  simp only [field] at *
  omega

theorem encodeI_fields (h7 : field c.toNat 7 1 = 0) (h12 : field c.toNat 12 4 = 0) :
    encodeI (opField c) (widthField c.toNat) (regField c.toNat 8) (BitVec.ofNat 16 (field c.toNat 16 16)).toNat = c := by
  refine BitVec.eq_of_toNat_eq ?_
  simp only [encodeI, val_regField, bit_widthField, BitVec.toNat_ofNat]
  simp only [field] at *
  omega

theorem encodeM_fieldsM (h7 : field c.toNat 7 1 = 0) :
    let f := fieldsM c.toNat
    encodeM (opField c) f.w f.rr f.len.toNat f.addr.toNat = c := by
  refine BitVec.eq_of_toNat_eq ?_
  simp only [encodeM, fieldsM, val_regField, bit_widthField, BitVec.toNat_ofNat]
  simp only [field] at *
  omega

theorem ofNat_opField (h6 : field c.toNat 6 26 = 0) : BitVec.ofNat 32 (opField c) = c := by
  refine BitVec.eq_of_toNat_eq ?_
  rw [BitVec.toNat_ofNat]
  simp only [field] at *
  omega

end

/-! ### The formats: which words they take, and what they read of an encoded word -/

section
/-! A check of a format rejects the word or yields an instruction. -/

variable {p : Prop} [Decidable p] {e : Illegal} {i j : Instr}

theorem check_eq_ok : (if p then .error e else .ok j : Except Illegal Instr) = .ok i ↔ ¬p ∧ j = i := by
  split <;> simp [*]

theorem check_eq_error : (∃ e', (if p then .error e else .ok j : Except Illegal Instr) = .error e') ↔ p := by
  split <;> simp [*]

end

theorem formatM_eq (mk : FieldsM → Except Illegal Instr) (n : Nat) : formatM mk n = mk (fieldsM n) := rfl

section
variable {n : Nat} {i : Instr} {uses2 uses3 : Bool} {mk : FieldsR → Except Illegal Instr}

theorem formatR_eq_ok : formatR uses2 uses3 mk n = .ok i ↔
    field n 24 8 = 0 ∧ (uses2 = false → field n 16 4 = 0) ∧ (uses3 = false → field n 20 4 = 0) ∧
      mk (fieldsR n) = .ok i := by
  unfold formatR
  split
  · simp [*]
  · split
    · simp only [reduceCtorEq, false_iff]; tauto
    · have : mk ⟨widthField n, regField n 8, regField n 12, regField n 16, regField n 20⟩ = mk (fieldsR n) := rfl
      tauto

theorem formatR_eq_error : (∃ e, formatR uses2 uses3 mk n = .error e) ↔
    field n 24 8 ≠ 0 ∨ (uses2 = false ∧ field n 16 4 ≠ 0) ∨ (uses3 = false ∧ field n 20 4 ≠ 0) ∨
      ∃ e, mk (fieldsR n) = .error e := by
  unfold formatR
  split
  · simp [*]
  · split
    · simp; tauto
    · rw [fieldsR]; tauto

end

section
variable {op : Nat} (ho : op < 64) (w : Width) (rd rs1 rs2 rs3 rr : Reg)
include ho

theorem formatR_encodeR (uses2 uses3 : Bool) (mk : FieldsR → Except Illegal Instr) (h2 : uses2 = false → rs2 = 0)
    (h3 : uses3 = false → rs3 = 0) :
    formatR uses2 uses3 mk (encodeR op w rd rs1 rs2 rs3).toNat = mk ⟨w, rd, rs1, rs2, rs3⟩ := by
  obtain ⟨-, hw, -, hrd, hrs1, hrs2, hrs3, h24⟩ := fields_encodeR w ho rd.isLt rs1.isLt rs2.isLt rs3.isLt
  have hunused : ¬((uses2 = false ∧ (rs2 : Nat) ≠ 0) ∨ (uses3 = false ∧ (rs3 : Nat) ≠ 0)) := by
    rintro (⟨h, hne⟩ | ⟨h, hne⟩)
    · exact hne (by simp [h2 h])
    · exact hne (by simp [h3 h])
  rw [formatR, if_neg (not_not.2 h24), hrs2, hrs3, if_neg hunused, widthField_of_eq w hw, regField_of_eq rd hrd,
    regField_of_eq rs1 hrs1, regField_of_eq rs2 hrs2, regField_of_eq rs3 hrs3]

theorem decode2_encodeR (mk : Width → Reg → Reg → Instr) :
    decode2 mk (encodeR op w rd rs1 0 0).toNat = .ok (mk w rd rs1) :=
  formatR_encodeR ho w rd rs1 0 0 _ _ _ (fun _ => rfl) (fun _ => rfl)

theorem decode3_encodeR (mk : Width → Reg → Reg → Reg → Instr) :
    decode3 mk (encodeR op w rd rs1 rs2 0).toNat = .ok (mk w rd rs1 rs2) :=
  formatR_encodeR ho w rd rs1 rs2 0 _ _ _ nofun (fun _ => rfl)

theorem decodeTwoResults_encodeR (mk : Width → Reg → Reg → Reg → Reg → Instr) (hne : rd ≠ rs3) :
    decodeTwoResults mk (encodeR op w rd rs1 rs2 rs3).toNat = .ok (mk w rd rs3 rs1 rs2) :=
  (formatR_encodeR ho w rd rs1 rs2 rs3 true true _ nofun nofun).trans (if_neg hne)

theorem decodeModular_encodeR (mk : Reg → Reg → Reg → Reg → Instr) :
    decodeModular mk (encodeR op .w256 rd rs1 rs2 rs3).toNat = .ok (mk rd rs1 rs2 rs3) :=
  formatR_encodeR ho .w256 rd rs1 rs2 rs3 _ _ _ nofun nofun

theorem formatI_encodeI (mk : Width → Reg → BitVec 16 → Instr) (imm16 : BitVec 16) :
    formatI mk (encodeI op w rd imm16.toNat).toNat = .ok (mk w rd imm16) := by
  obtain ⟨-, hw, -, hrd, h12, himm⟩ := fields_encodeI w ho rd.isLt imm16.isLt
  rw [formatI, if_neg (not_not.2 h12), widthField_of_eq w hw, regField_of_eq rd hrd, himm, BitVec.ofNat_toNat,
    BitVec.setWidth_eq]

theorem formatM_encodeM (mk : FieldsM → Except Illegal Instr) (len : BitVec 6) (addr : BitVec 14) :
    formatM mk (encodeM op w rr len.toNat addr.toNat).toNat = mk ⟨w, rr, len, addr⟩ := by
  obtain ⟨-, hw, -, hrr, hlen, haddr⟩ := fields_encodeM w ho rr.isLt len.isLt addr.isLt
  rw [formatM, widthField_of_eq w hw, regField_of_eq rr hrr, hlen, haddr]
  simp

theorem decodeWholeAccess_encodeM (mk : Width → Reg → BitVec 14 → Instr) (addr : BitVec 14) :
    decodeWholeAccess mk (encodeM op w rr 0 addr.toNat).toNat = .ok (mk w rr addr) :=
  formatM_encodeM ho w rr _ 0 addr

end

section
variable {op rd rs1 rs2 rs3 imm16 rr len addr : Nat} {w : Width}

theorem opcode_encodeR (ho : op < 64) (h0 : rd < 16) (h1 : rs1 < 16) (h2 : rs2 < 16) (h3 : rs3 < 16) :
    field (encodeR op w rd rs1 rs2 rs3).toNat 0 6 = op ∧ field (encodeR op w rd rs1 rs2 rs3).toNat 7 1 = 0 := by
  obtain ⟨hop, -, h7, -⟩ := fields_encodeR w ho h0 h1 h2 h3
  exact ⟨hop, h7⟩

theorem opcode_encodeI (ho : op < 64) (h0 : rd < 16) (h1 : imm16 < 2 ^ 16) :
    field (encodeI op w rd imm16).toNat 0 6 = op ∧ field (encodeI op w rd imm16).toNat 7 1 = 0 := by
  obtain ⟨hop, -, h7, -⟩ := fields_encodeI w ho h0 h1
  exact ⟨hop, h7⟩

theorem opcode_encodeM (ho : op < 64) (h0 : rr < 16) (h1 : len < 2 ^ 6) (h2 : addr < 2 ^ 14) :
    field (encodeM op w rr len addr).toNat 0 6 = op ∧ field (encodeM op w rr len addr).toNat 7 1 = 0 := by
  obtain ⟨hop, -, h7, -⟩ := fields_encodeM w ho h0 h1 h2
  exact ⟨hop, h7⟩

end

/-- Settles O1: each format reads back the fields that the encoder writes. -/
theorem decodeInvertsEncode : Obligations.DecodeInvertsEncode := by
  intro i hi
  cases i with
  | nop | halt => rfl
  | li w rd imm16 => simp [encode, decode, opcode_encodeI, imm16.isLt, formatI_encodeI]
  | mov | not | neg | sqr | bswap => simp [encode, decode, opcode_encodeR, decode2_encodeR]
  | pair | and | or | xor | shl | shr | add | adc | sub | sbb | eq | lt | gt | le | ge | mul | exp | udiv | urem =>
    simp [encode, decode, opcode_encodeR, decode3_encodeR]
  | umul | udivrem | sdivrem =>
    simp [encode, decode, opcode_encodeR, decodeTwoResults_encodeR, of_decide_eq_true hi]
  | addmod | mulmod => simp [encode, decode, opcode_encodeR, decodeModular_encodeR]
  | ldle w rr addr | stle w rr addr | stbe w rr addr =>
    simp [encode, decode, opcode_encodeM, addr.isLt, decodeWholeAccess_encodeM]
  | ldbe w rr len addr =>
    have hlen : len.toNat < w.bytes := of_decide_eq_true hi
    simp [encode, decode, opcode_encodeM, addr.isLt, len.isLt, formatM_encodeM, hlen]
  | truncbe w rr len addr =>
    have hlen : len.toNat + 1 < w.bytes := of_decide_eq_true hi
    simp [encode, decode, opcode_encodeM, addr.isLt, len.isLt, formatM_encodeM, hlen]

/-! ### The rows of the opcode table -/

/-- How the decoder treats a word `c` with bit 7 = 0, by the opcode: one constructor per row shape of 30_encoding.md R109,
with the encoder's word for the instructions it yields. -/
inductive OpcodeRow (c : Command) : Except Illegal Instr → Prop where
  | reserved (hop : opField c ∈ reservedOpcodes) : OpcodeRow c (.error .reservedOpcode)
  | noOperands {op : Nat} (hop : opField c = op) (hmem : op ∈ [0x01, 0x02]) {i : Instr}
      (henc : encode i = BitVec.ofNat 32 op ∧ i.wellFormed = true) : OpcodeRow c (formatN i c.toNat)
  | immediate (hop : opField c = 0x04) : OpcodeRow c (formatI .li c.toNat)
  | oneSource {op : Nat} (hop : opField c = op) (hmem : op ∈ opcodesR1) {mk : Width → Reg → Reg → Instr}
      (henc : ∀ w rd rs1, encode (mk w rd rs1) = encodeR op w rd rs1 0 0 ∧ (mk w rd rs1).wellFormed = true) :
      OpcodeRow c (decode2 mk c.toNat)
  | twoSources {op : Nat} (hop : opField c = op) (hmem : op ∈ opcodesR2) {mk : Width → Reg → Reg → Reg → Instr}
      (henc : ∀ w rd rs1 rs2, encode (mk w rd rs1 rs2) = encodeR op w rd rs1 rs2 0 ∧
        (mk w rd rs1 rs2).wellFormed = true) :
      OpcodeRow c (decode3 mk c.toNat)
  | twoResults {op : Nat} (hop : opField c = op) (hmem : op ∈ opcodesTwoResults)
      {mk : Width → Reg → Reg → Reg → Reg → Instr}
      (henc : ∀ w rd rd2 rs1 rs2, encode (mk w rd rd2 rs1 rs2) = encodeR op w rd rs1 rs2 rd2 ∧
        (mk w rd rd2 rs1 rs2).wellFormed = decide (rd ≠ rd2)) :
      OpcodeRow c (decodeTwoResults mk c.toNat)
  | modular {op : Nat} (hop : opField c = op) (hmem : op ∈ opcodesModular) {mk : Reg → Reg → Reg → Reg → Instr}
      (henc : ∀ rd rs1 rs2 rs3, encode (mk rd rs1 rs2 rs3) = encodeR op .w256 rd rs1 rs2 rs3 ∧
        (mk rd rs1 rs2 rs3).wellFormed = true) :
      OpcodeRow c (decodeModular mk c.toNat)
  | wholeAccess {op : Nat} (hop : opField c = op) (hmem : op ∈ [0x38, 0x39, 0x3B])
      {mk : Width → Reg → BitVec 14 → Instr}
      (henc : ∀ w rr addr, encode (mk w rr addr) = encodeM op w rr 0 addr.toNat ∧ (mk w rr addr).wellFormed = true) :
      OpcodeRow c (decodeWholeAccess mk c.toNat)
  | countedLoad (hop : opField c = 0x3A) : OpcodeRow c (formatM (fun f =>
      if f.len.toNat + 1 > f.w.bytes then .error .loadTooLong else .ok (.ldbe f.w f.rr f.len f.addr)) c.toNat)
  | countedStore (hop : opField c = 0x3C) : OpcodeRow c (formatM (fun f =>
      if f.len.toNat + 1 ≥ f.w.bytes then .error .truncationTooLong else .ok (.truncbe f.w f.rr f.len f.addr)) c.toNat)

/-- The rows of the opcode table and the reserved opcodes are all values of `OP`. -/
theorem mem_opcode_rows : ∀ op < 2 ^ 6, op ∈ reservedOpcodes ∨ op ∈ [0x01, 0x02] ∨ op = 0x04 ∨ op ∈ opcodesR1 ∨
    op ∈ opcodesR2 ∨ op ∈ opcodesTwoResults ∨ op ∈ opcodesModular ∨ op ∈ [0x38, 0x39, 0x3B] ∨ op = 0x3A ∨ op = 0x3C := by
  decide

theorem decode_of_bit7 {c : Command} (h7 : field c.toNat 7 1 ≠ 0) : decode c = .error .reservedBit7 := if_pos h7

/-- The decoder takes the row of the opcode. The cases are the alternatives of its match, counted in order from `NOP`. -/
theorem decode_row {c : Command} (h7 : field c.toNat 7 1 = 0) : OpcodeRow c (decode c) := by
  unfold decode
  rw [if_neg (not_not.2 h7)]
  split
  case h_1 hop | h_2 hop =>
    exact .noOperands hop (by decide) ⟨rfl, rfl⟩
  case h_3 hop =>
    exact .immediate hop
  case h_4 hop | h_9 hop | h_16 hop | h_24 hop | h_37 hop =>
    exact .oneSource hop (by decide) fun _ _ _ => ⟨rfl, rfl⟩
  case h_5 hop | h_6 hop | h_7 hop | h_8 hop | h_10 hop | h_11 hop | h_12 hop | h_13 hop | h_14 hop | h_15 hop |
    h_17 hop | h_18 hop | h_19 hop | h_20 hop | h_21 hop | h_22 hop | h_25 hop | h_27 hop | h_28 hop =>
    exact .twoSources hop (by decide) fun _ _ _ _ => ⟨rfl, rfl⟩
  case h_23 hop | h_26 hop | h_29 hop =>
    exact .twoResults hop (by decide) fun _ _ _ _ _ => ⟨rfl, rfl⟩
  case h_30 hop | h_31 hop =>
    exact .modular hop (by decide) fun _ _ _ _ => ⟨rfl, rfl⟩
  case h_32 hop | h_33 hop | h_35 hop =>
    exact .wholeAccess hop (by decide) fun _ _ _ => ⟨rfl, rfl⟩
  case h_34 hop =>
    exact .countedLoad hop
  case h_36 hop =>
    exact .countedStore hop
  case h_38 =>
    have hrow := mem_opcode_rows _ (field_lt c.toNat 0 6)
    exact .reserved (by simp_all [opcodesR1, opcodesR2, opcodesTwoResults, opcodesModular])

/-- A Format R word that decodes is the word of its own fields; the fields its command does not use are 0. -/
theorem encodeR_of_formatR {c : Command} {i : Instr} {uses2 uses3 : Bool} {mk : FieldsR → Except Illegal Instr}
    (h7 : field c.toNat 7 1 = 0) (h : formatR uses2 uses3 mk c.toNat = .ok i) :
    ∃ f : FieldsR, mk f = .ok i ∧ (uses2 = false → f.rs2 = 0) ∧ (uses3 = false → f.rs3 = 0) ∧
      encodeR (opField c) f.w f.rd f.rs1 f.rs2 f.rs3 = c := by
  obtain ⟨h24, h2, h3, hi⟩ := formatR_eq_ok.1 h
  exact ⟨_, hi, fun hu => regField_of_eq 0 (h2 hu), fun hu => regField_of_eq 0 (h3 hu), encodeR_fieldsR h7 h24⟩

theorem encodeM_of_formatM {c : Command} {i : Instr} {mk : FieldsM → Except Illegal Instr}
    (h7 : field c.toNat 7 1 = 0) (h : formatM mk c.toNat = .ok i) :
    ∃ f : FieldsM, mk f = .ok i ∧ encodeM (opField c) f.w f.rr f.len.toNat f.addr.toNat = c :=
  ⟨_, h, encodeM_fieldsM h7⟩

/-- The instruction a row yields for `c` is encoded as `c`: the check of each format leaves no bit free. -/
theorem OpcodeRow.encode_inverts {c : Command} {i : Instr} {r : Except Illegal Instr} (hd : OpcodeRow c r)
    (h7 : field c.toNat 7 1 = 0) (h : r = .ok i) : encode i = c ∧ i.wellFormed = true := by
  cases hd with
  | reserved => cases h
  | noOperands hop _ henc =>
    obtain ⟨h6, rfl⟩ := check_eq_ok.1 h
    rw [henc.1, ← hop]
    exact ⟨ofNat_opField (not_not.1 h6), henc.2⟩
  | immediate hop =>
    obtain ⟨h12, rfl⟩ := check_eq_ok.1 h
    rw [encode, ← hop]
    exact ⟨encodeI_fields h7 (not_not.1 h12), rfl⟩
  | oneSource hop _ henc =>
    obtain ⟨f, ⟨⟩, h2, h3, hc⟩ := encodeR_of_formatR h7 h
    rw [h2 rfl, h3 rfl, hop] at hc
    exact ⟨(henc _ _ _).1.trans hc, (henc _ _ _).2⟩
  | twoSources hop _ henc =>
    obtain ⟨f, ⟨⟩, -, h3, hc⟩ := encodeR_of_formatR h7 h
    rw [h3 rfl, hop] at hc
    exact ⟨(henc _ _ _ _).1.trans hc, (henc _ _ _ _).2⟩
  | twoResults hop _ henc =>
    obtain ⟨f, hi, -, -, hc⟩ := encodeR_of_formatR h7 h
    obtain ⟨hne, rfl⟩ := check_eq_ok.1 hi
    exact ⟨(henc _ _ _ _ _).1.trans (hop ▸ hc), (henc _ _ _ _ _).2.trans (decide_eq_true hne)⟩
  | modular hop _ henc =>
    obtain ⟨⟨w, rd, rs1, rs2, rs3⟩, hi, -, -, hc⟩ := encodeR_of_formatR h7 h
    obtain ⟨hw, rfl⟩ := check_eq_ok.1 hi
    cases w with
    | w512 => exact absurd rfl hw
    | w256 => exact ⟨(henc _ _ _ _).1.trans (hop ▸ hc), (henc _ _ _ _).2⟩
  | wholeAccess hop _ henc =>
    obtain ⟨f, hi, hc⟩ := encodeM_of_formatM h7 h
    obtain ⟨hlen, rfl⟩ := check_eq_ok.1 hi
    rw [not_not.1 hlen, hop] at hc
    exact ⟨(henc _ _ _).1.trans hc, (henc _ _ _).2⟩
  | countedLoad hop =>
    obtain ⟨f, hi, hc⟩ := encodeM_of_formatM h7 h
    obtain ⟨hlen, rfl⟩ := check_eq_ok.1 hi
    exact ⟨(hop ▸ hc :), decide_eq_true (Nat.not_lt.1 hlen)⟩
  | countedStore hop =>
    obtain ⟨f, hi, hc⟩ := encodeM_of_formatM h7 h
    obtain ⟨hlen, rfl⟩ := check_eq_ok.1 hi
    exact ⟨(hop ▸ hc :), decide_eq_true (Nat.not_le.1 hlen)⟩

/-- Settles O2, by the rows of the opcode table. -/
theorem encodeInvertsDecode : Obligations.EncodeInvertsDecode := by
  intro c i h
  by_cases h7 : field c.toNat 7 1 = 0
  · exact (decode_row h7).encode_inverts h7 h
  · simp [decode_of_bit7 h7] at h

/-- Each row rejects by its own conditions of R110; those of the other rows ask for another opcode. -/
theorem OpcodeRow.error_iff {c : Command} {r : Except Illegal Instr} (hd : OpcodeRow c r)
    (h7 : field c.toNat 7 1 = 0) : (∃ e, r = .error e) ↔ IllegalWord c := by
  cases hd with
  | reserved hop => exact ⟨fun _ => .inl hop, fun _ => ⟨_, rfl⟩⟩
  | noOperands hop hmem =>
    rw [formatN, check_eq_error]
    fin_cases hmem <;> simp +decide [IllegalWord, hop, h7]
  | immediate hop =>
    rw [formatI, check_eq_error]
    simp +decide [IllegalWord, hop, h7]
  | oneSource hop hmem =>
    rw [decode2, formatR_eq_error]
    fin_cases hmem <;> simp +decide [IllegalWord, hop, h7]
  | twoSources hop hmem =>
    rw [decode3, formatR_eq_error]
    fin_cases hmem <;> simp +decide [IllegalWord, hop, h7]
  | twoResults hop hmem =>
    rw [decodeTwoResults, formatR_eq_error, check_eq_error, fieldsR, regField_eq_iff]
    fin_cases hmem <;> simp +decide [IllegalWord, hop, h7]
  | modular hop hmem =>
    rw [decodeModular, formatR_eq_error, check_eq_error, fieldsR, widthField_eq_w512]
    fin_cases hmem <;> simp +decide [IllegalWord, hop, h7]
  | wholeAccess hop hmem =>
    rw [decodeWholeAccess, formatM_eq, check_eq_error, fieldsM_len_ne_zero]
    fin_cases hmem <;> simp +decide [IllegalWord, hop, h7]
  | countedLoad hop =>
    rw [formatM_eq, check_eq_error, fieldsM, toNat_ofNat_field, bytes_widthField]
    simp +decide [IllegalWord, hop, h7]
  | countedStore hop =>
    rw [formatM_eq, check_eq_error, fieldsM, toNat_ofNat_field, bytes_widthField]
    simp +decide [IllegalWord, hop, h7]

/-- A word is rejected exactly under the conditions of 30_encoding.md R110. -/
theorem decode_eq_error_iff (c : Command) : (∃ e, decode c = .error e) ↔ IllegalWord c := by
  by_cases h7 : field c.toNat 7 1 = 0
  · exact (decode_row h7).error_iff h7
  · have h1 : field c.toNat 7 1 = 1 := by have := field_lt c.toNat 7 1; omega
    exact ⟨fun _ => .inr (.inl h1), fun _ => ⟨_, decode_of_bit7 h7⟩⟩

/-- Settles O4: the fetch of a rejected word is the fault entry of `step`, and no register is asked for. -/
theorem illegalWordsFault : Obligations.IllegalWordsFault := by
  refine fun c => ⟨decode_eq_error_iff c, fun s hc hturns hrun hpc hw => ?_⟩
  obtain ⟨e, he⟩ := (decode_eq_error_iff c).2 hc
  have hf : fetch s = .illegal e := fetch_illegal hpc hw he
  have hstep : step s = .next (s.takeFault .illegalCommand) := by
    rw [step_of_no_turns hturns, blockStep_of_running hrun, sequencerStep, hf]
    rfl
  refine ⟨_, ?_, hstep, .of_takeFault .illegalCommand s⟩
  rw [strictStep_of_no_turns hturns, strictBlockStep_of_no_command (by simp [hf]), ← step_of_no_turns hturns, hstep]

/-- Settles O3, by running the decoder and the encoder on the eight words. -/
theorem workedEncodings : Obligations.WorkedEncodings := by
  unfold Obligations.WorkedEncodings
  decide

end Sys2Proof

/-! ## The bitwise and shift commands (41_bitwise_shift.md) -/

namespace Sys2Proof.Machine

/-! ### The bits of a field -/

theorem wordAt_lt (v i : Nat) : wordAt v i < 2 ^ 64 := bitsAt_lt ..

theorem testBit_trunc (k v j : Nat) : (trunc k v).testBit j = (decide (j < k) && v.testBit j) :=
  Nat.testBit_mod_two_pow v k j

theorem testBit_bitsAt (v lo n j : Nat) : (bitsAt v lo n).testBit j = (decide (j < n) && v.testBit (lo + j)) := by
  rw [bitsAt, Nat.testBit_mod_two_pow, Nat.testBit_div_two_pow, Nat.add_comm]

theorem testBit_wordAt (v i j : Nat) : (wordAt v i).testBit j = (decide (j < 64) && v.testBit (64 * i + j)) :=
  testBit_bitsAt v (64 * i) 64 j

/-- A low half below `2^h` gives the bits below `h` of the joined value, the high half the others. -/
theorem testBit_join {h lo : Nat} (hlo : lo < 2 ^ h) (hi j : Nat) :
    (hi * 2 ^ h + lo).testBit j = if j < h then lo.testBit j else hi.testBit (j - h) := by
  rw [Nat.mul_comm]
  exact Nat.testBit_two_pow_mul_add hi hlo j

end Sys2Proof.Machine

/-! ### The words of a bitwise result (R140 to R143) -/

namespace Sys2Proof.Machine

theorem wordAt_and (a b i : Nat) : wordAt (a &&& b) i = wordAt a i &&& wordAt b i := by
  simp only [wordAt, bitsAt, Nat.and_div_two_pow, Nat.and_mod_two_pow]

theorem wordAt_or (a b i : Nat) : wordAt (a ||| b) i = wordAt a i ||| wordAt b i := by
  simp only [wordAt, bitsAt, Nat.or_div_two_pow, Nat.or_mod_two_pow]

theorem wordAt_xor (a b i : Nat) : wordAt (a ^^^ b) i = wordAt a i ^^^ wordAt b i := by
  simp only [wordAt, bitsAt, Nat.xor_div_two_pow, Nat.xor_mod_two_pow]

/-- Bit for bit, `2^n - 1 - a` is the complement of `a` below `n`. -/
theorem testBit_complement {n a : Nat} (ha : a < 2 ^ n) (j : Nat) :
    (2 ^ n - 1 - a).testBit j = (decide (j < n) && !a.testBit j) := by
  rw [Nat.sub_sub, Nat.add_comm, Nat.testBit_two_pow_sub_succ ha]

theorem wordAt_complement {w : Width} {a i : Nat} (ha : a < 2 ^ w.bits) (hi : i < w.words) :
    wordAt (2 ^ w.bits - 1 - a) i = 2 ^ 64 - 1 - wordAt a i := by
  have hin : ∀ j < 64, 64 * i + j < w.bits := by have := w.bits_eq_words; omega
  refine Nat.eq_of_testBit_eq fun j => ?_
  rw [testBit_wordAt, testBit_complement ha, testBit_complement (wordAt_lt a i), testBit_wordAt]
  by_cases hj : j < 64
  · simp [hj, hin j hj]
  · simp [hj]

theorem complement_lt (w : Width) (a : Nat) : 2 ^ w.bits - 1 - a < 2 ^ w.bits := by
  have := w.two_pow_pos
  omega

/-- The words above N of an N-bit value are 0. -/
theorem wordAt_of_lt {w : Width} {v i : Nat} (hv : v < 2 ^ w.bits) (hi : w.words ≤ i) : wordAt v i = 0 := by
  have hle : w.bits ≤ 64 * i := by have := w.bits_eq_words; omega
  have hlt : v < 2 ^ (64 * i) := Nat.lt_of_lt_of_le hv (Nat.pow_le_pow_right (by decide) hle)
  rw [wordAt, bitsAt, Nat.div_eq_of_lt hlt, Nat.zero_mod]

end Sys2Proof.Machine

/-! ### A command with one result, from its word to the state it answers -/

namespace Sys2Proof

open Machine

/-- A well-formed command that finishes with one N-bit result: its word decodes to it, it completes with `C` unchanged,
and `rd` holds the result. -/
theorem oneResult_spec {i : Instr} {rd : Reg} {s : State} {w : Width} {v : Nat} (hwf : i.wellFormed = true)
    (hexec : exec i s = finish rd v s) (hv : v < 2 ^ w.bits) :
    decode (encode i) = .ok i ∧ ∃ t, exec i s = .next t ∧ Completed [rd] s t ∧ t.carry = s.carry ∧
      (t.reg rd).toNat = v := by
  obtain ⟨t, ht, hcompleted, hreg, hcarry⟩ := finish_spec rd v s
  refine ⟨decodeInvertsEncode i hwf, t, hexec.trans ht, hcompleted, hcarry, ?_⟩
  rw [hreg, BitVec.toNat_ofNat, Nat.mod_eq_of_lt (lt_wide hv)]

/-- `oneResult_spec` with the result given word by word below N. -/
theorem oneResult_words {i : Instr} {rd : Reg} {s : State} {w : Width} {v : Nat} {f : Nat → Nat}
    (hwf : i.wellFormed = true) (hexec : exec i s = finish rd v s) (hv : v < 2 ^ w.bits)
    (hf : ∀ k < w.words, wordAt v k = f k) :
    decode (encode i) = .ok i ∧ ∃ t, exec i s = .next t ∧ Completed [rd] s t ∧ t.carry = s.carry ∧
      ∀ k, k < 8 → wordAt (t.reg rd).toNat k = if k < w.words then f k else 0 := by
  obtain ⟨hdecode, t, ht, hcompleted, hcarry, hreg⟩ := oneResult_spec hwf hexec hv
  refine ⟨hdecode, t, ht, hcompleted, hcarry, fun k _ => ?_⟩
  rw [hreg]
  split
  · exact hf k ‹_›
  · exact wordAt_of_lt hv (Nat.not_lt.1 ‹_›)

/-- Settles O29, word by word from the bits of the operands. -/
theorem bitwiseResults : Obligations.BitwiseResults := by
  intro w rd rs1 rs2 s
  have ha := s.operand_lt w rs1
  have hb := s.operand_lt w rs2
  refine ⟨?and, ?or, ?xor, ?not⟩
  case and =>
    exact oneResult_words (i := .and w rd rs1 rs2) rfl rfl (Nat.and_lt_two_pow _ hb) fun k _ => wordAt_and _ _ k
  case or =>
    exact oneResult_words (i := .or w rd rs1 rs2) rfl rfl (Nat.or_lt_two_pow ha hb) fun k _ => wordAt_or _ _ k
  case xor =>
    exact oneResult_words (i := .xor w rd rs1 rs2) rfl rfl (Nat.xor_lt_two_pow ha hb) fun k _ => wordAt_xor _ _ k
  case not =>
    exact oneResult_words (i := .not w rd rs1) rfl rfl (complement_lt w _) fun k hk => wordAt_complement ha hk

/-- Settles O30: the results of the two shifts are their values at every distance. -/
theorem shiftResults : Obligations.ShiftResults := fun w rd rs1 rs2 s =>
  ⟨oneResult_spec (i := .shl w rd rs1 rs2) rfl rfl (shiftLeft_lt w (s.operand w rs1) (s.operand w rs2)),
    oneResult_spec (i := .shr w rd rs1 rs2) rfl rfl (shiftRight_lt w _ (s.operand w rs2) (s.operand_lt w rs1))⟩

end Sys2Proof

/-! ### The shifts below N, their laws (R150) and their circuits (R147 to R149) -/

namespace Sys2Proof.Machine

section
variable {w : Width} {d : Nat}

theorem shiftLeft_of_lt (a : Nat) (hd : d < w.bits) : shiftLeft w a d = trunc w.bits (a * 2 ^ d) :=
  if_neg (Nat.not_le.2 hd)

theorem shiftRight_of_lt (a : Nat) (hd : d < w.bits) : shiftRight w a d = a / 2 ^ d := if_neg (Nat.not_le.2 hd)

theorem shiftLeft_of_le (a : Nat) (hd : w.bits ≤ d) : shiftLeft w a d = 0 := if_pos hd

theorem shiftRight_of_le (a : Nat) (hd : w.bits ≤ d) : shiftRight w a d = 0 := if_pos hd

end

/-- The top `d` bits are lost to the left; the rest comes back. -/
theorem trunc_mul_div {n d : Nat} (hd : d ≤ n) (x : Nat) : trunc n (x * 2 ^ d) / 2 ^ d = x % 2 ^ (n - d) := by
  rw [trunc, ← Nat.pow_sub_mul_pow 2 hd, Nat.mul_mod_mul_right, Nat.mul_div_cancel _ (Nat.two_pow_pos d)]

/-- The bottom `d` bits are lost to the right; the rest comes back. -/
theorem trunc_div_mul {n x : Nat} (hx : x < 2 ^ n) (d : Nat) : trunc n (x / 2 ^ d * 2 ^ d) = x - x % 2 ^ d := by
  rw [trunc_of_lt (Nat.lt_of_le_of_lt (Nat.div_mul_le_self ..) hx), Nat.div_mul_self_eq_mod_sub_self]

/-- R147's split of a right shift by `h - d`, which may be `h`, into one below `h` and one by 1. -/
theorem div_split {h d : Nat} (hd : d < h) (x : Nat) : x / 2 ^ (h - d - 1) / 2 = x / 2 ^ (h - d) := by
  rw [Nat.div_div_eq_div_mul, ← Nat.pow_succ, Nat.succ_eq_add_one, Nat.sub_add_cancel (by omega)]

/-- The mirror of `div_split` (R148). -/
theorem trunc_mul_split {h d : Nat} (hd : d < h) (x : Nat) :
    trunc h (trunc h (x * 2 ^ (h - d - 1)) * 2) = trunc h (x * 2 ^ (h - d)) := by
  rw [trunc, trunc, Nat.mod_mul_mod, Nat.mul_assoc, ← Nat.pow_succ, Nat.succ_eq_add_one,
    Nat.sub_add_cancel (by omega), trunc]

/-- The left shift on halves is the shift of the whole value, compared bit by bit (R147): for `d` below `h`, a bit of
the high half comes from the high half where it lies `d` or more above the middle, else from the top of the low half. -/
theorem shiftLeftHalves_eq (h a d : Nat) : shiftLeftHalves h a d = trunc (h + h) (a * 2 ^ d) := by
  refine Nat.eq_of_testBit_eq fun j => ?_
  rw [testBit_trunc, Nat.testBit_mul_two_pow]
  simp only [shiftLeftHalves]
  split
  case isTrue hd =>
    rw [div_split hd, testBit_join (trunc_lt ..)]
    simp only [Nat.testBit_or, testBit_trunc, Nat.testBit_mul_two_pow, Nat.testBit_div_two_pow, testBit_bitsAt]
    split
    case isTrue hlow => grind
    case isFalse hhigh =>
      obtain hfromLow | hfromHigh := Nat.lt_or_ge (j - h) d
      · grind
      · grind
  case isFalse hd =>
    rw [Nat.testBit_mul_two_pow, testBit_trunc, Nat.testBit_mul_two_pow, testBit_bitsAt]
    grind

/-- The mirror of `shiftLeftHalves_eq` (R148). `a` has no bits above the two halves that could come down. -/
theorem shiftRightHalves_eq {h a : Nat} (ha : a < 2 ^ (h + h)) (d : Nat) : shiftRightHalves h a d = a / 2 ^ d := by
  have habove : ∀ j, h + h ≤ j → a.testBit j = false := fun j hj =>
    Nat.testBit_lt_two_pow (Nat.lt_of_lt_of_le ha (Nat.pow_le_pow_right (by decide) hj))
  refine Nat.eq_of_testBit_eq fun j => ?_
  rw [Nat.testBit_div_two_pow]
  simp only [shiftRightHalves]
  split
  case isTrue hd =>
    have hlow_lt : bitsAt a 0 h / 2 ^ d < 2 ^ h := Nat.lt_of_le_of_lt (Nat.div_le_self ..) (bitsAt_lt ..)
    rw [trunc_mul_split hd, testBit_join (Nat.or_lt_two_pow hlow_lt (trunc_lt ..))]
    simp only [Nat.testBit_or, testBit_trunc, Nat.testBit_mul_two_pow, Nat.testBit_div_two_pow, testBit_bitsAt]
    split
    case isTrue hlow =>
      obtain hfromLow | hfromHigh := Nat.lt_or_ge (j + d) h
      · grind
      · grind
    case isFalse hhigh => grind
  case isFalse hd =>
    rw [Nat.testBit_div_two_pow, testBit_bitsAt]
    grind

/-- The word shift at every distance: from 64 on, the formulas give the 0 of R149. -/
theorem toNat_wordShift (left : Bool) (x : Word) (d : Nat) :
    (wordShift left x d).toNat = if left then trunc 64 (x.toNat * 2 ^ d) else x.toNat / 2 ^ d := by
  cases left with
  | true => exact (BitVec.toNat_shiftLeft ..).trans (by rw [Nat.shiftLeft_eq]; rfl)
  | false => exact (BitVec.toNat_ushiftRight ..).trans (Nat.shiftRight_eq_div_pow ..)

/-- By induction on the levels: with the shifts of the halves known, a level is the shift on halves. -/
theorem shiftByLevels_eq (k : Nat) {a d : Nat} (ha : a < 2 ^ (64 * 2 ^ k)) (hd : d < 64 * 2 ^ k) :
    shiftByLevels k true a d = trunc (64 * 2 ^ k) (a * 2 ^ d) ∧ shiftByLevels k false a d = a / 2 ^ d := by
  induction k generalizing a d with
  | zero =>
    have hword : (BitVec.ofNat 64 a).toNat = a := by rw [BitVec.toNat_ofNat]; exact Nat.mod_eq_of_lt ha
    simp only [shiftByLevels, toNat_wordShift, hword]
    exact ⟨rfl, rfl⟩
  | succ k ih =>
    have hdouble : 64 * 2 ^ (k + 1) = 64 * 2 ^ k + 64 * 2 ^ k := by omega
    have h1 : 1 < 64 * 2 ^ k := by have := Nat.two_pow_pos k; omega
    rw [hdouble] at ha hd ⊢
    rw [← shiftLeftHalves_eq, ← shiftRightHalves_eq ha]
    simp only [shiftByLevels, shiftLeftHalves, shiftRightHalves]
    generalize 64 * 2 ^ k = h at *
    have hlo := bitsAt_lt a 0 h
    have hhi := bitsAt_lt a h h
    split
    case isTrue hlt =>
      have hrest : h - d - 1 < h := by omega
      have hlo_top := Nat.lt_of_le_of_lt (Nat.div_le_self (bitsAt a 0 h) (2 ^ (h - d - 1))) hlo
      rw [(ih hlo hlt).1, (ih hhi hlt).1, (ih hlo hrest).2, (ih hlo_top h1).2, (ih hhi hlt).2, (ih hlo hlt).2,
        (ih hhi hrest).1, (ih (trunc_lt ..) h1).1, Nat.pow_one]
      exact ⟨rfl, rfl⟩
    case isFalse hge =>
      have hover : d - h < h := by omega
      rw [(ih hlo hover).1, (ih hhi hover).2]
      exact ⟨rfl, rfl⟩

end Sys2Proof.Machine

namespace Sys2Proof

open Machine

/-- Settles O46: below N the bits shifted out are lost and the others come back; from N on nothing is left. -/
theorem shiftLaws : Obligations.ShiftLaws := by
  refine fun w x d hx => ⟨fun hd => ?_, fun hd => ⟨shiftLeft_of_le x hd, shiftRight_of_le x hd⟩⟩
  rw [shiftLeft_of_lt x hd, shiftRight_of_lt x hd, shiftRight_of_lt _ hd, shiftLeft_of_lt _ hd]
  exact ⟨trunc_mul_div (Nat.le_of_lt hd) x, trunc_div_mul hx d⟩

/-- Settles O51: N is two halves, and the shifts on halves are compared with the whole bit by bit. -/
theorem halfShiftersAgree : Obligations.HalfShiftersAgree := by
  intro w a d ha hd
  rw [shiftLeft_of_lt a hd, shiftRight_of_lt a hd]
  rw [w.bits_eq_half] at ha ⊢
  exact ⟨shiftLeftHalves_eq w.half a d, shiftRightHalves_eq ha d⟩

/-- Settles O52, by induction on the levels between a word and N. -/
theorem wordShifterAgrees : Obligations.WordShifterAgrees := by
  intro w a d ha hd
  rw [shiftLeft_of_lt a hd, shiftRight_of_lt a hd]
  rw [w.bits_eq_levels] at ha hd ⊢
  exact shiftByLevels_eq w.levels ha hd

end Sys2Proof

/-! ## The additive commands and comparisons (42_additive.md) -/

/-! ### The order as a borrow (R178) -/

namespace Sys2Proof.Machine

theorem toNat_decide (p : Prop) [Decidable p] : (decide p).toNat = if p then 1 else 0 := by
  by_cases h : p <;> simp [h]

theorem toNat_borrowOf (w : Width) (x y : Nat) : (borrowOf w x y).toNat = if x < y then 1 else 0 := by
  rw [borrowOf_eq, toNat_decide]

/-- No borrow of `x - y` is the other order (R183, R184). -/
theorem one_sub_toNat_borrowOf (w : Width) (x y : Nat) : 1 - (borrowOf w x y).toNat = if y ≤ x then 1 else 0 := by
  rw [toNat_borrowOf]
  split <;> split <;> omega

/-- Exactly one of LT, EQ and GT holds. -/
theorem borrowOf_trichotomy (w : Width) (x y : Nat) :
    (borrowOf w x y).toNat + (decide (x = y)).toNat + (borrowOf w y x).toNat = 1 := by
  rw [toNat_borrowOf, toNat_borrowOf, toNat_decide]
  obtain h | rfl | h := Nat.lt_trichotomy x y
  · simp [h, h.ne, h.not_gt]
  · simp
  · simp [h, h.ne', h.not_gt]

end Sys2Proof.Machine

namespace Sys2Proof

open Machine

/-! ### The commands with a carry flag (R171, R172, R176, R177) -/

/-- A well-formed command that finishes with an N-bit result and a new carry flag: its word decodes to it, it completes,
and `rd` and `C` hold the two. -/
theorem carryResult_spec {i : Instr} {rd : Reg} {s : State} {w : Width} {r : Nat × Bool} (hwf : i.wellFormed = true)
    (hexec : exec i s = finishCarry rd r s) (hr : r.1 < 2 ^ w.bits) :
    decode (encode i) = .ok i ∧ ∃ t, exec i s = .next t ∧ Completed [rd] s t ∧ (t.reg rd).toNat = r.1 ∧
      t.carry = r.2 := by
  obtain ⟨t, ht, hcompleted, hreg, hcarry⟩ := finishCarry_spec rd r s
  refine ⟨decodeInvertsEncode i hwf, t, hexec.trans ht, hcompleted, ?_, hcarry⟩
  exact hreg ▸ (BitVec.toNat_ofNat ..).trans (Nat.mod_eq_of_lt (lt_wide hr))

section
variable {i : Instr} {rd rs1 rs2 : Reg} {s : State} {w : Width} {c : Bool}

/-- A command that adds two operands and a carry in. -/
theorem additionResult_spec (hwf : i.wellFormed = true)
    (hexec : exec i s = finishCarry rd (addWithCarry w (s.operand w rs1) (s.operand w rs2) c) s) :
    decode (encode i) = .ok i ∧ ∃ t, exec i s = .next t ∧ Completed [rd] s t ∧ (t.reg rd).toNat < 2 ^ w.bits ∧
      t.carry.toNat * 2 ^ w.bits + (t.reg rd).toNat = s.operand w rs1 + s.operand w rs2 + c.toNat := by
  have hlt := addWithCarry_fst_lt w (s.operand w rs1) (s.operand w rs2) c
  obtain ⟨hdecode, t, ht, hcompleted, hreg, hcarry⟩ := carryResult_spec hwf hexec hlt
  refine ⟨hdecode, t, ht, hcompleted, hreg ▸ hlt, ?_⟩
  rw [hreg, hcarry]
  exact (addWithCarry_spec w _ _ c (s.operand_lt w rs1) (s.operand_lt w rs2)).symm

/-- A command that subtracts an operand and a borrow in from another operand. -/
theorem subtractionResult_spec (hwf : i.wellFormed = true)
    (hexec : exec i s = finishCarry rd (subWithBorrow w (s.operand w rs1) (s.operand w rs2) c) s) :
    decode (encode i) = .ok i ∧ ∃ t, exec i s = .next t ∧ Completed [rd] s t ∧ (t.reg rd).toNat < 2 ^ w.bits ∧
      (s.operand w rs1 : Int) - s.operand w rs2 - c.toNat = (t.reg rd).toNat - t.carry.toNat * 2 ^ w.bits := by
  have hlt := subWithBorrow_fst_lt w (s.operand w rs1) (s.operand w rs2) c
  obtain ⟨hdecode, t, ht, hcompleted, hreg, hcarry⟩ := carryResult_spec hwf hexec hlt
  refine ⟨hdecode, t, ht, hcompleted, hreg ▸ hlt, ?_⟩
  have hnat := subWithBorrow_spec w _ _ c (s.operand_lt w rs1) (s.operand_lt w rs2)
  rw [← hreg, ← hcarry] at hnat
  zify at hnat
  linarith

end

/-- Settles O31: the two commands differ in their carry in. -/
theorem additionResults : Obligations.AdditionResults := fun w rd rs1 rs2 _ =>
  ⟨additionResult_spec (i := .add w rd rs1 rs2) (c := false) rfl rfl,
    additionResult_spec (i := .adc w rd rs1 rs2) rfl rfl⟩

/-- Settles O32: the two commands differ in their borrow in. -/
theorem subtractionResults : Obligations.SubtractionResults := by
  refine fun w rd rs1 rs2 s => ⟨?sub, subtractionResult_spec (i := .sbb w rd rs1 rs2) rfl rfl⟩
  have hspec := subtractionResult_spec (i := .sub w rd rs1 rs2) (s := s) (c := false) rfl rfl
  simp only [Bool.toNat_false, Nat.cast_zero, sub_zero] at hspec
  exact hspec

/-! ### Negation and the comparisons (R173, R178 to R184) -/

/-- Settles O33: the adder's negation is the complement to 2^N. -/
theorem negationResult : Obligations.NegationResult := fun w rd rs1 s => by
  have hspec := oneResult_spec (i := .neg w rd rs1) (s := s) rfl rfl (negate_lt w (s.operand w rs1))
  rwa [negate_eq w _ (s.operand_lt w rs1)] at hspec

/-- A command whose result is the truth value of `p`. -/
theorem comparison_spec {i : Instr} {rd : Reg} {s : State} {v : Nat} {p : Prop} [Decidable p]
    (hwf : i.wellFormed = true) (hexec : exec i s = finish rd v s) (hv : v = if p then 1 else 0) :
    decode (encode i) = .ok i ∧ ∃ t, exec i s = .next t ∧ Completed [rd] s t ∧ t.carry = s.carry ∧
      (t.reg rd).toNat = if p then 1 else 0 := by
  have hlt : v < 2 ^ Width.w256.bits := by rw [hv]; split <;> simp [Width.bits]
  exact hv ▸ oneResult_spec hwf hexec hlt

/-- Settles O34: the order is read off the borrow of one subtraction or the other. -/
theorem comparisonResults : Obligations.ComparisonResults := by
  intro w rd rs1 rs2 s
  refine ⟨?eq, ?lt, ?gt, ?le, ?ge⟩
  case eq => exact comparison_spec (i := .eq w rd rs1 rs2) rfl rfl (toNat_decide _)
  case lt => exact comparison_spec (i := .lt w rd rs1 rs2) rfl rfl (toNat_borrowOf w _ _)
  case gt => exact comparison_spec (i := .gt w rd rs1 rs2) rfl rfl (toNat_borrowOf w _ _)
  case le => exact comparison_spec (i := .le w rd rs1 rs2) rfl rfl (one_sub_toNat_borrowOf w _ _)
  case ge => exact comparison_spec (i := .ge w rd rs1 rs2) rfl rfl (one_sub_toNat_borrowOf w _ _)

end Sys2Proof

/-! ### The ripple circuits (R170, R175) and the laws (R185) -/

namespace Sys2Proof.Machine

/-- The word loop of the adder meets the adder's contract on arrays of one length. -/
theorem rippleAdd_spec {xs ys : List Word} (h : xs.length = ys.length) (c : Bool) :
    (rippleAdd xs ys c).1.length = xs.length ∧
    value xs + value ys + c.toNat =
      (rippleAdd xs ys c).2.toNat * 2 ^ (64 * xs.length) + value (rippleAdd xs ys c).1 := by
  induction xs generalizing ys c with
  | nil =>
    obtain rfl := List.length_eq_zero_iff.1 h.symm
    simp [rippleAdd, value]
  | cons x xs ih =>
    cases ys with
    | nil => cases h
    | cons y ys =>
      obtain ⟨hlength, hvalue⟩ := ih (Nat.succ.inj h) (addCarry x y c).2
      have hword := addCarry_spec x y c
      have hweight : 64 * (xs.length + 1) = 64 + 64 * xs.length := by omega
      simp only [rippleAdd, value, List.length_cons, hweight, Nat.pow_add, hlength, true_and]
      linear_combination hword + 2 ^ 64 * hvalue

/-- The word loop of the subtracter meets the subtracter's contract on arrays of one length. -/
theorem rippleSub_spec {xs ys : List Word} (h : xs.length = ys.length) (b : Bool) :
    (rippleSub xs ys b).1.length = xs.length ∧
    value xs + (rippleSub xs ys b).2.toNat * 2 ^ (64 * xs.length) =
      value (rippleSub xs ys b).1 + value ys + b.toNat := by
  induction xs generalizing ys b with
  | nil =>
    obtain rfl := List.length_eq_zero_iff.1 h.symm
    simp [rippleSub, value]
  | cons x xs ih =>
    cases ys with
    | nil => cases h
    | cons y ys =>
      obtain ⟨hlength, hvalue⟩ := ih (Nat.succ.inj h) (subBorrow x y b).2
      have hword := subBorrow_spec x y b
      have hweight : 64 * (xs.length + 1) = 64 + 64 * xs.length := by omega
      simp only [rippleSub, value, List.length_cons, hweight, Nat.pow_add, hlength, true_and]
      linear_combination hword + 2 ^ 64 * hvalue

theorem length_toWords_eq (n x y : Nat) : (toWords n x).length = (toWords n y).length := by simp

/-- The words of an N-bit value stand for it. -/
theorem value_toWords_of_lt {w : Width} {v : Nat} (hv : v < 2 ^ w.bits) : value (toWords w.words v) = v := by
  rw [value_toWords, ← w.bits_eq_words, Nat.mod_eq_of_lt hv]

/-- As many words as N holds stand for an N-bit value. -/
theorem value_lt_of_length {w : Width} {a : List Word} (h : a.length = w.words) : value a < 2 ^ w.bits := by
  rw [w.bits_eq_words, ← h]
  exact value_lt a

/-- A carry of weight `n` and a value below `n` are determined by what they stand for. -/
theorem carry_split_unique {n r r' : Nat} {b b' : Bool} (hr : r < n) (hr' : r' < n)
    (h : b.toNat * n + r = b'.toNat * n + r') : b = b' ∧ r = r' := by
  match b, b' with
  | false, false | true, true => exact ⟨rfl, Nat.add_left_cancel h⟩
  | false, true => rw [Bool.toNat_false, Bool.toNat_true] at h; omega
  | true, false => rw [Bool.toNat_false, Bool.toNat_true] at h; omega

section
variable {w : Width} {x y : Nat} {c : Bool} {r : Nat × Bool}

/-- The adder's contract has one solution. -/
theorem eq_addWithCarry (hx : x < 2 ^ w.bits) (hy : y < 2 ^ w.bits) (hr : r.1 < 2 ^ w.bits)
    (h : x + y + c.toNat = r.2.toNat * 2 ^ w.bits + r.1) : r = addWithCarry w x y c := by
  have hspec := addWithCarry_spec w x y c hx hy
  obtain ⟨hcarry, hsum⟩ := carry_split_unique hr (addWithCarry_fst_lt w x y c) (h.symm.trans hspec)
  exact Prod.ext hsum hcarry

/-- The subtracter's contract has one solution. -/
theorem eq_subWithBorrow (hx : x < 2 ^ w.bits) (hy : y < 2 ^ w.bits) (hr : r.1 < 2 ^ w.bits)
    (h : x + r.2.toNat * 2 ^ w.bits = r.1 + y + c.toNat) : r = subWithBorrow w x y c := by
  have hspec := subWithBorrow_spec w x y c hx hy
  obtain ⟨hborrow, hdiff⟩ := carry_split_unique (subWithBorrow_fst_lt w x y c) hr (b := r.2)
    (b' := (subWithBorrow w x y c).2) (by omega)
  exact Prod.ext hdiff.symm hborrow

theorem adderCircuit_eq (hx : x < 2 ^ w.bits) (hy : y < 2 ^ w.bits) :
    adderCircuit w x y c = addWithCarry w x y c := by
  obtain ⟨hlength, hvalue⟩ := rippleAdd_spec (length_toWords_eq w.words x y) c
  rw [length_toWords] at hlength hvalue
  rw [value_toWords_of_lt hx, value_toWords_of_lt hy, ← w.bits_eq_words] at hvalue
  exact eq_addWithCarry hx hy (value_lt_of_length hlength) hvalue

theorem subtracterCircuit_eq (hx : x < 2 ^ w.bits) (hy : y < 2 ^ w.bits) :
    subtracterCircuit w x y c = subWithBorrow w x y c := by
  obtain ⟨hlength, hvalue⟩ := rippleSub_spec (length_toWords_eq w.words x y) c
  rw [length_toWords] at hlength hvalue
  rw [value_toWords_of_lt hx, value_toWords_of_lt hy, ← w.bits_eq_words] at hvalue
  exact eq_subWithBorrow hx hy (value_lt_of_length hlength) hvalue

end

/-- Without a carry in, the sum is addition modulo 2^N. -/
theorem addWithCarry_false_fst (w : Width) (x y : Nat) : (addWithCarry w x y false).1 = (x + y) % 2 ^ w.bits := rfl

/-- Without a borrow in, the difference is the sum with the complement to 2^N. -/
theorem subWithBorrow_false_fst (w : Width) (x : Nat) {y : Nat} (hy : y < 2 ^ w.bits) :
    (subWithBorrow w x y false).1 = (x + (2 ^ w.bits - y)) % 2 ^ w.bits := by
  have hsum : 2 ^ w.bits + x - y = x + (2 ^ w.bits - y) := by omega
  rw [subWithBorrow, trunc, Bool.toNat_false, Nat.add_zero, hsum]

end Sys2Proof.Machine

namespace Sys2Proof

open Machine

/-- Settles O50: each circuit's word loop satisfies the contract, which has one solution. -/
theorem rippleUnitsMeetContracts : Obligations.RippleUnitsMeetContracts := fun _ _ _ _ hx hy =>
  ⟨adderCircuit_eq hx hy, subtracterCircuit_eq hx hy⟩

/-- Settles O47: the laws of the sum are those of addition modulo 2^N. -/
theorem additiveLaws : Obligations.AdditiveLaws := by
  intro w a b c ha hb _
  simp only [addWithCarry_false_fst, negate_eq w a ha, negate_eq w b hb, trunc, Nat.mod_add_mod, Nat.add_mod_mod]
  refine ⟨?assoc, ?identity, ?inverse, subWithBorrow_false_fst w a hb, borrowOf_trichotomy w a b⟩
  case assoc => rw [Nat.add_assoc]
  case identity => exact Nat.mod_eq_of_lt ha
  case inverse => rw [Nat.add_sub_cancel' ha.le, Nat.mod_self]

end Sys2Proof

/-! ## Moves, byte images and serialization (43_move_and_serialization.md) -/

namespace Sys2Proof

theorem Width.bytes_le (w : Width) : w.bytes ≤ 64 := by cases w <;> decide

theorem Width.bytes_eq_words (w : Width) : w.bytes = 8 * w.words := by cases w <;> rfl

end Sys2Proof

/-! ### Byte images and the numbers they stand for (R204, R206, R209) -/

namespace Sys2Proof.Machine

/-- As many bytes as `n` are the little-endian image of the number they stand for. -/
theorem leImage_ofLe_of_length {n : Nat} {bs : List Byte} (h : bs.length = n) : leImage n (ofLe bs) = bs :=
  h ▸ leImage_ofLe bs

/-- The `n` bytes of an image do not see what is above them. -/
theorem beImage_mod (n v : Nat) : beImage n (v % 2 ^ (8 * n)) = beImage n v := by
  rw [beImage_eq_reverse, ← ofLe_leImage, leImage_ofLe_of_length (length_leImage n v), ← beImage_eq_reverse]

/-- A big-endian image is the image of the high bytes and then that of the low bytes. -/
theorem beImage_add (m n v : Nat) : beImage (m + n) v = beImage m (v / 2 ^ (8 * n)) ++ beImage n v := by
  simp only [beImage, List.range_add, List.map_append, List.map_map]
  congr 1
  · refine List.map_congr_left fun k hk => ?_
    have hk' : k < m := List.mem_range.1 hk
    have hexp : 8 * (m + n - 1 - k) = 8 * n + 8 * (m - 1 - k) := by omega
    rw [Nat.div_div_eq_div_mul, ← Nat.pow_add, hexp]
  · refine List.map_congr_left fun k _ => ?_
    have hexp : m + n - 1 - (m + k) = n - 1 - k := by omega
    rw [Function.comp_apply, hexp]

theorem ofLe_append (as bs : List Byte) : ofLe (as ++ bs) = ofLe as + 2 ^ (8 * as.length) * ofLe bs := by
  induction as with
  | nil => simp [ofLe]
  | cons a as ih =>
    have hweight : 8 * (as.length + 1) = 8 + 8 * as.length := by omega
    rw [List.cons_append, ofLe, ofLe, ih, List.length_cons, hweight, Nat.pow_add]
    ring

/-- The sum of R204. -/
theorem ofLe_map_range (b : Nat → Byte) (n : Nat) :
    ofLe ((List.range n).map b) = Finset.sum (Finset.range n) fun k => (b k).toNat * 2 ^ (8 * k) := by
  induction n with
  | zero => rfl
  | succ n ih =>
    rw [List.range_succ, List.map_append, ofLe_append, ih, Finset.sum_range_succ]
    simp [ofLe, Nat.mul_comm]

/-- The sum of R206: the same bytes with the weights in reverse order. -/
theorem ofBe_map_range (b : Nat → Byte) (n : Nat) :
    ofBe ((List.range (n + 1)).map b) =
      Finset.sum (Finset.range (n + 1)) fun k => (b k).toNat * 2 ^ (8 * (n - k)) := by
  have hreverse : ((List.range (n + 1)).map b).reverse = (List.range (n + 1)).map fun k => b (n - k) :=
    List.ext_getElem (by simp) fun k _ _ => by simp
  rw [ofBe, hreverse, ofLe_map_range, ← Finset.sum_range_reflect]
  refine Finset.sum_congr rfl fun k hk => ?_
  have hk' : n - (n - k) = k := Nat.sub_sub_self (Nat.lt_succ_iff.1 (Finset.mem_range.1 hk))
  rw [Nat.add_sub_cancel, hk']

theorem toNat_ofNat_div (v lo n : Nat) : (BitVec.ofNat n (v / 2 ^ lo)).toNat = bitsAt v lo n := BitVec.toNat_ofNat ..

theorem ofNat_bitsAt (v lo n : Nat) : BitVec.ofNat n (bitsAt v lo n) = BitVec.ofNat n (v / 2 ^ lo) :=
  BitVec.eq_of_toNat_eq (by rw [BitVec.toNat_ofNat, toNat_ofNat_div, Nat.mod_eq_of_lt (bitsAt_lt ..)])

/-- Nothing is above the top of a value. -/
theorem bitsAt_of_lt {v lo : Nat} (h : v < 2 ^ lo) (n : Nat) : bitsAt v lo n = 0 := by
  rw [bitsAt, Nat.div_eq_of_lt h, Nat.zero_mod]

/-! ### The two forms of BSWAP (R209) -/

theorem bitsAt_byteSwap {w : Width} {k : Nat} (hk : k < w.bytes) (a : Nat) :
    bitsAt (byteSwap w a) (8 * k) 8 = bitsAt a (8 * (w.bytes - 1 - k)) 8 := by
  have himage : beImage w.bytes a = leImage w.bytes (byteSwap w a) :=
    (leImage_ofLe_of_length (length_beImage w.bytes a)).symm
  have hbyte := congrArg (fun bs => bs[k]?) himage
  rw [getElem?_beImage _ _ _ hk, getElem?_leImage _ _ _ hk, Option.some.injEq] at hbyte
  rw [← toNat_ofNat_div, ← toNat_ofNat_div, hbyte]

theorem bitsAt_byteSwap_above {w : Width} {k : Nat} (hk : w.bytes ≤ k) (a : Nat) :
    bitsAt (byteSwap w a) (8 * k) 8 = 0 := by
  have hle : w.bits ≤ 8 * k := by have := w.bits_eq_bytes; omega
  exact bitsAt_of_lt (Nat.lt_of_lt_of_le (byteSwap_lt w a) (Nat.pow_le_pow_right (by decide) hle)) 8

/-- By induction on the words: the lowest word of `a`, byte-swapped, becomes the highest of the result. -/
theorem value_reverse_map_bswap64 (n a : Nat) :
    value ((toWords n a).reverse.map bswap64) = ofLe (beImage (8 * n) a) := by
  induction n generalizing a with
  | zero => rfl
  | succ n ih =>
    have hlow : (bswap64 (BitVec.ofNat 64 a)).toNat = ofLe (beImage 8 a) := by
      rw [toNat_bswap64, BitVec.toNat_ofNat]
      exact congrArg ofLe (beImage_mod 8 a)
    have hweight : 8 * (8 * n) = 64 * n := by omega
    rw [toWords, List.reverse_cons, List.map_append, value_append, ih, Nat.mul_succ, beImage_add, ofLe_append]
    simp [value, hlow, hweight]

theorem byteSwap_eq_byteSwapByWords (w : Width) (a : Nat) : byteSwap w a = byteSwapByWords w a := by
  rw [byteSwap, byteSwapByWords, w.bytes_eq_words, value_reverse_map_bswap64]

theorem byteSwap_byteSwap {w : Width} {a : Nat} (ha : a < 2 ^ w.bits) : byteSwap w (byteSwap w a) = a := by
  rw [byteSwap, byteSwap, beImage_eq_reverse, leImage_ofLe_of_length (length_beImage w.bytes a), beImage_eq_reverse,
    List.reverse_reverse, ofLe_leImage, ← w.bits_eq_bytes, Nat.mod_eq_of_lt ha]

/-! ### What the commands write (R200 to R203) -/

/-- The low half of an operand is the low half of the register. -/
theorem trunc_half_operand (s : State) (w : Width) (r : Reg) :
    trunc w.half (s.operand w r) = (s.reg r).toNat % 2 ^ w.half :=
  Nat.mod_mod_of_dvd _ (Nat.pow_dvd_pow 2 (by rw [w.bits_eq_half]; omega))

theorem join_lt {h hi lo : Nat} (hhi : hi < 2 ^ h) (hlo : lo < 2 ^ h) : hi * 2 ^ h + lo < 2 ^ (h + h) := by
  rw [Nat.pow_add]
  nlinarith

theorem byteCount_le (len : BitVec 6) : byteCount len ≤ 64 := len.isLt

/-- A result that fits the register is what `rd` holds when the command has completed. -/
theorem finish_value (rd : Reg) {v : Nat} (hv : v < 2 ^ 512) (s : State) :
    ∃ t, finish rd v s = .next t ∧ Completed [rd] s t ∧ t.carry = s.carry ∧ (t.reg rd).toNat = v := by
  obtain ⟨t, ht, hcompleted, hreg, hcarry⟩ := finish_spec rd v s
  exact ⟨t, ht, hcompleted, hcarry, hreg ▸ (BitVec.toNat_ofNat ..).trans (Nat.mod_eq_of_lt hv)⟩

section
variable {n : Nat} {addr : BitVec 14} {s : State} {value : List Byte → Nat} {bs : List Byte}

/-- A load in range of the bytes `b` completes with the value they stand for, which has no more bytes than were read. -/
theorem load_spec (hn : n ≤ 64) (hvalue : ∀ bs, value bs < 2 ^ (8 * bs.length)) (rd : Reg)
    (hr : addr.toNat + n ≤ Config.dmemBytes) {b : Nat → Byte}
    (hb : ∀ k, k < n → s.dmemByte (addr.toNat + k) = some (b k)) :
    ∃ t, load n value rd addr s = .next t ∧ Completed [rd] s t ∧ t.carry = s.carry ∧
      (t.reg rd).toNat = value ((List.range n).map b) := by
  have hread : Memory.readRange s.dmem addr.toNat n = .ok ((List.range n).map b) :=
    (Memory.readRange_eq_ok ..).2 ⟨by simp, fun k hk => (hb k hk).trans (by simp [hk])⟩
  have hlt : value ((List.range n).map b) < 2 ^ 512 :=
    Nat.lt_of_lt_of_le (hvalue _) (Nat.pow_le_pow_right (by decide) (by rw [List.length_map, List.length_range]; omega))
  rw [load_ok n value rd addr s _ hr hread]
  exact finish_value rd hlt s

theorem store_of_in_range (hr : addr.toNat + bs.length ≤ Config.dmemBytes) :
    store bs addr s = .next { s with dmem := Memory.writeRange s.dmem addr.toNat bs }.advance :=
  if_neg (Nat.not_lt.2 hr)

/-- A store in range of an image of `n` bytes completes, and the bytes of the image read back. -/
theorem store_spec (hlength : bs.length = n) {byte : Nat → Byte} (hbyte : ∀ k < n, bs[k]? = some (byte k))
    (hr : addr.toNat + n ≤ Config.dmemBytes) :
    ∃ t bs', store bs addr s = .next t ∧ bs'.length = n ∧ Stored addr.toNat bs' s t ∧
      ∀ k, k < n → t.dmemByte (addr.toNat + k) = some (byte k) := by
  subst hlength
  refine ⟨_, bs, store_of_in_range hr, rfl, Stored.of_writeRange s addr.toNat bs, fun k hk => ?_⟩
  exact (Memory.read_writeRange_inside bs s.dmem addr.toNat k hk).trans (hbyte k hk)

/-- A load reads back the bytes that a store in range has written at the same address. -/
theorem load_after_store (hlength : bs.length = n) (hr : addr.toNat + n ≤ Config.dmemBytes) (rd : Reg) {v : Nat}
    (hvalue : value bs = v) (hv : v < 2 ^ 512) :
    ∃ t u, store bs addr s = .next t ∧ load n value rd addr t = .next u ∧ (u.reg rd).toNat = v := by
  subst hlength hvalue
  have hread : Memory.readRange (Memory.writeRange s.dmem addr.toNat bs) addr.toNat bs.length = .ok bs :=
    (Memory.readRange_eq_ok ..).2 ⟨rfl, fun k hk => Memory.read_writeRange_inside bs s.dmem addr.toNat k hk⟩
  obtain ⟨u, hu, -, -, hreg⟩ := finish_value rd hv { s with dmem := Memory.writeRange s.dmem addr.toNat bs }.advance
  exact ⟨_, u, store_of_in_range hr, (load_ok _ value rd addr _ bs hr hread).trans hu, hreg⟩

end

end Sys2Proof.Machine

namespace Sys2Proof

open Machine

/-- The word of an instruction that is not well formed is illegal (30_encoding.md R110 conditions 7, 10 and 11). -/
theorem decode_encode_of_not_wellFormed {i : Instr} (hi : i.wellFormed = false) :
    ∃ e, decode (encode i) = .error e := by
  cases i with
  | umul | udivrem | sdivrem =>
    refine ⟨.equalDestinations, ?_⟩
    simp [encode, decode, opcode_encodeR, decodeTwoResults, formatR_encodeR, of_decide_eq_false hi]
  | ldbe w rr len addr =>
    have hlen : w.bytes ≤ len.toNat := Nat.not_lt.1 (of_decide_eq_false hi)
    refine ⟨.loadTooLong, ?_⟩
    simp [encode, decode, opcode_encodeM, addr.isLt, len.isLt, formatM_encodeM, hlen]
  | truncbe w rr len addr =>
    have hlen : w.bytes ≤ len.toNat + 1 := Nat.not_lt.1 (of_decide_eq_false hi)
    refine ⟨.truncationTooLong, ?_⟩
    simp [encode, decode, opcode_encodeM, addr.isLt, len.isLt, formatM_encodeM, hlen]
  | _ => cases hi

/-- Settles O35: each result is below 2^N, and the halves that `PAIR` joins are those of the registers. -/
theorem moveResults : Obligations.MoveResults := by
  intro w rd rs1 rs2 imm16 s
  refine ⟨oneResult_spec (i := .mov w rd rs1) rfl rfl (s.operand_lt w rs1), ?li, ?pair⟩
  case li =>
    have hlt : imm16.toNat < 2 ^ Width.w256.bits :=
      Nat.lt_of_lt_of_le imm16.isLt (Nat.pow_le_pow_right (by decide) (by decide))
    exact oneResult_spec (i := .li w rd imm16) rfl rfl hlt
  case pair =>
    have hlt := join_lt (trunc_lt w.half (s.operand w rs1)) (trunc_lt w.half (s.operand w rs2))
    rw [← w.bits_eq_half] at hlt
    rw [← trunc_half_operand s w rs1, ← trunc_half_operand s w rs2]
    exact oneResult_spec (i := .pair w rd rs1 rs2) rfl rfl hlt

/-- Settles O36, byte by byte from the big-endian image and word by word by induction on the words. -/
theorem byteSwapResult : Obligations.ByteSwapResult := by
  intro w rd rs1 s
  obtain ⟨hdecode, t, ht, hcompleted, hcarry, hreg⟩ :=
    oneResult_spec (i := .bswap w rd rs1) (s := s) rfl rfl (byteSwap_lt w (s.operand w rs1))
  refine ⟨hdecode, t, ht, hcompleted, hcarry, fun k _ => ?_, hreg.trans (byteSwap_eq_byteSwapByWords w _)⟩
  rw [hreg]
  split
  · exact bitsAt_byteSwap ‹_› _
  · exact bitsAt_byteSwap_above (Nat.not_lt.1 ‹_›) _

/-- Settles O37: out of range by O39's fault entry, in range by the sum that a list of bytes stands for. -/
theorem loadResults : Obligations.LoadResults := by
  intro w rr len addr s b
  refine ⟨⟨decodeInvertsEncode (.ldle w rr addr) rfl,
      fun h => decodeInvertsEncode (.ldbe w rr len addr) (decide_eq_true h),
      fun h => decode_encode_of_not_wellFormed (i := .ldbe w rr len addr) (decide_eq_false (Nat.not_le.2 h))⟩,
    outOfRangeAccessFaults (.ldle w rr addr) s _ _ (.inl rfl),
    outOfRangeAccessFaults (.ldbe w rr len addr) s _ _ (.inl rfl), fun hr hb => ?ldle, fun hr hb => ?ldbe⟩
  case ldle =>
    rw [← ofLe_map_range]
    exact load_spec w.bytes_le ofLe_lt rr hr hb
  case ldbe =>
    rw [← ofBe_map_range]
    exact load_spec (byteCount_le len) ofBe_lt rr hr hb

/-- Settles O38: out of range by O39's fault entry, in range by the bytes of the operand's image. -/
theorem storeResults : Obligations.StoreResults := by
  intro w rr len addr s
  refine ⟨⟨decodeInvertsEncode (.stle w rr addr) rfl, decodeInvertsEncode (.stbe w rr addr) rfl,
      fun h => decodeInvertsEncode (.truncbe w rr len addr) (decide_eq_true h),
      fun h => decode_encode_of_not_wellFormed (i := .truncbe w rr len addr) (decide_eq_false (Nat.not_lt.2 h))⟩,
    fun h => ⟨outOfRangeAccessFaults (.stle w rr addr) s _ _ (.inr rfl) h,
      outOfRangeAccessFaults (.stbe w rr addr) s _ _ (.inr rfl) h⟩,
    outOfRangeAccessFaults (.truncbe w rr len addr) s _ _ (.inr rfl),
    fun hr => ⟨store_spec (length_leImage ..) (fun k hk => ?stle) hr,
      store_spec (length_beImage ..) (fun k hk => ?stbe) hr⟩,
    fun hr => store_spec (length_beImage ..) (fun k hk => ?truncbe) hr⟩
  case stle => rw [ofNat_bitsAt, getElem?_leImage _ _ _ hk]
  case stbe =>
    have hbit : w.bits - 8 - 8 * k = 8 * (w.bytes - 1 - k) := by have := w.bits_eq_bytes; omega
    rw [ofNat_bitsAt, getElem?_beImage _ _ _ hk, hbit]
  case truncbe =>
    rw [ofNat_bitsAt]
    exact getElem?_beImage _ _ _ hk

/-- Settles O49: the bytes read are the bytes written, and reading an image back gives the low bytes of the value. -/
theorem storeThenLoadRoundTrips : Obligations.StoreThenLoadRoundTrips := by
  intro w rs rd len addr s
  have hop := s.operand_lt w rs
  have hwhole : s.operand w rs % 2 ^ (8 * w.bytes) = s.operand w rs := by
    rw [← w.bits_eq_bytes, Nat.mod_eq_of_lt hop]
  refine ⟨fun hr => ?le, fun hr hlen => ?be, fun hr _ => ?truncated, ?bswap⟩
  case le =>
    exact load_after_store (length_leImage ..) hr rd ((ofLe_leImage ..).trans hwhole) (lt_wide hop)
  case be =>
    exact load_after_store ((length_beImage ..).trans hlen.symm) (hlen ▸ hr) rd ((ofBe_beImage ..).trans hwhole)
      (lt_wide hop)
  case truncated =>
    exact load_after_store (length_beImage ..) hr rd (ofBe_beImage ..)
      (Nat.lt_of_le_of_lt (Nat.mod_le ..) (lt_wide hop))
  case bswap =>
    have hlt := byteSwap_lt w (s.operand w rs)
    obtain ⟨t, ht, -, -, hreg⟩ := finish_value rd (lt_wide hlt) s
    have hswapped : t.operand w rd = byteSwap w (s.operand w rs) := by rw [State.operand, hreg, trunc_of_lt hlt]
    obtain ⟨u, hu, -, -, hreg'⟩ := finish_value rd (lt_wide (byteSwap_lt w (t.operand w rd))) t
    refine ⟨t, u, ht, hu, ?_⟩
    rw [hreg', hswapped, byteSwap_byteSwap hop]

end Sys2Proof

/-! ## The multiplicative commands (44_multiply.md) -/

/-! ### The loop multipliers on words (R232, R237) -/

namespace Sys2Proof.Machine

/-- Reduction to `n + 1` words leaves the lowest word and reduces what stands above it to `n` words. -/
theorem word_add_mod {r : Nat} (hr : r < 2 ^ 64) (a n : Nat) :
    (r + 2 ^ 64 * a) % 2 ^ (64 * (n + 1)) = r + 2 ^ 64 * (a % 2 ^ (64 * n)) := by
  rw [Nat.mul_succ, Nat.add_comm (64 * n), Nat.pow_add, Nat.mod_mul, Nat.add_mul_mod_self_left, Nat.mod_eq_of_lt hr,
    Nat.add_mul_div_left _ _ (by decide), Nat.div_eq_of_lt hr, Nat.zero_add]

/-- A word product with a word and a carry added to it fits in two words (R232). -/
theorem mul_add_add_lt {a b c d n : Nat} (ha : a < n) (hb : b < n) (hc : c < n) (hd : d < n) :
    a * b + c + d < n * n := by
  obtain ⟨m, rfl⟩ : ∃ m, n = m + 1 := ⟨n - 1, by omega⟩
  have hab : a * b ≤ m * m := Nat.mul_le_mul (Nat.le_of_lt_succ ha) (Nat.le_of_lt_succ hb)
  have hsquare : (m + 1) * (m + 1) = m * m + m + m + 1 := by ring
  omega

theorem value_replicate_zero (n : Nat) : value (List.replicate n 0) = 0 := by
  induction n with
  | zero => rfl
  | succ n ih => rw [List.replicate_succ, value, ih]; rfl

@[simp] theorem multiplyRow_nil (xs : List Word) (y k : Word) : multiplyRow xs y [] k = [] := by
  cases xs <;> rfl

@[simp] theorem length_multiplyRow (xs : List Word) (y : Word) (ps : List Word) (k : Word) :
    (multiplyRow xs y ps k).length = ps.length := by
  induction xs generalizing ps k with
  | nil => cases ps <;> rfl
  | cons x xs ih =>
    cases ps with
    | nil => rfl
    | cons p ps => simp [multiplyRow, ih]

/-- A row adds `xs * y` and the carry in to the words of the product from its position on, modulo their number. Nothing
may stand above the row: the carry out is written there, not added. -/
theorem value_multiplyRow {xs ps : List Word} (y k : Word) (h : value ps < 2 ^ (64 * xs.length)) :
    value (multiplyRow xs y ps k) = (value xs * y.toNat + value ps + k.toNat) % 2 ^ (64 * ps.length) := by
  induction xs generalizing ps k with
  | nil =>
    cases ps with
    | nil => simp [value, Nat.mod_one]
    | cons p ps =>
      obtain ⟨hp, hps⟩ : p.toNat = 0 ∧ value ps = 0 := by
        simp only [value, List.length_nil] at h
        omega
      have hk := word_add_mod k.isLt 0 ps.length
      rw [multiplyRow, value, value, value, hp, hps]
      simpa using hk.symm
  | cons x xs ih =>
    cases ps with
    | nil => simp [value, Nat.mod_one]
    | cons p ps =>
      have hps : value ps < 2 ^ (64 * xs.length) := by
        have hweight : 64 * (xs.length + 1) = 64 + 64 * xs.length := by omega
        rw [value, List.length_cons, hweight, Nat.pow_add] at h
        omega
      have ht := mul_add_add_lt x.isLt y.isLt p.isLt k.isLt
      simp only [multiplyRow, value, List.length_cons]
      generalize htsum : x.toNat * y.toNat + p.toNat + k.toNat = t at ht ⊢
      have hcarry : t / 2 ^ 64 < 2 ^ 64 := Nat.div_lt_of_lt_mul ht
      have hsplit : (x.toNat + 2 ^ 64 * value xs) * y.toNat + (p.toNat + 2 ^ 64 * value ps) + k.toNat =
          t % 2 ^ 64 + 2 ^ 64 * (value xs * y.toNat + value ps + t / 2 ^ 64) := by
        linear_combination htsum - Nat.mod_add_div t (2 ^ 64)
      rw [hsplit, word_add_mod (Nat.mod_lt _ (by decide)), ih _ hps, BitVec.toNat_ofNat, BitVec.toNat_ofNat,
        Nat.mod_eq_of_lt hcarry]

/-- After a row, what stands above its lowest word again fits in as many words as the first factor has. -/
theorem value_tail_lt_of_multiplyRow {xs ps rs : List Word} {y r : Word} (h : value ps < 2 ^ (64 * xs.length))
    (hrow : multiplyRow xs y ps 0 = r :: rs) : value rs < 2 ^ (64 * xs.length) := by
  have hvalue := value_multiplyRow y 0 h
  have hle : r.toNat + 2 ^ 64 * value rs ≤ value xs * y.toNat + value ps := by
    rw [hrow, value] at hvalue
    rw [hvalue]
    exact Nat.mod_le ..
  have hxs : value xs * y.toNat ≤ 2 ^ (64 * xs.length) * y.toNat := Nat.mul_le_mul_right _ (value_lt xs).le
  have hy := y.isLt
  have hlt : 2 ^ (64 * xs.length) * y.toNat + 2 ^ (64 * xs.length) ≤ 2 ^ (64 * xs.length) * 2 ^ 64 := by
    rw [← Nat.mul_succ]
    exact Nat.mul_le_mul_left _ hy
  omega

/-- The rows add the product of the factors to the words of `ps`, modulo their number. -/
theorem value_multiplyRows {xs ps : List Word} (ys : List Word) (h : value ps < 2 ^ (64 * xs.length)) :
    value (multiplyRows xs ys ps) = (value xs * value ys + value ps) % 2 ^ (64 * ps.length) := by
  induction ys generalizing ps with
  | nil => simp [multiplyRows, value, Nat.mod_eq_of_lt (value_lt ps)]
  | cons y ys ih =>
    have hlength := length_multiplyRow xs y ps 0
    have hvalue := value_multiplyRow y 0 h
    cases hrow : multiplyRow xs y ps 0 with
    | nil =>
      rw [hrow] at hlength
      rw [multiplyRows, hrow, ← hlength]
      exact (Nat.mod_one _).symm
    | cons r rs =>
      rw [hrow, List.length_cons] at hlength
      rw [hrow, value] at hvalue
      have hrest := ih (value_tail_lt_of_multiplyRow h hrow)
      calc value (multiplyRows xs (y :: ys) ps)
          = r.toNat + 2 ^ 64 * value (multiplyRows xs ys rs) := by simp only [multiplyRows, hrow, value]
        _ = (r.toNat + 2 ^ 64 * (value xs * value ys + value rs)) % 2 ^ (64 * ps.length) := by
          rw [hrest, ← hlength, word_add_mod r.isLt]
        _ = (2 ^ 64 * (value xs * value ys) + (r.toNat + 2 ^ 64 * value rs)) % 2 ^ (64 * ps.length) := by
          congr 1
          ring
        _ = (2 ^ 64 * (value xs * value ys) + (value xs * y.toNat + value ps)) % 2 ^ (64 * ps.length) := by
          rw [hvalue, Nat.add_mod_mod]
          rfl
        _ = (value xs * value (y :: ys) + value ps) % 2 ^ (64 * ps.length) := by
          rw [value]
          congr 1
          ring

/-- The last position of R237, which produces no carry, is computed as every other. -/
theorem truncatedRow_cons (x : Word) (xs : List Word) (y p : Word) (ps : List Word) (k : Word) :
    truncatedRow (x :: xs) y (p :: ps) k =
      BitVec.ofNat 64 (x.toNat * y.toNat + p.toNat + k.toNat) ::
        truncatedRow xs y ps (BitVec.ofNat 64 ((x.toNat * y.toNat + p.toNat + k.toNat) / 2 ^ 64)) := by
  cases ps with
  | nil => cases xs <;> simp [truncatedRow, Nat.add_comm p.toNat]
  | cons q qs => rfl

/-- Where the product ends before the row does, the rows of R237 and R232 are the same. -/
theorem truncatedRow_eq_multiplyRow {xs ps : List Word} (h : ps.length ≤ xs.length) (y k : Word) :
    truncatedRow xs y ps k = multiplyRow xs y ps k := by
  induction xs generalizing ps k with
  | nil =>
    obtain rfl : ps = [] := List.length_eq_zero_iff.1 (Nat.le_zero.1 h)
    rfl
  | cons x xs ih =>
    cases ps with
    | nil => simp [truncatedRow]
    | cons p ps => rw [truncatedRow_cons, multiplyRow, ih (Nat.le_of_succ_le_succ h)]

/-- Truncated multiplication is the loop of R232 on a product array no longer than the first factor. -/
theorem truncatedRows_eq_multiplyRows {xs ps : List Word} (h : ps.length ≤ xs.length) (ys : List Word) :
    truncatedRows xs ys ps = multiplyRows xs ys ps := by
  induction ys generalizing ps with
  | nil => rfl
  | cons y ys ih =>
    have hlength := length_multiplyRow xs y ps 0
    rw [truncatedRows, multiplyRows, truncatedRow_eq_multiplyRow h]
    cases hrow : multiplyRow xs y ps 0 with
    | nil => rfl
    | cons r rs =>
      rw [hrow, List.length_cons] at hlength
      exact congrArg (r :: ·) (ih (by omega))

section
variable {w : Width} {x y : Nat}

/-- The loop of R232 on `m` zero words gives the low `m` words of the product. -/
theorem value_multiplyRows_toWords (hx : x < 2 ^ w.bits) (hy : y < 2 ^ w.bits) (m : Nat) :
    value (multiplyRows (toWords w.words x) (toWords w.words y) (List.replicate m 0)) = x * y % 2 ^ (64 * m) := by
  have hzero : value (List.replicate m 0) < 2 ^ (64 * (toWords w.words x).length) := by
    rw [value_replicate_zero]
    exact Nat.two_pow_pos _
  rw [value_multiplyRows _ hzero, value_toWords_of_lt hx, value_toWords_of_lt hy, value_replicate_zero, Nat.add_zero,
    List.length_replicate]

theorem umulByLoop_eq (hx : x < 2 ^ w.bits) (hy : y < 2 ^ w.bits) : umulByLoop w x y = x * y := by
  rw [umulByLoop, value_multiplyRows_toWords hx hy, Nat.mul_add, ← w.bits_eq_words, Nat.pow_add]
  exact Nat.mod_eq_of_lt (Nat.mul_lt_mul'' hx hy)

theorem mulByLoop_eq (hx : x < 2 ^ w.bits) (hy : y < 2 ^ w.bits) : mulByLoop w x y = x * y % 2 ^ w.bits := by
  rw [mulByLoop, truncatedRows_eq_multiplyRows (by simp), value_multiplyRows_toWords hx hy, ← w.bits_eq_words]

end

end Sys2Proof.Machine

/-! ### The circuits on halves: the recursive multiplier (R231) and squaring (R239) -/

namespace Sys2Proof.Machine

/-- One level of R231: the product from the four products of the halves. -/
def joinHalfProducts (h t0 t1 t2 t3 : Nat) : Nat :=
  let u1 := t1 + bitsAt t0 h h
  let u2 := t2 + bitsAt u1 0 h
  let resultLow := trunc (h + h) (u2 * 2 ^ h) ||| bitsAt t0 0 h
  let resultHigh := trunc (h + h) (t3 + bitsAt u2 h h + bitsAt u1 h h)
  resultHigh * 2 ^ (h + h) + resultLow

theorem umulByLevels_succ (k x y : Nat) :
    umulByLevels (k + 1) x y =
      joinHalfProducts (64 * 2 ^ k)
        (umulByLevels k (bitsAt x 0 (64 * 2 ^ k)) (bitsAt y 0 (64 * 2 ^ k)))
        (umulByLevels k (bitsAt x (64 * 2 ^ k) (64 * 2 ^ k)) (bitsAt y 0 (64 * 2 ^ k)))
        (umulByLevels k (bitsAt x 0 (64 * 2 ^ k)) (bitsAt y (64 * 2 ^ k) (64 * 2 ^ k)))
        (umulByLevels k (bitsAt x (64 * 2 ^ k) (64 * 2 ^ k)) (bitsAt y (64 * 2 ^ k) (64 * 2 ^ k))) := rfl

/-- A value moved up by half a width keeps its low half; the bits below are free for another value. -/
theorem trunc_mul_or {h lo : Nat} (hlo : lo < 2 ^ h) (u : Nat) :
    trunc (h + h) (u * 2 ^ h) ||| lo = u % 2 ^ h * 2 ^ h + lo := by
  rw [trunc, Nat.pow_add, Nat.mul_mod_mul_right, Nat.mul_comm, Nat.two_pow_add_eq_or_of_lt hlo]

/-- Reducing a value of two halves reduces its high half. -/
theorem join_mod {h lo : Nat} (hlo : lo < 2 ^ h) (hi : Nat) :
    (hi * 2 ^ h + lo) % 2 ^ (h + h) = hi % 2 ^ h * 2 ^ h + lo := by
  rw [Nat.pow_add, Nat.mod_mul, Nat.mul_add_mod_self_right, Nat.mod_eq_of_lt hlo, Nat.add_comm (hi * 2 ^ h),
    Nat.add_mul_div_right _ _ (Nat.two_pow_pos h), Nat.div_eq_of_lt hlo, Nat.zero_add, Nat.mul_comm, Nat.add_comm]

/-- R231 on halves is exact: `u1` and `u2` fit in two halves, and so does the high result, being the high part of the
product. -/
theorem joinHalfProducts_eq {h a b c d : Nat} (ha : a < 2 ^ h) (hb : b < 2 ^ h) (hc : c < 2 ^ h) (hd : d < 2 ^ h) :
    joinHalfProducts h (a * c) (b * c) (a * d) (b * d) = (b * 2 ^ h + a) * (d * 2 ^ h + c) := by
  have hproduct := Nat.mul_lt_mul'' (join_lt hb ha) (join_lt hd hc)
  have hsplit : ∀ v < 2 ^ h * 2 ^ h, v = bitsAt v h h * 2 ^ h + bitsAt v 0 h := fun v hv =>
    bitsAt_halves (by rwa [Nat.pow_add])
  have ht0 := hsplit (a * c) (Nat.mul_lt_mul'' ha hc)
  have hu1 := hsplit (b * c + bitsAt (a * c) h h) (mul_add_add_lt hb hc (bitsAt_lt ..) (Nat.two_pow_pos h))
  have hu2 := hsplit (a * d + bitsAt (b * c + bitsAt (a * c) h h) 0 h)
    (mul_add_add_lt ha hd (bitsAt_lt ..) (Nat.two_pow_pos h))
  simp only [joinHalfProducts]
  rw [trunc_mul_or (bitsAt_lt ..), ← bitsAt_zero (a * d + _)]
  generalize bitsAt (b * c + bitsAt (a * c) h h) h h = u1hi at *
  generalize bitsAt (b * c + bitsAt (a * c) h h) 0 h = u1lo at *
  generalize bitsAt (a * d + u1lo) h h = u2hi at *
  generalize bitsAt (a * d + u1lo) 0 h = u2lo at *
  have hsum : (b * 2 ^ h + a) * (d * 2 ^ h + c) =
      (b * d + u2hi + u1hi) * 2 ^ (h + h) + (u2lo * 2 ^ h + bitsAt (a * c) 0 h) := by
    rw [Nat.pow_add]
    linear_combination ht0 + 2 ^ h * hu1 + 2 ^ h * hu2
  have hhigh : b * d + u2hi + u1hi < 2 ^ (h + h) := by
    refine Nat.lt_of_mul_lt_mul_right (a := 2 ^ (h + h)) (Nat.lt_of_le_of_lt ?_ hproduct)
    rw [hsum]
    exact Nat.le_add_right ..
  rw [trunc_of_lt hhigh, hsum]

/-- By induction on the levels: with the products of the halves known, a level is R231 on halves. -/
theorem umulByLevels_eq (k : Nat) {x y : Nat} (hx : x < 2 ^ (64 * 2 ^ k)) (hy : y < 2 ^ (64 * 2 ^ k)) :
    umulByLevels k x y = x * y := by
  induction k generalizing x y with
  | zero =>
    have hspec := mulWide_spec (BitVec.ofNat 64 x) (BitVec.ofNat 64 y)
    rw [umulByLevels, ← hspec, BitVec.toNat_ofNat, BitVec.toNat_ofNat]
    exact congrArg₂ _ (Nat.mod_eq_of_lt hx) (Nat.mod_eq_of_lt hy)
  | succ k ih =>
    have hdouble : 64 * 2 ^ (k + 1) = 64 * 2 ^ k + 64 * 2 ^ k := by omega
    rw [hdouble] at hx hy
    rw [umulByLevels_succ]
    generalize 64 * 2 ^ k = h at *
    have hhalf := fun v lo => bitsAt_lt v lo h
    rw [ih (hhalf ..) (hhalf ..), ih (hhalf ..) (hhalf ..), ih (hhalf ..) (hhalf ..), ih (hhalf ..) (hhalf ..),
      joinHalfProducts_eq (hhalf ..) (hhalf ..) (hhalf ..) (hhalf ..), ← bitsAt_halves hx, ← bitsAt_halves hy]

/-- The squaring identity: of `(u * 2^H + l)^2`, the square of the high half lies above N. -/
theorem squareByHalves_eq {w : Width} {x : Nat} (hx : x < 2 ^ w.bits) : squareByHalves w x = x * x % 2 ^ w.bits := by
  rw [w.bits_eq_half] at hx ⊢
  have hx_eq := bitsAt_halves hx
  simp only [squareByHalves]
  generalize w.half = h at *
  generalize bitsAt x 0 h = l at *
  generalize bitsAt x h h = u at *
  have hlow := Nat.mod_lt (l * l) (Nat.two_pow_pos h)
  have hsquare : x * x = (l * u * 2 + l * l / 2 ^ h) * 2 ^ h + l * l % 2 ^ h + u * u * 2 ^ (h + h) := by
    rw [hx_eq, Nat.pow_add]
    linear_combination -Nat.div_add_mod' (l * l) (2 ^ h)
  rw [hsquare, Nat.add_mul_mod_self_right, join_mod hlow, bitsAt_zero]
  simp only [trunc, bitsAt, Nat.mod_mul_mod, Nat.mod_add_mod, Nat.add_mod_mod]

end Sys2Proof.Machine

namespace Sys2Proof

open Machine

/-- Settles O53: both formulations are exact, the recursion by induction on its levels, the loop by induction on its
rows. -/
theorem multiplierFormulationsAgree : Obligations.MultiplierFormulationsAgree := by
  intro w x y hx hy
  have hloop := umulByLoop_eq hx hy
  rw [w.bits_eq_levels] at hx hy
  exact ⟨(umulByLevels_eq w.levels hx hy).trans hloop.symm, hloop⟩

/-- Settles O54: the truncated loop is the loop of the full product on half the words. -/
theorem truncatedProductCircuits : Obligations.TruncatedProductCircuits := fun _ _ _ hx hy =>
  ⟨mulByLoop_eq hx hy, squareByHalves_eq hx⟩

end Sys2Proof

/-! ### Exponentiation (R241, R243) -/

namespace Sys2Proof.Machine

theorem power_eq (w : Width) (b : Nat) {e : Nat} (he : e < 2 ^ w.bits) : power w b e = b ^ e % 2 ^ w.bits := by
  have hmod := powLoop_mod w.bits w.bits 1 b e he
  rw [Nat.one_mul] at hmod
  exact (Nat.mod_eq_of_lt (power_lt w b e)).symm.trans hmod

/-- `1 << e` is `2^e` modulo 2^N; from `e = N` on both are 0. -/
theorem shiftLeft_one (w : Width) (e : Nat) : shiftLeft w 1 e = 2 ^ e % 2 ^ w.bits := by
  obtain he | he := Nat.lt_or_ge e w.bits
  · rw [shiftLeft_of_lt 1 he, Nat.one_mul, trunc]
  · rw [shiftLeft_of_le 1 he, Nat.mod_eq_zero_of_dvd (Nat.pow_dvd_pow 2 he)]

theorem expWithFastPath_eq (w : Width) (b : Nat) {e : Nat} (he : e < 2 ^ w.bits) :
    expWithFastPath w b e = b ^ e % 2 ^ w.bits := by
  unfold expWithFastPath
  split
  case isTrue hb => rw [hb, shiftLeft_one]
  case isFalse => exact power_eq w b he

end Sys2Proof.Machine

namespace Sys2Proof

open Machine

/-- Settles O55: square-and-multiply and the shifted 1 are both the power, whose exponents add. -/
theorem powerPathsAgree : Obligations.PowerPathsAgree := by
  refine fun w b e f _ he hf => ⟨expWithFastPath_eq w b he, power_eq w b he, fun hsum => ?_⟩
  rw [power_eq w b hsum, power_eq w b he, power_eq w b hf, Nat.pow_add, Nat.mul_mod]

/-! ### The commands (R236, R238, R240, R242) -/

/-- A well-formed command that finishes with two N-bit results in different registers: its word decodes to it, it
completes with `C` unchanged, and each register holds its result. -/
theorem twoResults_spec {i : Instr} {rd rd2 : Reg} {s : State} {w : Width} {v v2 : Nat} (hwf : i.wellFormed = true)
    (hexec : exec i s = finishTwo rd rd2 v v2 s) (hne : rd ≠ rd2) (hv : v < 2 ^ w.bits) (hv2 : v2 < 2 ^ w.bits) :
    decode (encode i) = .ok i ∧ ∃ t, exec i s = .next t ∧ Completed [rd, rd2] s t ∧ t.carry = s.carry ∧
      (t.reg rd).toNat = v ∧ (t.reg rd2).toNat = v2 := by
  obtain ⟨t, ht, hcompleted, hreg, hreg2, hcarry⟩ := finishTwo_spec rd rd2 v v2 s hne
  refine ⟨decodeInvertsEncode i hwf, t, hexec.trans ht, hcompleted, hcarry, ?_, ?_⟩
  · rw [hreg, BitVec.toNat_ofNat, Nat.mod_eq_of_lt (lt_wide hv)]
  · rw [hreg2, BitVec.toNat_ofNat, Nat.mod_eq_of_lt (lt_wide hv2)]

/-- Settles O40: the truncated products are single results; the exact product is two, its halves, which join to it. -/
theorem productResults : Obligations.ProductResults := by
  refine fun w rd rd2 rs1 rs2 s => ⟨oneResult_spec (i := .mul w rd rs1 rs2) rfl rfl (trunc_lt ..), ?sqr,
    fun heq => decode_encode_of_not_wellFormed (i := .umul w rd rd2 rs1 rs2) (decide_eq_false (not_not_intro heq)),
    fun hne => ?umul⟩
  case sqr =>
    rw [Nat.pow_two]
    exact oneResult_spec (i := .sqr w rd rs1) rfl rfl (trunc_lt ..)
  case umul =>
    have hproduct : s.operand w rs1 * s.operand w rs2 < 2 ^ (w.bits + w.bits) := by
      rw [Nat.pow_add]
      exact Nat.mul_lt_mul'' (s.operand_lt w rs1) (s.operand_lt w rs2)
    have hlo := bitsAt_lt (s.operand w rs1 * s.operand w rs2) 0 w.bits
    have hhi := bitsAt_lt (s.operand w rs1 * s.operand w rs2) w.bits w.bits
    obtain ⟨hdecode, t, ht, hcompleted, hcarry, hreg, hreg2⟩ :=
      twoResults_spec (i := .umul w rd rd2 rs1 rs2) (s := s) (decide_eq_true hne) rfl hne hlo hhi
    refine ⟨hdecode, t, ht, hcompleted, hcarry, hreg ▸ hlo, hreg2 ▸ hhi, ?_⟩
    rw [hreg, hreg2, ← bitsAt_halves hproduct]

/-- Settles O41: the result of the square-and-multiply loop is the power. -/
theorem powerResult : Obligations.PowerResult := by
  intro w rd rs1 rs2 s
  have hspec := oneResult_spec (i := .exp w rd rs1 rs2) (s := s) rfl rfl
    (power_lt w (s.operand w rs1) (s.operand w rs2))
  rwa [power_eq w _ (s.operand_lt w rs2)] at hspec

end Sys2Proof

/-! ## The division commands (45_division.md R260, R280 to R286; 46_modular.md R308) -/

/-! ### Signed values (R283) -/

namespace Sys2Proof.Machine

/-- The integer of magnitude `m`, negative where `c` says so. -/
def withSign (c : Bool) (m : Nat) : Int := if c then -m else m

/-- Truncated division divides the magnitudes, and the quotient is negative when the signs differ. -/
theorem withSign_tdiv (c d : Bool) (m n : Nat) :
    (withSign c m).tdiv (withSign d n) = withSign (c != d) (m / n) := by
  cases c <;> cases d <;> simp [withSign]

/-- The remainder of truncated division has the dividend's sign. -/
theorem withSign_tmod (c d : Bool) (m n : Nat) : (withSign c m).tmod (withSign d n) = withSign c (m % n) := by
  cases c <;> cases d <;> simp [withSign, Int.tmod_eq_emod_of_nonneg]

section
variable {w : Width} {a : Nat}

theorem two_pow_bits (w : Width) : 2 ^ w.bits = 2 * 2 ^ (w.bits - 1) := by
  rw [← Nat.pow_succ', Nat.succ_eq_add_one, Nat.sub_add_cancel w.bits_pos]

/-- The top bit of an N-bit value is its sign. -/
theorem bitsAt_top (ha : a < 2 ^ w.bits) : bitsAt a (w.bits - 1) 1 = (isNegative w a).toNat := by
  have htwice := two_pow_bits w
  have hquotient : a / 2 ^ (w.bits - 1) < 2 := Nat.div_lt_of_lt_mul (by omega)
  rw [bitsAt, Nat.pow_one, Nat.mod_eq_of_lt hquotient, isNegative, toNat_decide]
  split
  case isTrue h =>
    have := (Nat.one_le_div_iff (Nat.two_pow_pos _)).2 h
    omega
  case isFalse h => exact Nat.div_eq_of_lt (Nat.not_le.1 h)

/-- `NEG` is negation modulo 2^N. -/
theorem negateIf_eq_emod (c : Bool) (ha : a < 2 ^ w.bits) : (negateIf c w a : Int) = withSign c a % 2 ^ w.bits := by
  cases c with
  | false =>
    rw [negateIf, withSign, if_neg Bool.false_ne_true, if_neg Bool.false_ne_true]
    exact_mod_cast (Nat.mod_eq_of_lt ha).symm
  | true =>
    have hneg : ((2 ^ w.bits - a : Nat) : Int) = -a + 2 ^ w.bits := by
      rw [Nat.cast_sub ha.le]; push_cast; ring
    rw [negateIf, withSign, if_pos rfl, if_pos rfl, negate_eq w a ha, trunc, Int.natCast_mod, hneg]
    push_cast
    exact Int.add_emod_right ..

/-- `NEG` of a negative value is its magnitude, for `-2^(N-1)` too. -/
theorem negateIf_isNegative (ha : a < 2 ^ w.bits) :
    negateIf (isNegative w a) w a = if isNegative w a then 2 ^ w.bits - a else a := by
  by_cases h : 2 ^ (w.bits - 1) ≤ a
  · have hpos := Nat.two_pow_pos (w.bits - 1)
    have hlt : 2 ^ w.bits - a < 2 ^ w.bits := by omega
    simp [isNegative, negateIf, h, negate_eq w a ha, trunc_of_lt hlt]
  · simp [isNegative, negateIf, h]

/-- The two's-complement reading of an N-bit value is its sign and its magnitude. -/
theorem signedValue_eq_withSign (ha : a < 2 ^ w.bits) :
    signedValue w a = withSign (isNegative w a) (negateIf (isNegative w a) w a) := by
  rw [negateIf_isNegative ha, signedValue, bitsAt_top ha]
  cases isNegative w a with
  | false => simp [withSign]
  | true => simp [withSign, Nat.cast_sub ha.le]

theorem signedValue_modEq (w : Width) (a : Nat) : signedValue w a ≡ a [ZMOD 2 ^ w.bits] := by
  unfold signedValue
  split
  · exact Int.sub_emod_right ..
  · rfl

/-- A value no larger in magnitude than an N-bit value keeps its sign, unless it is 0. -/
theorem isNegative_negateIf {m : Nat} (ha : a < 2 ^ w.bits) (hm : m ≤ negateIf (isNegative w a) w a)
    (hne : negateIf (isNegative w a) w m ≠ 0) :
    isNegative w (negateIf (isNegative w a) w m) = isNegative w a := by
  have htwice := two_pow_bits w
  rw [negateIf_isNegative ha] at hm
  by_cases h : 2 ^ (w.bits - 1) ≤ a
  · rw [show isNegative w a = true from decide_eq_true h] at hm hne ⊢
    have hm' : m ≤ 2 ^ w.bits - a := hm
    rw [negateIf, if_pos rfl, negate_eq w m (by omega)] at hne ⊢
    have hpos : m ≠ 0 := by
      rintro rfl
      exact hne (Nat.mod_self _)
    rw [trunc_of_lt (by omega)]
    exact decide_eq_true (by omega)
  · rw [show isNegative w a = false from decide_eq_false h] at hm ⊢
    have hm' : m ≤ a := hm
    have hlt : m < 2 ^ (w.bits - 1) := by omega
    exact decide_eq_false (Nat.not_le.2 hlt)

end

section
variable {w : Width} {u v : Nat}

/-- The quotient and remainder of R283 are those of signed division truncated toward zero, modulo 2^N. -/
theorem sdivremValue_eq (hu : u < 2 ^ w.bits) (hv : v < 2 ^ w.bits) :
    ((sdivremValue w u v).1 : Int) = (signedValue w u).tdiv (signedValue w v) % 2 ^ w.bits ∧
    ((sdivremValue w u v).2 : Int) = (signedValue w u).tmod (signedValue w v) % 2 ^ w.bits := by
  have hmagnitude := negateIf_lt (isNegative w u) w u hu
  rw [signedValue_eq_withSign hu, signedValue_eq_withSign hv, withSign_tdiv, withSign_tmod]
  exact ⟨negateIf_eq_emod _ (fst_udivremValue_lt hmagnitude), negateIf_eq_emod _ (snd_udivremValue_lt hmagnitude)⟩

/-- R285 for the signed pair: the identity of truncated division, reduced modulo 2^N. -/
theorem sdivremValue_identity (hu : u < 2 ^ w.bits) (hv : v < 2 ^ w.bits) :
    ((sdivremValue w u v).1 * v + (sdivremValue w u v).2) % 2 ^ w.bits = u := by
  obtain ⟨hq, hr⟩ := sdivremValue_eq hu hv
  have hquotient : ((sdivremValue w u v).1 : Int) ≡ (signedValue w u).tdiv (signedValue w v) [ZMOD 2 ^ w.bits] :=
    hq ▸ Int.mod_modEq ..
  have hremainder : ((sdivremValue w u v).2 : Int) ≡ (signedValue w u).tmod (signedValue w v) [ZMOD 2 ^ w.bits] :=
    hr ▸ Int.mod_modEq ..
  have hidentity := (hquotient.mul (signedValue_modEq w v).symm).add hremainder
  rw [Int.tdiv_mul_add_tmod] at hidentity
  have hnat : (sdivremValue w u v).1 * v + (sdivremValue w u v).2 ≡ u [MOD 2 ^ w.bits] :=
    Int.natCast_modEq_iff.1 (by exact_mod_cast hidentity.trans (signedValue_modEq w u))
  exact Eq.trans hnat (Nat.mod_eq_of_lt hu)

/-- R285: the signed remainder is 0 or has the dividend's sign bit. -/
theorem sdivremValue_remainder_sign (hu : u < 2 ^ w.bits) :
    (sdivremValue w u v).2 = 0 ∨
      bitsAt (sdivremValue w u v).2 (w.bits - 1) 1 = bitsAt u (w.bits - 1) 1 := by
  refine or_iff_not_imp_left.2 fun hne => ?_
  rw [bitsAt_top (sdivremValue_lt w u v hu).2, bitsAt_top hu]
  exact congrArg Bool.toNat (isNegative_negateIf hu (Nat.mod_le ..) hne)

end

/-! ### The commands (R280 to R286, R308) -/

/-- The six commands with a divisor or modulus check it before anything else. -/
theorem exec_of_zero_divisor {i : Instr} {s : State} (h : divisorOf s i = some 0) :
    exec i s = .next (s.takeFault .divideByZero) := by
  cases i with
  | udivrem | udiv | urem | sdivrem | addmod | mulmod => exact if_pos (Option.some.inj h)
  | _ => cases h

/-- Settles O44: the fault entry, and nothing else. -/
theorem zeroDivisorFaults : Obligations.ZeroDivisorFaults := fun _ s h =>
  ⟨_, exec_of_zero_divisor h, .of_takeFault .divideByZero s⟩

end Sys2Proof.Machine

namespace Sys2Proof

open Machine

section
variable {w : Width} {rd rd2 rs1 rs2 : Reg} {s : State}

/-- `UDIV` with a nonzero divisor, from its word to the quotient in `rd`. -/
theorem udiv_spec (hv : s.operand w rs2 ≠ 0) :
    decode (encode (.udiv w rd rs1 rs2)) = .ok (.udiv w rd rs1 rs2) ∧
    ∃ t, exec (.udiv w rd rs1 rs2) s = .next t ∧ Completed [rd] s t ∧ t.carry = s.carry ∧
      (t.reg rd).toNat = s.operand w rs1 / s.operand w rs2 :=
  oneResult_spec rfl (if_neg hv) (fst_udivremValue_lt (s.operand_lt w rs1))

/-- `UREM` with a nonzero divisor, from its word to the remainder in `rd`. -/
theorem urem_spec (hv : s.operand w rs2 ≠ 0) :
    decode (encode (.urem w rd rs1 rs2)) = .ok (.urem w rd rs1 rs2) ∧
    ∃ t, exec (.urem w rd rs1 rs2) s = .next t ∧ Completed [rd] s t ∧ t.carry = s.carry ∧
      (t.reg rd).toNat = s.operand w rs1 % s.operand w rs2 :=
  oneResult_spec rfl (if_neg hv) (snd_udivremValue_lt (s.operand_lt w rs1))

/-- `UDIVREM` with a nonzero divisor and two destinations, from its word to quotient and remainder. -/
theorem udivrem_spec (hne : rd ≠ rd2) (hv : s.operand w rs2 ≠ 0) :
    decode (encode (.udivrem w rd rd2 rs1 rs2)) = .ok (.udivrem w rd rd2 rs1 rs2) ∧
    ∃ t, exec (.udivrem w rd rd2 rs1 rs2) s = .next t ∧ Completed [rd, rd2] s t ∧ t.carry = s.carry ∧
      (t.reg rd).toNat = s.operand w rs1 / s.operand w rs2 ∧ (t.reg rd2).toNat = s.operand w rs1 % s.operand w rs2 :=
  twoResults_spec (decide_eq_true hne) (if_neg hv) hne (fst_udivremValue_lt (s.operand_lt w rs1))
    (snd_udivremValue_lt (s.operand_lt w rs1))

/-- `SDIVREM` with a nonzero divisor and two destinations, from its word to the values of R283. -/
theorem sdivrem_spec (hne : rd ≠ rd2) (hv : s.operand w rs2 ≠ 0) :
    decode (encode (.sdivrem w rd rd2 rs1 rs2)) = .ok (.sdivrem w rd rd2 rs1 rs2) ∧
    ∃ t, exec (.sdivrem w rd rd2 rs1 rs2) s = .next t ∧ Completed [rd, rd2] s t ∧ t.carry = s.carry ∧
      (t.reg rd).toNat = (sdivremValue w (s.operand w rs1) (s.operand w rs2)).1 ∧
      (t.reg rd2).toNat = (sdivremValue w (s.operand w rs1) (s.operand w rs2)).2 :=
  have hlt := sdivremValue_lt w (s.operand w rs1) (s.operand w rs2) (s.operand_lt w rs1)
  twoResults_spec (decide_eq_true hne) (if_neg hv) hne hlt.1 hlt.2

end

/-- Settles O42: the results are quotient and remainder of the operands, and these satisfy the identities of R260. -/
theorem divisionResults : Obligations.DivisionResults := by
  intro w rd rd2 rs1 rs2 s
  refine ⟨⟨decodeInvertsEncode (.udiv w rd rs1 rs2) rfl, decodeInvertsEncode (.urem w rd rs1 rs2) rfl,
      fun hne => decodeInvertsEncode (.udivrem w rd rd2 rs1 rs2) (decide_eq_true hne),
      fun heq => decode_encode_of_not_wellFormed (i := .udivrem w rd rd2 rs1 rs2)
        (decide_eq_false (not_not_intro heq))⟩,
    fun hzero => ⟨zeroDivisorFaults (.udivrem w rd rd2 rs1 rs2) s (congrArg some hzero),
      zeroDivisorFaults (.udiv w rd rs1 rs2) s (congrArg some hzero),
      zeroDivisorFaults (.urem w rd rs1 rs2) s (congrArg some hzero)⟩,
    fun hv => ⟨fun hne => ?udivrem, ?udiv, ?urem⟩⟩
  all_goals have hpos := Nat.pos_of_ne_zero hv
  case udivrem =>
    obtain ⟨-, t, ht, hcompleted, hcarry, hq, hr⟩ := udivrem_spec (rs1 := rs1) hne hv
    refine ⟨t, ht, hcompleted, hcarry, ?_, hr ▸ Nat.mod_lt _ hpos⟩
    rw [hq, hr, Nat.div_add_mod']
  case udiv =>
    obtain ⟨-, t, ht, hcompleted, hcarry, hq⟩ := udiv_spec (rd := rd) (rs1 := rs1) hv
    exact ⟨t, ht, hcompleted, hcarry, hq ▸ Nat.div_mul_le_self .., hq ▸ Nat.lt_mul_of_div_lt (Nat.lt_succ_self _) hpos⟩
  case urem =>
    obtain ⟨-, t, ht, hcompleted, hcarry, hr⟩ := urem_spec (rd := rd) (rs1 := rs1) hv
    exact ⟨t, ht, hcompleted, hcarry, hr ▸ Nat.mod_lt _ hpos, _, hr ▸ Nat.div_add_mod' ..⟩

/-- Settles O43: sign and magnitude of the operands give sign and magnitude of truncated division. -/
theorem signedDivisionResult : Obligations.SignedDivisionResult := by
  intro w rd rd2 rs1 rs2 s hv hne
  obtain ⟨-, t, ht, hcompleted, hcarry, hq, hr⟩ := sdivrem_spec (rs1 := rs1) hne hv
  have hvalues := sdivremValue_eq (s.operand_lt w rs1) (s.operand_lt w rs2)
  exact ⟨t, ht, hcompleted, hcarry, hq ▸ hvalues.1, hr ▸ hvalues.2⟩

/-- Settles O48: the laws are those of the values the commands write. -/
theorem divisionLaws : Obligations.DivisionLaws := by
  refine fun w rd rd2 rs1 rs2 s hv => ⟨?unsigned, fun hne => ?signed⟩
  case unsigned =>
    obtain ⟨-, t, ht, -, -, hq⟩ := udiv_spec (rd := rd) (rs1 := rs1) hv
    obtain ⟨-, u, hu, -, -, hr⟩ := urem_spec (rd := rd) (rs1 := rs1) hv
    refine ⟨t, u, ht, hu, ?_, hr ▸ Nat.mod_lt _ (Nat.pos_of_ne_zero hv)⟩
    rw [hq, hr, Nat.div_add_mod']
  case signed =>
    obtain ⟨-, t, ht, -, -, hq, hr⟩ := sdivrem_spec (rs1 := rs1) hne hv
    have hu := s.operand_lt w rs1
    exact ⟨t, ht, by rw [hq, hr, sdivremValue_identity hu (s.operand_lt w rs2)],
      hr ▸ sdivremValue_remainder_sign hu⟩

end Sys2Proof

/-! ## The trial-quotient units (45_division.md R262 to R265) -/

/-! ### The arithmetic of the step sequences

`B` is the word base, `w` the reciprocal with its hidden top bit, and `k` what `w * d` lacks to the power of `B` that it
inverts. The steps take the double word `B * q1 + q0` apart: `q1 + 1` is the trial quotient, `q0` is compared, and `r`
is the remainder that the trial quotient leaves. -/

namespace Sys2Proof.Machine

/-- A weighted mean is at most the larger of the two. -/
theorem mean_le_mul_max {m d : Int} (hd : 0 ≤ d) (hdm : d ≤ m) (t : Int) :
    (m - d) * (m - d) + d * t ≤ m * max (m - d) t := by
  have hleft := mul_le_mul_of_nonneg_left (le_max_left (m - d) t) (show 0 ≤ m - d by omega)
  have hright := mul_le_mul_of_nonneg_left (le_max_right (m - d) t) hd
  linarith

section
variable {B d w k : Nat} (hd : 0 < d) (hkd : k ≤ d)
include hd hkd

/-- The remainder of the trial quotient of R264, multiplied by `B`, is a sum of small terms; so it is at least `-d` and
inside a range of length `B` whose ends depend on `q0`. -/
theorem trialRemainder2by1_bounds {u1 u0 q1 q0 : Nat} {r : Int} (hw : w * d + k = B ^ 2) (hdB : d < B) (hu1d : u1 < d)
    (hu0B : u0 < B) (hq : w * u1 + u0 = B * q1 + q0) (hq0B : q0 < B) (hr : r = u1 * B + u0 - (q1 + 1) * d) :
    -d ≤ r ∧ q0 + 1 - B ≤ r ∧ r < max ((B : Int) - d) (q0 + 1) := by
  zify at *
  have hB : (0 : Int) < B := by omega
  have hterms : B * r = u1 * k + u0 * (B - d) + q0 * d - d * B := by
    rw [hr]; linear_combination d * hq - u1 * hw
  have hproduct : 0 ≤ (u1 : Int) * k := by positivity
  have hword : 0 ≤ (u0 : Int) * (B - d) := mul_nonneg (by positivity) (by omega)
  refine ⟨?divisor, ?below, ?above⟩
  case divisor =>
    have hlow : 0 ≤ (q0 : Int) * d := by positivity
    exact le_of_mul_le_mul_left (a := (B : Int)) (by linarith) hB
  case below =>
    have hlow : (B - q0 : Int) * d < (B - q0) * B := mul_lt_mul_of_pos_left hdB (by omega)
    have hlt : q0 - B < r := lt_of_mul_lt_mul_left (a := (B : Int)) (by linarith) hB.le
    omega
  case above =>
    have hproduct' : (u1 : Int) * k ≤ (d - 1) * d := mul_le_mul (by omega) hkd (by positivity) (by omega)
    have hword' : (u0 : Int) * (B - d) ≤ (B - 1) * (B - d) := mul_le_mul_of_nonneg_right (by omega) (by omega)
    have hmean := mean_le_mul_max hd.le hdB.le (q0 + 1)
    exact lt_of_mul_lt_mul_left (a := (B : Int)) (by linarith) hB.le

/-- The terms of the 3-by-2 remainder that do not depend on `q0`. Where the high words of numerator and divisor are
equal, `k ≤ d` suffices for a divisor far below `B^2`, and `w ≥ B` for the others. -/
theorem trialTerms3by2_lt {d1 d0 u2 u1 u0 : Nat} (hw : w * d + k = B ^ 3) (hwB : B ≤ w) (hdB : d < B ^ 2)
    (hd_eq : d = d1 * B + d0) (hd0B : d0 < B) (hu1B : u1 < B) (hu0B : u0 < B) (hud : u2 * B + u1 < d) :
    B * (u2 * k + u1 * (B ^ 2 - d) + u0 * B - d * B) < ((B : Int) ^ 2 - d) * (B ^ 2 - d) := by
  zify at *
  have hB : (0 : Int) < B := by omega
  have hword : (u0 : Int) * B ≤ (B - 1) * B := mul_le_mul_of_nonneg_right (by omega) hB.le
  have hu2d : (u2 : Int) ≤ d1 := Int.lt_add_one_iff.1 (lt_of_mul_lt_mul_right (a := (B : Int)) (by linarith) hB.le)
  obtain hlt | heq := lt_or_eq_of_le hu2d
  · have hproduct : (u2 : Int) * k ≤ (d1 - 1) * d := mul_le_mul (by omega) hkd (by positivity) (by omega)
    have hmiddle : (u1 : Int) * (B ^ 2 - d) ≤ (B - 1) * (B ^ 2 - d) :=
      mul_le_mul_of_nonneg_right (by omega) (by omega)
    have hsum := mul_le_mul_of_nonneg_left (add_le_add (add_le_add hproduct hmiddle) hword) hB.le
    have hhigh : (d1 : Int) * B * d ≤ d * d := mul_le_mul_of_nonneg_right (by omega) hd.le
    have hsquare : (0 : Int) < B * B := mul_pos hB hB
    linarith
  · rw [heq] at hud ⊢
    have hmiddle : (u1 : Int) * (B ^ 2 - d) ≤ (d0 - 1) * (B ^ 2 - d) :=
      mul_le_mul_of_nonneg_right (by omega) (by omega)
    obtain hnear | hfar := lt_or_ge ((B : Int) ^ 2 - d) B
    · have hk : (k : Int) ≤ B * (B ^ 2 - d) := by
        have := mul_le_mul_of_nonneg_right hwB hd.le
        linarith
      have hproduct : (d1 : Int) * k ≤ d1 * (B * (B ^ 2 - d)) := mul_le_mul_of_nonneg_left hk (by positivity)
      have hgap : (d : Int) * 1 ≤ d * (B - (B ^ 2 - d)) := mul_le_mul_of_nonneg_left (by omega) hd.le
      have hsplit : (d : Int) * (B ^ 2 - d) = (d1 * B + d0) * (B ^ 2 - d) := congrArg (· * ((B : Int) ^ 2 - d)) hd_eq
      have hneg : (d1 : Int) * k + u1 * (B ^ 2 - d) + u0 * B - d * B < 0 := by linarith
      exact (mul_neg_of_pos_of_neg hB hneg).trans_le (mul_self_nonneg _)
    · have hproduct : (d1 : Int) * k ≤ d1 * d := mul_le_mul_of_nonneg_left hkd (by positivity)
      have hsum := mul_le_mul_of_nonneg_left (add_le_add (add_le_add hproduct hmiddle) hword) hB.le
      have hgap : (B : Int) * B ≤ B * (B ^ 2 - d) := mul_le_mul_of_nonneg_left hfar hB.le
      have hrest : 0 ≤ (B - d0 : Int) * (B * (B ^ 2 - d) + (B ^ 2 - d) - B * B) := mul_nonneg (by omega) (by omega)
      have hsquare : (0 : Int) < B * B := mul_pos hB hB
      have hdifference : ((B : Int) ^ 2 - d) * (B ^ 2 - d) -
          B * (d1 * d + (d0 - 1) * (B ^ 2 - d) + (B - 1) * B - d * B) =
          (B - d0) * (B * (B ^ 2 - d) + (B ^ 2 - d) - B * B) + B * B := by
        linear_combination d * hd_eq
      linarith

/-- As `trialRemainder2by1_bounds`, for R265. -/
theorem trialRemainder3by2_bounds {d1 d0 u2 u1 u0 q1 q0 : Nat} {r : Int} (hw : w * d + k = B ^ 3) (hwB : B ≤ w)
    (hdB : d < B ^ 2) (hd_eq : d = d1 * B + d0) (hd0B : d0 < B) (hu1B : u1 < B) (hu0B : u0 < B)
    (hud : u2 * B + u1 < d) (hq : w * u2 + u1 = B * q1 + q0) (hq0B : q0 < B)
    (hr : r = u2 * B ^ 2 + u1 * B + u0 - (q1 + 1) * d) :
    -d ≤ r ∧ q0 * B - B ^ 2 ≤ r ∧ r < max ((B : Int) ^ 2 - d) (q0 * B) := by
  have hupper := trialTerms3by2_lt hd hkd hw hwB hdB hd_eq hd0B hu1B hu0B hud
  zify at *
  have hB : (0 : Int) < B := by omega
  have hterms : B * r = u2 * k + u1 * (B ^ 2 - d) + u0 * B + q0 * d - d * B := by
    rw [hr]; linear_combination d * hq - u2 * hw
  have hproduct : 0 ≤ (u2 : Int) * k := by positivity
  have hmiddle : 0 ≤ (u1 : Int) * (B ^ 2 - d) := mul_nonneg (by positivity) (by omega)
  have hword : 0 ≤ (u0 : Int) * B := by positivity
  refine ⟨?divisor, ?below, ?above⟩
  case divisor =>
    have hlow : 0 ≤ (q0 : Int) * d := by positivity
    exact le_of_mul_le_mul_left (a := (B : Int)) (by linarith) hB
  case below =>
    have hlow : (B - q0 : Int) * d ≤ (B - q0) * B ^ 2 := mul_le_mul_of_nonneg_left hdB.le (by omega)
    exact le_of_mul_le_mul_left (a := (B : Int)) (by linarith) hB
  case above =>
    have hmean := mean_le_mul_max hd.le hdB.le (q0 * B)
    have hsum : B * (B * r) = B * (u2 * k + u1 * (B ^ 2 - d) + u0 * B - d * B) + d * (q0 * B) := by
      rw [hterms]; ring
    exact lt_of_mul_lt_mul_left (a := (B : Int) ^ 2) (by linarith) (sq_nonneg _)

end

end Sys2Proof.Machine

/-! ### The steps on words -/

namespace Sys2Proof.Machine

/-- A word written as an integer holds that integer, where it fits. -/
theorem toNat_intCast_of_lt {n : Nat} {x : Int} (hx : 0 ≤ x) (hlt : x < 2 ^ n) : ((x : BitVec n).toNat : Int) = x := by
  rw [BitVec.toNat_intCast, Int.emod_eq_of_lt hx hlt, Int.toNat_of_nonneg hx]

/-- A negative integer no less than `-2^n` wraps around once. -/
theorem toNat_intCast_of_neg {n : Nat} {x : Int} (hx : x < 0) (hle : -2 ^ n ≤ x) :
    ((x : BitVec n).toNat : Int) = x + 2 ^ n := by
  have hwrap : x % 2 ^ n = x + 2 ^ n := by
    rw [← Int.add_emod_right, Int.emod_eq_of_lt (by omega) (by omega)]
  rw [BitVec.toNat_intCast, hwrap, Int.toNat_of_nonneg (by omega)]

theorem natCast_toNat {n : Nat} (x : BitVec n) : (x.toNat : BitVec n) = x := by simp

/-- Words see an integer modulo 2^n. -/
theorem intCast_eq_of_modEq {n : Nat} {x y : Int} (h : x ≡ y [ZMOD 2 ^ n]) : (x : BitVec n) = (y : BitVec n) :=
  BitVec.eq_of_toNat_eq (by rw [BitVec.toNat_intCast, BitVec.toNat_intCast, h.eq])

/-- The two corrections that end both step sequences (R264, R265): the trial quotient `q`, which was increased by 1, is
decreased again if the test `down` says so, and increased if the remainder is not below the divisor. -/
def correctTrial {n : Nat} (d : BitVec n) (down : Prop) [Decidable down] (q : Word) (r : BitVec n) : Word × BitVec n :=
  let qr := if down then (q - 1, r + d) else (q, r)
  if d ≤ qr.2 then (qr.1 + 1, qr.2 - d) else qr

section
variable {n : Nat} {d : BitVec n} {u q r t : Int}

/-- Below twice the divisor, one comparison makes quotient and remainder exact. -/
theorem lastCorrection_eq (hn : 2 ^ n ≤ 2 * (d.toNat : Int)) (hu : u = q * d.toNat + r) (hr : 0 ≤ r)
    (hlt : r < 2 ^ n) :
    (if d ≤ (r : BitVec n) then ((q : Word) + 1, (r : BitVec n) - d) else ((q : Word), (r : BitVec n))) =
      (((u / d.toNat : Int) : Word), ((u % d.toNat : Int) : BitVec n)) := by
  have hpos : 0 < (d.toNat : Int) := by omega
  have hle : d ≤ (r : BitVec n) ↔ (d.toNat : Int) ≤ r := by
    rw [BitVec.le_def, ← Nat.cast_le (α := Int), toNat_intCast_of_lt hr hlt]
  split
  case isTrue h =>
    rw [hle] at h
    obtain ⟨hquotient, hremainder⟩ := (Int.ediv_emod_unique (a := u) (q := q + 1) (r := r - d.toNat) hpos).2
      ⟨by rw [hu]; ring, by omega, by omega⟩
    rw [hquotient, hremainder]
    push_cast
    rw [natCast_toNat]
  case isFalse h =>
    rw [hle] at h
    obtain ⟨hquotient, hremainder⟩ := (Int.ediv_emod_unique (a := u) (q := q) (r := r) hpos).2
      ⟨by rw [hu]; ring, hr, by omega⟩
    rw [hquotient, hremainder]

/-- If the remainder `r` of the trial quotient `q` is at least `max (2^n - d) t - 2^n` and below `max (2^n - d) t`, and
the test asks whether its residue is at least `t`, the corrections make quotient and remainder exact. -/
theorem correctTrial_eq {down : Prop} [Decidable down] (hn : 2 ^ n ≤ 2 * (d.toNat : Int)) (hu : u = q * d.toNat + r)
    (hdown : down ↔ t ≤ (r : BitVec n).toNat) (ht : t ≤ 2 ^ n) (hlo : -(d.toNat : Int) ≤ r) (hlo' : t - 2 ^ n ≤ r)
    (hhi : r < max (2 ^ n - (d.toNat : Int)) t) :
    correctTrial d down q r = (((u / d.toNat : Int) : Word), ((u % d.toNat : Int) : BitVec n)) := by
  have hd : (d.toNat : Int) < 2 ^ n := by exact_mod_cast d.isLt
  have hneg : r < 0 → ((r : BitVec n).toNat : Int) = r + 2 ^ n := fun h => toNat_intCast_of_neg h (by omega)
  have hnonneg : 0 ≤ r → ((r : BitVec n).toNat : Int) = r := fun h => toNat_intCast_of_lt h (by omega)
  by_cases h : down
  · have hrange : 0 ≤ r + d.toNat ∧ r + d.toNat < 2 ^ n := by
      have := hdown.1 h
      omega
    have hlast := lastCorrection_eq (u := u) (q := q - 1) hn (by rw [hu]; ring) hrange.1 hrange.2
    push_cast at hlast
    rw [natCast_toNat] at hlast
    rw [correctTrial, if_pos h]
    exact hlast
  · have hrange : 0 ≤ r ∧ r < 2 ^ n := by
      have := mt hdown.2 h
      omega
    rw [correctTrial, if_neg h]
    exact lastCorrection_eq hn hu hrange.1 hrange.2

end

end Sys2Proof.Machine

/-! ### The units meet their contracts -/

namespace Sys2Proof.Machine

/-- A digit below the base, under a number below `d`. -/
theorem mul_add_lt_mul {a b d r : Nat} (ha : a < d) (hr : r < b) : a * b + r < d * b := by
  calc a * b + r < (a + 1) * b := by rw [Nat.succ_mul]; omega
    _ ≤ d * b := Nat.mul_le_mul_right b ha

theorem highWord_ofNat (x : Nat) : highWord (BitVec.ofNat 128 x) = BitVec.ofNat 64 (x / 2 ^ 64) := by
  apply BitVec.eq_of_toNat_eq
  simp only [highWord, BitVec.toNat_ofNat]
  omega

theorem lowWord_ofNat (x : Nat) : lowWord (BitVec.ofNat 128 x) = BitVec.ofNat 64 x := by
  apply BitVec.eq_of_toNat_eq
  simp only [lowWord, BitVec.toNat_ofNat]
  omega

/-- The comparison with the high word in R265 is one of the whole double word, in the form that the corrections use. -/
theorem ofNat_le_highWord_iff (t : Nat) (d : DoubleWord) :
    BitVec.ofNat 64 t ≤ highWord d ↔ (t % 2 ^ 64 : Nat) * 2 ^ 64 ≤ (d.toNat : Int) := by
  have hd := doubleWord_eq d
  have hlow := (lowWord d).isLt
  rw [BitVec.le_def, BitVec.toNat_ofNat]
  omega

theorem joinWords_intCast (x : Int) (lo : Word) :
    joinWords (x : Word) lo = ((x * 2 ^ 64 + lo.toNat : Int) : DoubleWord) := by
  have hmod : ((x : Word).toNat : Int) = x % 2 ^ 64 := by
    rw [BitVec.toNat_intCast, Int.toNat_of_nonneg (Int.emod_nonneg _ (by decide))]
  have hcast : joinWords (x : Word) lo = ((((x : Word).toNat : Int) * 2 ^ 64 + lo.toNat : Int) : DoubleWord) := by
    rw [joinWords]; norm_cast
  rw [hcast, hmod]
  refine intCast_eq_of_modEq (Int.modEq_iff_dvd.2 ⟨x / 2 ^ 64, ?_⟩)
  linear_combination (2 ^ 64 : Int) * (Int.emod_add_mul_ediv x (2 ^ 64)).symm

/-- A reciprocal rounded down from just below `m / d` lacks at least 1 and at most `d`. -/
theorem reciprocal_mul_add {m d : Nat} (hm : 0 < m) (hd : 0 < d) :
    ∃ k ≤ d, (m - 1) / d * d + k = m := by
  have hsum := Nat.div_add_mod' (m - 1) d
  have hlt := Nat.mod_lt (m - 1) hd
  exact ⟨(m - 1) % d + 1, hlt, by omega⟩

/-- The reciprocal of a normalized divisor of `n` bits, with its hidden top bit, fits in 65 bits. -/
theorem reciprocal_spec {n d : Nat} (hlo : 2 ^ n ≤ 2 * d) (hhi : d < 2 ^ n) :
    ∃ k ≤ d, ((BitVec.ofNat 64 ((2 ^ n * 2 ^ 64 - 1) / d - 2 ^ 64)).toNat + 2 ^ 64) * d + k = 2 ^ n * 2 ^ 64 := by
  have hd : 0 < d := by omega
  have hlow : 2 ^ 64 ≤ (2 ^ n * 2 ^ 64 - 1) / d := (Nat.le_div_iff_mul_le hd).2 (by omega)
  have hhigh : (2 ^ n * 2 ^ 64 - 1) / d < 2 ^ 65 := (Nat.div_lt_iff_lt_mul hd).2 (by omega)
  rw [BitVec.toNat_ofNat, Nat.mod_eq_of_lt (by omega), Nat.sub_add_cancel hlow]
  exact reciprocal_mul_add (by omega) hd

theorem reciprocal2by1_spec {d : Word} (hd : 2 ^ 63 ≤ d.toNat) :
    ∃ k ≤ d.toNat, ((reciprocal2by1 d).toNat + 2 ^ 64) * d.toNat + k = (2 ^ 64) ^ 2 :=
  reciprocal_spec (n := 64) (by omega) d.isLt

theorem reciprocal3by2_spec {d : DoubleWord} (hd : 2 ^ 127 ≤ d.toNat) :
    ∃ k ≤ d.toNat, ((reciprocal3by2 d).toNat + 2 ^ 64) * d.toNat + k = (2 ^ 64) ^ 3 :=
  reciprocal_spec (n := 128) (by omega) d.isLt

/-- Quotient and remainder of R264 as numbers: with the high word below the divisor, the quotient fits a word. -/
theorem udivrem2by1_spec {uhi d : Word} (ulo : Word) (h : uhi < d) :
    (udivrem2by1 uhi ulo d).1.toNat = (uhi.toNat * 2 ^ 64 + ulo.toNat) / d.toNat ∧
    (udivrem2by1 uhi ulo d).2.toNat = (uhi.toNat * 2 ^ 64 + ulo.toNat) % d.toNat := by
  have hd := d.isLt
  rw [BitVec.lt_def] at h
  have hquotient := Nat.div_lt_of_lt_mul (mul_add_lt_mul h ulo.isLt)
  have hremainder := Nat.mod_lt (uhi.toNat * 2 ^ 64 + ulo.toNat) (show 0 < d.toNat by omega)
  simp only [udivrem2by1, BitVec.toNat_ofNat]
  exact ⟨Nat.mod_eq_of_lt hquotient, Nat.mod_eq_of_lt (by omega)⟩

/-- Quotient and remainder of R265 as numbers. -/
theorem udivrem3by2_spec {u2 u1 : Word} {d : DoubleWord} (u0 : Word) (h : joinWords u2 u1 < d) :
    (udivrem3by2 u2 u1 u0 d).1.toNat = (u2.toNat * 2 ^ 128 + u1.toNat * 2 ^ 64 + u0.toNat) / d.toNat ∧
    (udivrem3by2 u2 u1 u0 d).2.toNat = (u2.toNat * 2 ^ 128 + u1.toNat * 2 ^ 64 + u0.toNat) % d.toNat := by
  have hd := d.isLt
  rw [BitVec.lt_def, toNat_joinWords] at h
  have hproduct := mul_add_lt_mul h u0.isLt
  rw [show (u2.toNat * 2 ^ 64 + u1.toNat) * 2 ^ 64 = u2.toNat * 2 ^ 128 + u1.toNat * 2 ^ 64 by ring] at hproduct
  have hquotient := Nat.div_lt_of_lt_mul hproduct
  have hremainder := Nat.mod_lt (u2.toNat * 2 ^ 128 + u1.toNat * 2 ^ 64 + u0.toNat) (show 0 < d.toNat by omega)
  simp only [udivrem3by2, BitVec.toNat_ofNat]
  exact ⟨Nat.mod_eq_of_lt hquotient, Nat.mod_eq_of_lt (by omega)⟩

/-- The steps of R264 up to the corrections: `t` is the double word that they take apart. -/
theorem udivrem2by1Steps_eq {uhi ulo d rec : Word} {t : Nat} {q r : Int}
    (ht : t = rec.toNat * uhi.toNat + (uhi.toNat * 2 ^ 64 + ulo.toNat)) (hq : q = (t / 2 ^ 64 : Nat) + 1)
    (hr : r = uhi.toNat * 2 ^ 64 + ulo.toNat - q * d.toNat) :
    udivrem2by1Steps uhi ulo d rec = correctTrial d (BitVec.ofNat 64 t < (r : Word)) q r := by
  have hq' : (q : Word) = BitVec.ofNat 64 (t / 2 ^ 64) + 1 := by rw [hq]; push_cast; rfl
  have hr' : (r : Word) = ulo - (BitVec.ofNat 64 (t / 2 ^ 64) + 1) * d := by
    rw [intCast_eq_of_modEq (y := ulo.toNat - q * d.toNat) (Int.modEq_iff_dvd.2 ⟨-uhi.toNat, by rw [hr]; ring⟩), ← hq']
    push_cast
    rw [natCast_toNat, natCast_toNat]
  rw [hr', hq', ← lowWord_ofNat, ← highWord_ofNat, ht]
  rfl

/-- The steps of R265 up to the corrections, where the high word of `t` has not wrapped around. -/
theorem udivrem3by2Steps_eq {u2 u1 u0 rec : Word} {d : DoubleWord} {t : Nat} {q r : Int}
    (ht : t = rec.toNat * u2.toNat + (u2.toNat * 2 ^ 64 + u1.toNat)) (hlt : t < 2 ^ 128)
    (hq : q = (t / 2 ^ 64 : Nat) + 1)
    (hr : r = u2.toNat * 2 ^ 128 + u1.toNat * 2 ^ 64 + u0.toNat - q * d.toNat) :
    udivrem3by2Steps u2 u1 u0 d rec = correctTrial d (BitVec.ofNat 64 t ≤ highWord r) q r := by
  have hq' : (q : Word) = BitVec.ofNat 64 (t / 2 ^ 64) + 1 := by rw [hq]; push_cast; rfl
  have hr' : (r : DoubleWord) = joinWords (u1 - BitVec.ofNat 64 (t / 2 ^ 64) * highWord d) u0 -
      BitVec.ofNat 128 ((lowWord d).toNat * (BitVec.ofNat 64 (t / 2 ^ 64)).toNat) - d := by
    have hq1 : (BitVec.ofNat 64 (t / 2 ^ 64)).toNat = t / 2 ^ 64 := by
      rw [BitVec.toNat_ofNat, Nat.mod_eq_of_lt (by omega)]
    have hhigh : u1 - BitVec.ofNat 64 (t / 2 ^ 64) * highWord d =
        ((u1.toNat - (t / 2 ^ 64 : Nat) * (highWord d).toNat : Int) : Word) := by
      push_cast
      rw [natCast_toNat, natCast_toNat]
      rfl
    have hproduct : BitVec.ofNat 128 ((lowWord d).toNat * (t / 2 ^ 64)) =
       (((lowWord d).toNat * (t / 2 ^ 64 : Nat) : Int) : DoubleWord) := by norm_cast
    have hsplit : (d.toNat : Int) = (highWord d).toNat * 2 ^ 64 + (lowWord d).toNat := by exact_mod_cast doubleWord_eq d
    rw [hq1, hhigh, joinWords_intCast, hproduct]
    refine Eq.trans ?_ (congrArg (_ - ·) ((Int.cast_natCast _).trans (natCast_toNat d)))
    rw [← Int.cast_sub, ← Int.cast_sub]
    refine intCast_eq_of_modEq (Int.modEq_iff_dvd.2 ⟨-u2.toNat, ?_⟩)
    rw [hr, hq]
    linear_combination ((t / 2 ^ 64 : Nat) : Int) * hsplit
  rw [hr', hq', ← lowWord_ofNat, ← highWord_ofNat, ht]
  rfl

/-- The double word that the steps take apart, with the reciprocal's hidden top bit put back. -/
theorem reciprocal_product_split {v u x t : Nat} (ht : t = v * u + (u * 2 ^ 64 + x)) :
    (v + 2 ^ 64) * u + x = 2 ^ 64 * (t / 2 ^ 64) + t % 2 ^ 64 := by
  rw [Nat.div_add_mod, ht]
  ring

/-- With a normalized divisor above the high word, the steps of R264 and its reciprocal give its contract. -/
theorem udivrem2by1Steps_eq_contract {uhi ulo d : Word} (hd : 2 ^ 63 ≤ d.toNat) (h : uhi < d) :
    udivrem2by1Steps uhi ulo d (reciprocal2by1 d) = udivrem2by1 uhi ulo d := by
  obtain ⟨k, hkd, hk⟩ := reciprocal2by1_spec hd
  obtain ⟨t, ht⟩ : ∃ t, t = (reciprocal2by1 d).toNat * uhi.toNat + (uhi.toNat * 2 ^ 64 + ulo.toNat) := ⟨_, rfl⟩
  obtain ⟨q, hq⟩ : ∃ q : Int, q = (t / 2 ^ 64 : Nat) + 1 := ⟨_, rfl⟩
  obtain ⟨r, hr⟩ : ∃ r : Int, r = uhi.toNat * 2 ^ 64 + ulo.toNat - q * d.toNat := ⟨_, rfl⟩
  have hlow : t % 2 ^ 64 < 2 ^ 64 := Nat.mod_lt _ (by decide)
  obtain ⟨hdivisor, hbelow, habove⟩ := trialRemainder2by1_bounds (by omega) hkd hk d.isLt (BitVec.lt_def.1 h) ulo.isLt
    (reciprocal_product_split ht) hlow (r := r) (by rw [hr, hq, Nat.cast_pow, Nat.cast_ofNat])
  rw [Nat.cast_pow, Nat.cast_ofNat] at hbelow habove
  have hdown : BitVec.ofNat 64 t < (r : Word) ↔ (t % 2 ^ 64 : Nat) + 1 ≤ ((r : Word).toNat : Int) := by
    rw [BitVec.lt_def, BitVec.toNat_ofNat]
    omega
  rw [udivrem2by1Steps_eq ht hq hr, correctTrial_eq (u := uhi.toNat * 2 ^ 64 + ulo.toNat) (by omega) (by rw [hr]; ring)
    hdown (by omega) hdivisor hbelow habove, udivrem2by1]
  norm_cast

/-- With a normalized divisor above the two high words, the steps of R265 and its reciprocal give its contract. -/
theorem udivrem3by2Steps_eq_contract {u2 u1 u0 : Word} {d : DoubleWord} (hd : 2 ^ 127 ≤ d.toNat)
    (h : joinWords u2 u1 < d) : udivrem3by2Steps u2 u1 u0 d (reciprocal3by2 d) = udivrem3by2 u2 u1 u0 d := by
  obtain ⟨k, hkd, hk⟩ := reciprocal3by2_spec hd
  obtain ⟨t, ht⟩ : ∃ t, t = (reciprocal3by2 d).toNat * u2.toNat + (u2.toNat * 2 ^ 64 + u1.toNat) := ⟨_, rfl⟩
  obtain ⟨q, hq⟩ : ∃ q : Int, q = (t / 2 ^ 64 : Nat) + 1 := ⟨_, rfl⟩
  obtain ⟨r, hr⟩ : ∃ r : Int, r = u2.toNat * 2 ^ 128 + u1.toNat * 2 ^ 64 + u0.toNat - q * d.toNat := ⟨_, rfl⟩
  have hlow : t % 2 ^ 64 < 2 ^ 64 := Nat.mod_lt _ (by decide)
  rw [BitVec.lt_def, toNat_joinWords] at h
  obtain ⟨hdivisor, hbelow, habove⟩ := trialRemainder3by2_bounds (by omega) hkd hk (Nat.le_add_left ..) d.isLt
    (doubleWord_eq d) (lowWord d).isLt u1.isLt u0.isLt h (reciprocal_product_split ht) hlow (r := r)
    (by rw [hr, hq, Nat.cast_pow, Nat.cast_ofNat, ← pow_mul])
  rw [Nat.cast_pow, Nat.cast_ofNat, ← pow_mul] at hbelow habove
  have hlt : t < 2 ^ 128 := by
    have hproduct := mul_add_lt_mul h u0.isLt
    have hword : t / 2 ^ 64 * d.toNat < 2 ^ 64 * d.toNat := by
      zify at hproduct hq ⊢
      rw [hr, hq] at hdivisor
      linarith
    have := Nat.lt_of_mul_lt_mul_right hword
    omega
  rw [udivrem3by2Steps_eq ht hlt hq hr, correctTrial_eq (u := u2.toNat * 2 ^ 128 + u1.toNat * 2 ^ 64 + u0.toNat)
    (by omega) (by rw [hr]; ring) (ofNat_le_highWord_iff ..) (by omega) hdivisor hbelow habove, udivrem3by2]
  norm_cast

end Sys2Proof.Machine

namespace Sys2Proof

open Machine

/-- Settles O56: the steps give the contract's words, which are quotient and remainder. -/
theorem twoByOneStepsMeetContract : Obligations.TwoByOneStepsMeetContract := by
  intro uhi ulo d hd h
  rw [udivrem2by1Steps_eq_contract hd h]
  obtain ⟨hq, hr⟩ := udivrem2by1_spec ulo h
  refine ⟨rfl, ?_, ?_⟩
  · rw [hq, hr, Nat.div_add_mod']
  · exact BitVec.lt_def.2 (hr ▸ Nat.mod_lt _ (by omega))

/-- Settles O57, as O56. -/
theorem threeByTwoStepsMeetContract : Obligations.ThreeByTwoStepsMeetContract := by
  intro u2 u1 u0 d hd h
  rw [udivrem3by2Steps_eq_contract hd h]
  obtain ⟨hq, hr⟩ := udivrem3by2_spec u0 h
  refine ⟨rfl, ?_, ?_⟩
  · rw [hq, hr, Nat.div_add_mod']
  · exact BitVec.lt_def.2 (hr ▸ Nat.mod_lt _ (by omega))

end Sys2Proof

/-! ## The divider circuit (45_division.md R261, R266 to R275) -/

/-! ### `submul` (R266) -/

namespace Sys2Proof.Machine

/-- One word of `submul`: the high word of the product and the two borrows together are again one word. -/
theorem submulWord_spec (x y multiplier borrow : Word) :
    let s := subBorrow x borrow false
    let p := mulWide y multiplier
    let t := subBorrow s.1 p.2 false
    x.toNat + (p.1 + BitVec.ofNat 64 s.2.toNat + BitVec.ofNat 64 t.2.toNat).toNat * 2 ^ 64 =
      t.1.toNat + multiplier.toNat * y.toNat + borrow.toNat := by
  intro s p t
  have hs := subBorrow_spec x borrow false
  have hp := mulWide_spec y multiplier
  have ht := subBorrow_spec s.1 p.2 false
  have hfit := mul_add_add_lt y.isLt multiplier.isLt borrow.isLt t.1.isLt
  have hsum : x.toNat + (p.1.toNat + s.2.toNat + t.2.toNat) * 2 ^ 64 =
      t.1.toNat + y.toNat * multiplier.toNat + borrow.toNat := by
    rw [Bool.toNat_false] at hs ht
    linarith
  have hcarry : (p.1 + BitVec.ofNat 64 s.2.toNat + BitVec.ofNat 64 t.2.toNat).toNat =
      p.1.toNat + s.2.toNat + t.2.toNat := by
    simp only [BitVec.toNat_add, BitVec.toNat_ofNat]
    omega
  rw [hcarry, Nat.mul_comm multiplier.toNat, hsum]

/-- `submul` with a borrow in, as a sum of natural numbers. -/
theorem submul_spec {xs ys : List Word} (h : xs.length = ys.length) (multiplier borrow : Word) :
    (submul xs ys multiplier borrow).1.length = xs.length ∧
    value xs + (submul xs ys multiplier borrow).2.toNat * 2 ^ (64 * xs.length) =
      value (submul xs ys multiplier borrow).1 + multiplier.toNat * value ys + borrow.toNat := by
  induction xs generalizing ys borrow with
  | nil =>
    obtain rfl := List.length_eq_zero_iff.1 h.symm
    simp [submul, value]
  | cons x xs ih =>
    cases ys with
    | nil => cases h
    | cons y ys =>
      have hword := submulWord_spec x y multiplier borrow
      obtain ⟨hlength, hvalue⟩ := ih (Nat.succ.inj h) _
      simp only [submul, value, List.length_cons, Nat.mul_succ, Nat.add_comm (64 * xs.length), Nat.pow_add]
      refine ⟨congrArg (· + 1) hlength, ?_⟩
      linear_combination hword + 2 ^ 64 * hvalue

@[simp] theorem length_submul {xs ys : List Word} (h : xs.length = ys.length) (multiplier borrow : Word) :
    (submul xs ys multiplier borrow).1.length = xs.length := (submul_spec h multiplier borrow).1

@[simp] theorem length_rippleAdd {xs ys : List Word} (h : xs.length = ys.length) (c : Bool) :
    (rippleAdd xs ys c).1.length = xs.length := (rippleAdd_spec h c).1

end Sys2Proof.Machine

namespace Sys2Proof

open Machine

/-- Settles O58, by induction on the words. -/
theorem submulContract : Obligations.SubmulContract := by
  intro x y multiplier h
  obtain ⟨hlength, hvalue⟩ := submul_spec h multiplier 0
  refine ⟨hlength, ?_⟩
  rw [show (0 : Word).toNat = 0 from rfl] at hvalue
  zify at hvalue
  linear_combination hvalue

end Sys2Proof

/-! ### Arrays in parts

The loops work on an array from the top down: `low` is what is still to do, of which the last word is next. -/

namespace Sys2Proof.Machine

section
variable {a : List Word} {n : Nat} (h : a.length = n) (b c : List Word) (i : Nat) (x y : Word)
include h

@[simp] theorem wordOf_append_right : wordOf (a ++ b) (n + i) = wordOf b i := by
  rw [wordOf, List.getD_append_right _ _ _ _ (by omega), wordOf, ← h, Nat.add_sub_cancel_left]

@[simp] theorem wordOf_append_cons : wordOf (a ++ x :: b) n = x := wordOf_append_right h (x :: b) 0

@[simp] theorem set_append_right : (a ++ b).set (n + i) x = a ++ b.set i x := by
  rw [List.set_append_right _ _ (by omega), ← h, Nat.add_sub_cancel_left]

@[simp] theorem set_append_cons : (a ++ x :: b).set n y = a ++ y :: b := set_append_right h (x :: b) 0 y

@[simp] theorem window_append_right : window (a ++ b) n i = b.take i := by
  rw [window, List.drop_left' h]

@[simp] theorem splice_append_right : splice (a ++ b) n c = a ++ (c ++ b.drop c.length) := by
  rw [splice, List.take_left' h, ← List.drop_drop, List.drop_left' h, List.append_assoc]

@[simp] theorem take_append_right : (a ++ b).take (n + i) = a ++ b.take i := by
  rw [← h, List.take_length_add_append]

@[simp] theorem drop_append_right : (a ++ b).drop (n + i) = b.drop i := by
  rw [← List.drop_drop, List.drop_left' h]

end

@[simp] theorem wordOf_cons_zero (x : Word) (a : List Word) : wordOf (x :: a) 0 = x := rfl

@[simp] theorem wordOf_cons_succ (x : Word) (a : List Word) (i : Nat) : wordOf (x :: a) (i + 1) = wordOf a i := rfl

@[simp] theorem window_zero (a : List Word) (n : Nat) : window a 0 n = a.take n := rfl

theorem value_singleton (x : Word) : value [x] = x.toNat := by simp [value]

theorem value_pair (x0 x1 : Word) : value [x0, x1] = (joinWords x1 x0).toNat := by
  rw [toNat_joinWords]
  simp only [value]
  ring

theorem value_take (a : List Word) (j : Nat) : value (a.take j) = value a % 2 ^ (64 * j) := by
  obtain h | h := Nat.le_total j a.length
  · have hlt := value_lt (a.take j)
    rw [List.length_take, Nat.min_eq_left h] at hlt
    rw [value_take_drop a j h, Nat.add_mul_mod_self_left, Nat.mod_eq_of_lt hlt]
  · have hle : 2 ^ (64 * a.length) ≤ 2 ^ (64 * j) := Nat.pow_le_pow_right (by decide) (by omega)
    rw [List.take_of_length_le h, Nat.mod_eq_of_lt (Nat.lt_of_lt_of_le (value_lt a) hle)]

/-! ### The fast paths (R269, R270) -/

/-- Division by one or two words, top word first: the loop that both fast paths are. -/
def digitLoop {n : Nat} (step : BitVec n → Word → Word × BitVec n) : Nat → BitVec n → List Word → List Word × BitVec n
  | 0, rem, un => (un, rem)
  | i + 1, rem, un =>
    let qr := step rem (wordOf un i)
    digitLoop step i qr.2 (un.set i qr.1)

theorem oneWordLoop_eq (d : Word) (i : Nat) (rem : Word) (un : List Word) :
    oneWordLoop d i rem un = digitLoop (fun rem x => udivrem2by1 rem x d) i rem un := by
  induction i generalizing rem un with
  | zero => rfl
  | succ i ih => exact ih ..

theorem twoWordLoop_eq (d : DoubleWord) (i : Nat) (rem : DoubleWord) (un : List Word) :
    twoWordLoop d i rem un = digitLoop (fun rem x => udivrem3by2 (highWord rem) (lowWord rem) x d) i rem un := by
  induction i generalizing rem un with
  | zero => rfl
  | succ i ih => exact ih ..

/-- `step` divides a remainder below `d`, followed by a word, by `d`. -/
def DividesBy {n : Nat} (d : Nat) (step : BitVec n → Word → Word × BitVec n) : Prop :=
  ∀ rem x, rem.toNat < d →
    (step rem x).1.toNat * d + (step rem x).2.toNat = rem.toNat * 2 ^ 64 + x.toNat ∧ (step rem x).2.toNat < d

theorem dividesBy_udivrem2by1 (d : Word) : DividesBy d.toNat fun rem x => udivrem2by1 rem x d := by
  intro rem x h
  obtain ⟨hq, hr⟩ := udivrem2by1_spec x (BitVec.lt_def.2 h)
  exact ⟨by rw [hq, hr, Nat.div_add_mod'], hr ▸ Nat.mod_lt _ (by omega)⟩

theorem dividesBy_udivrem3by2 (d : DoubleWord) :
    DividesBy d.toNat fun rem x => udivrem3by2 (highWord rem) (lowWord rem) x d := by
  intro rem x h
  have hrem := doubleWord_eq rem
  have hjoin : joinWords (highWord rem) (lowWord rem) < d := by
    rw [BitVec.lt_def, toNat_joinWords, ← hrem]; exact h
  obtain ⟨hq, hr⟩ := udivrem3by2_spec x hjoin
  refine ⟨?_, hr ▸ Nat.mod_lt _ (by omega)⟩
  rw [hq, hr, Nat.div_add_mod', hrem]
  ring

/-- One round: the word next to do is replaced by its digit. -/
theorem digitLoop_append {n : Nat} (step : BitVec n → Word → Word × BitVec n) (low top : List Word) (x : Word)
    (rem : BitVec n) :
    digitLoop step (low.length + 1) rem (low ++ x :: top) =
      digitLoop step low.length (step rem x).2 (low ++ (step rem x).1 :: top) := by
  have hword : wordOf (low ++ x :: top) low.length = x := wordOf_append_cons rfl top x
  have hset : (low ++ x :: top).set low.length (step rem x).1 = low ++ (step rem x).1 :: top :=
    set_append_cons rfl top x _
  rw [digitLoop, hword, hset]

/-- The loop replaces the words still to do by the digits of the quotient, and ends with the remainder. -/
theorem digitLoop_spec {n d : Nat} {step : BitVec n → Word → Word × BitVec n} (hstep : DividesBy d step)
    (low top : List Word) {rem : BitVec n} (hrem : rem.toNat < d) :
    ∃ digits r, digitLoop step low.length rem (low ++ top) = (digits ++ top, r) ∧ digits.length = low.length ∧
      value digits * d + r.toNat = value low + 2 ^ (64 * low.length) * rem.toNat ∧ r.toNat < d := by
  induction low using List.reverseRecOn generalizing rem top with
  | nil => exact ⟨[], rem, rfl, rfl, by simp [value], hrem⟩
  | append_singleton low x ih =>
    obtain ⟨hvalue, hlt⟩ := hstep rem x hrem
    obtain ⟨digits, r, hloop, hlength, hdigits, hr⟩ := ih ((step rem x).1 :: top) hlt
    refine ⟨digits ++ [(step rem x).1], r, ?_, by simp [hlength], ?_, hr⟩
    · rw [List.append_assoc, List.append_assoc, List.length_append]
      exact (digitLoop_append ..).trans hloop
    · rw [value_append, value_append, value_singleton, value_singleton, List.length_append, List.length_singleton,
        Nat.mul_succ, Nat.pow_add, hlength]
      linear_combination hdigits + 2 ^ (64 * low.length) * hvalue

end Sys2Proof.Machine

/-! ### One digit of the general case (R271 to R274) -/

namespace Sys2Proof.Machine

/-! #### The arithmetic

The numerator is `x + w * t`, where `t` stands for its three high words and `w` for the weight of the lowest of them,
and the divisor is `y + w * top`, where `top` stands for its two high words; `b` is the word base. -/

section
variable {b w x y top : Nat}

/-- The high words of a numerator below the divisor's multiple of the base are not above those of the divisor. -/
theorem high_le_top {high u0 : Nat} (hy : y < w) (hlt : x + w * (high * b + u0) < b * (y + w * top)) :
    high ≤ top := by
  by_contra h
  have hhigh : b * w * (top + 1) ≤ b * w * high := Nat.mul_le_mul_left _ (Nat.lt_of_not_le h)
  have hlow : b * y ≤ b * w := Nat.mul_le_mul_left b hy.le
  have hword := Nat.zero_le (w * u0)
  linarith

/-- A divisor whose two high words are not below the base is not below `b * w`. -/
theorem mul_le_divisor (htop : b ≤ top) (y : Nat) : b * w ≤ y + w * top := by
  have := Nat.mul_le_mul_left w htop
  linarith

/-- Without a borrow the trial digit is the exact one. -/
theorem trialDigit_exact {q r v : Nat} (hx : x < w) (hr : r < top) (hv : x + w * r = v + q * y) :
    q * (y + w * top) + v = x + w * (q * top + r) ∧ v < y + w * top := by
  have hlt : w * (r + 1) ≤ w * top := Nat.mul_le_mul_left w hr
  have hle : v ≤ x + w * r := hv ▸ Nat.le_add_right ..
  refine ⟨by linear_combination -hv, by linarith⟩

/-- With a borrow, which stands for `w * b ^ 2`, the trial digit is too large by 1: a single correction suffices. -/
theorem trialDigit_correction {q r v : Nat} (hy : y < w) (hq : q < b) (htop : b ≤ top)
    (hv : x + w * r + w * b ^ 2 = v + q * y) (hvlt : v < w * b ^ 2) (hdlt : y + w * top < w * b ^ 2) :
    0 < q ∧ (q - 1) * (y + w * top) + (v + (y + w * top)) % (w * b ^ 2) = x + w * (q * top + r) ∧
      (v + (y + w * top)) % (w * b ^ 2) < y + w * top := by
  have hpos : 0 < q := by
    refine Nat.pos_of_ne_zero fun h => ?_
    rw [h] at hv
    omega
  have hproduct : q * y ≤ b * w := Nat.mul_le_mul hq.le hy.le
  have hdivisor := mul_le_divisor (w := w) htop y
  have hwrap : w * b ^ 2 ≤ v + (y + w * top) := by omega
  have hmod : (v + (y + w * top)) % (w * b ^ 2) = v + (y + w * top) - w * b ^ 2 := by
    rw [Nat.mod_eq_sub_mod hwrap, Nat.mod_eq_of_lt (by omega)]
  obtain ⟨p, rfl⟩ : ∃ p, q = p + 1 := ⟨q - 1, by omega⟩
  have hidentity : p * (y + w * top) + (v + (y + w * top)) = x + w * ((p + 1) * top + r) + w * b ^ 2 := by
    linear_combination -hv
  rw [hmod]
  refine ⟨hpos, ?_, by omega⟩
  rw [Nat.add_sub_cancel, ← Nat.add_sub_assoc hwrap, hidentity, Nat.add_sub_cancel]

/-- Where the two high words are those of the divisor, the largest digit is exact. -/
theorem overflowDigit_exact {u0 : Nat} (hy : y < w) (htop : b ≤ top)
    (hlt : x + w * (top * b + u0) < b * (y + w * top)) :
    ∃ r, (b - 1) * (y + w * top) + r = x + w * (top * b + u0) ∧ r < y + w * top := by
  obtain ⟨c, rfl⟩ : ∃ c, b = c + 1 := Nat.exists_eq_add_one.2 (Nat.pos_of_ne_zero fun h => by simp [h] at hlt)
  have hproduct : c * y ≤ w * (c + 1) := (Nat.mul_comm w _).symm ▸ Nat.mul_le_mul (Nat.le_succ c) hy.le
  have htop' := Nat.mul_le_mul_left w htop
  have hle : c * (y + w * top) ≤ x + w * (top * (c + 1) + u0) := by
    have := Nat.zero_le (w * u0)
    linarith
  rw [Nat.add_sub_cancel]
  refine ⟨_, Nat.add_sub_cancel' hle, ?_⟩
  rw [Nat.sub_lt_iff_lt_add' hle]
  linarith

end

/-! #### The words -/

/-- The words of the numerator minus the trial digit's multiple of the divisor, and the borrow out (R272): `xs` and `ys`
are the words below the high ones, `qr` is what the 3-by-2 unit answered. -/
def trialDifference (xs ys : List Word) (qr : Word × DoubleWord) : List Word × Bool :=
  let sm := submul xs ys qr.1 0
  let low := subBorrow (lowWord qr.2) sm.2 false
  let high := subBorrow (highWord qr.2) 0 low.2
  (sm.1 ++ [low.1, high.1], high.2)

/-- The divisor, of `k + 1` words, added back to a difference that borrowed (R274); the highest word drops its carry. -/
def addBack (a d : List Word) (k : Nat) : List Word :=
  let back := rippleAdd (a.take k) (d.take k) false
  back.1 ++ [wordOf a k + wordOf d k + BitVec.ofNat 64 back.2.toNat]

theorem trialDifference_spec {xs ys : List Word} (h : xs.length = ys.length) (qr : Word × DoubleWord) :
    (trialDifference xs ys qr).1.length = xs.length + 2 ∧
    value xs + 2 ^ (64 * xs.length) * qr.2.toNat +
        (trialDifference xs ys qr).2.toNat * (2 ^ (64 * xs.length) * (2 ^ 64) ^ 2) =
      value (trialDifference xs ys qr).1 + qr.1.toNat * value ys := by
  obtain ⟨hlength, hvalue⟩ := submul_spec h qr.1 0
  simp only [trialDifference]
  generalize submul xs ys qr.1 0 = sm at *
  have hlow := subBorrow_spec (lowWord qr.2) sm.2 false
  generalize subBorrow (lowWord qr.2) sm.2 false = low at *
  have hhigh := subBorrow_spec (highWord qr.2) 0 low.2
  generalize subBorrow (highWord qr.2) 0 low.2 = high at *
  rw [show (0 : Word).toNat = 0 from rfl, Bool.toNat_false] at *
  refine ⟨by simp [hlength], ?_⟩
  rw [value_append, hlength, doubleWord_eq qr.2]
  simp only [value]
  linear_combination hvalue + 2 ^ (64 * xs.length) * hlow + 2 ^ (64 * xs.length) * 2 ^ 64 * hhigh

theorem value_eq_take_add {a : List Word} {k : Nat} (h : a.length = k + 1) :
    value a = value (a.take k) + 2 ^ (64 * k) * (wordOf a k).toNat := by
  have hdrop : a.drop k = [wordOf a k] := by
    rw [List.drop_eq_getElem_cons (by omega), List.drop_of_length_le (by omega), wordOf,
      List.getD_eq_getElem _ _ (by omega)]
  rw [value_take_drop a k (by omega), hdrop, value_singleton]

theorem addBack_spec {a d : List Word} {k : Nat} (ha : a.length = k + 1) (hd : d.length = k + 1) :
    (addBack a d k).length = k + 1 ∧ value (addBack a d k) = (value a + value d) % 2 ^ (64 * (k + 1)) := by
  have hk : (a.take k).length = k := by simp [ha]
  obtain ⟨hlength, hvalue⟩ := rippleAdd_spec (xs := a.take k) (ys := d.take k) (by simp [ha, hd]) false
  rw [value_eq_take_add ha, value_eq_take_add hd]
  simp only [addBack]
  generalize rippleAdd (a.take k) (d.take k) false = back at *
  rw [hk] at hlength hvalue
  have hlast : (wordOf a k + wordOf d k + BitVec.ofNat 64 back.2.toNat).toNat =
      ((wordOf a k).toNat + (wordOf d k).toNat + back.2.toNat) % 2 ^ 64 := by
    simp [BitVec.toNat_add]
  have hlow : value back.1 < 2 ^ (64 * k) := hlength ▸ value_lt back.1
  refine ⟨by simp [hlength], ?_⟩
  have hsum : value (a.take k) + 2 ^ (64 * k) * (wordOf a k).toNat +
      (value (d.take k) + 2 ^ (64 * k) * (wordOf d k).toNat) =
      ((wordOf a k).toNat + (wordOf d k).toNat + back.2.toNat) * 2 ^ (64 * k) + value back.1 := by
    rw [Bool.toNat_false] at hvalue
    linear_combination hvalue
  rw [value_append, value_singleton, hlast, hlength, hsum, Nat.mul_succ, Nat.pow_add,
    Nat.mod_mul, Nat.mul_add_mod_self_right, Nat.mod_eq_of_lt hlow, Nat.add_comm (_ * _),
    Nat.add_mul_div_right _ _ (Nat.two_pow_pos _), Nat.div_eq_of_lt hlow, Nat.zero_add]

/-- A step of the general case on an array in parts, with the words it reads and writes by name. -/
theorem knuthStep_eq {xs ys : List Word} {k : Nat} (hx : xs.length = k) (hy : ys.length = k) (low rest : List Word)
    (u0 u1 u2 d0 d1 : Word) :
    knuthStep (ys ++ [d0, d1]) (k + 2) low.length (low ++ (xs ++ u0 :: u1 :: u2 :: rest)) =
      if joinWords u2 u1 = joinWords d1 d0 then
        let sm := submul (xs ++ [u0, u1]) (ys ++ [d0, d1]) (BitVec.ofNat 64 (2 ^ 64 - 1)) 0
        (low ++ (sm.1 ++ (u2 - sm.2) :: rest), BitVec.ofNat 64 (2 ^ 64 - 1), [.overflow])
      else
        let qr := udivrem3by2 u2 u1 u0 (joinWords d1 d0)
        let difference := trialDifference xs ys qr
        if difference.2 then
          (low ++ (addBack difference.1 (ys ++ [d0, d1]) (k + 1) ++ u2 :: rest), qr.1 - 1, [.correction])
        else (low ++ (difference.1 ++ u2 :: rest), qr.1, []) := by
  have hindex : low.length + (k + 2) - 2 = low.length + k := by omega
  simp [knuthStep, trialDifference, addBack, hx, hy, hindex]

end Sys2Proof.Machine

namespace Sys2Proof.Machine

/-! #### The digit is exact -/

/-- The words above the first `k`, for an array of two or three more. -/
theorem exists_eq_append_two {a : List Word} {k : Nat} (h : a.length = k + 2) :
    ∃ xs u0 u1, xs.length = k ∧ a = xs ++ [u0, u1] := by
  obtain ⟨u0, u1, hdrop⟩ := List.length_eq_two.1 (show (a.drop k).length = 2 by rw [List.length_drop]; omega)
  exact ⟨a.take k, u0, u1, by rw [List.length_take]; omega, by rw [← hdrop, List.take_append_drop]⟩

theorem exists_eq_append_three {a : List Word} {k : Nat} (h : a.length = k + 3) :
    ∃ xs u0 u1 u2, xs.length = k ∧ a = xs ++ [u0, u1, u2] := by
  obtain ⟨u0, u1, u2, hdrop⟩ := List.length_eq_three.1 (show (a.drop k).length = 3 by rw [List.length_drop]; omega)
  exact ⟨a.take k, u0, u1, u2, by rw [List.length_take]; omega, by rw [← hdrop, List.take_append_drop]⟩

/-- Digits below the base are determined by what they stand for. -/
theorem eq_of_add_mul_eq {n a b c d : Nat} (ha : a < n) (hb : b < n) (h : a + n * c = b + n * d) : a = b := by
  have hmod := congrArg (· % n) h
  simpa only [Nat.add_mul_mod_self_left, Nat.mod_eq_of_lt ha, Nat.mod_eq_of_lt hb] using hmod

section
variable {xs ys : List Word} {k : Nat} (u0 u1 u2 d0 d1 : Word)

theorem value_append_two (hy : ys.length = k) :
    value (ys ++ [d0, d1]) = value ys + 2 ^ (64 * k) * (joinWords d1 d0).toNat := by
  rw [value_append, hy, toNat_joinWords]
  simp only [value]
  ring

theorem value_append_three (hx : xs.length = k) :
    value (xs ++ [u0, u1, u2]) = value xs + 2 ^ (64 * k) * ((joinWords u2 u1).toNat * 2 ^ 64 + u0.toNat) := by
  rw [value_append, hx, toNat_joinWords]
  simp only [value]
  ring

variable {u0 u1 u2 d0 d1}

/-- In the overflow branch (R271) the largest digit leaves a remainder in as many words as the divisor has; the
numerator's highest word and the borrow cancel. -/
theorem submul_overflow (hx : xs.length = k) (hy : ys.length = k) (htop : 2 ^ 64 ≤ (joinWords d1 d0).toNat)
    (hlt : value (xs ++ [u0, u1, u2]) < 2 ^ 64 * value (ys ++ [d0, d1])) (heq : joinWords u2 u1 = joinWords d1 d0) :
    let sm := submul (xs ++ [u0, u1]) (ys ++ [d0, d1]) (BitVec.ofNat 64 (2 ^ 64 - 1)) 0
    (2 ^ 64 - 1) * value (ys ++ [d0, d1]) + value sm.1 = value (xs ++ [u0, u1, u2]) ∧
      value sm.1 < value (ys ++ [d0, d1]) := by
  intro sm
  have hlength : (xs ++ [u0, u1]).length = (ys ++ [d0, d1]).length := by simp [hx, hy]
  obtain ⟨hsm, hvalue⟩ := submul_spec hlength (BitVec.ofNat 64 (2 ^ 64 - 1)) 0
  change value (xs ++ [u0, u1]) + sm.2.toNat * _ = value sm.1 + (2 ^ 64 - 1) * _ + 0 at hvalue
  have hys := hy ▸ value_lt ys
  have hd := hlength ▸ value_lt (ys ++ [d0, d1])
  have hr : value sm.1 < 2 ^ (64 * (xs ++ [u0, u1]).length) := hsm ▸ value_lt sm.1
  have hsplit : value (xs ++ [u0, u1, u2]) =
      value (xs ++ [u0, u1]) + 2 ^ (64 * (xs ++ [u0, u1]).length) * u2.toNat := by
    rw [← value_singleton u2, ← value_append, List.append_assoc]
    rfl
  rw [value_append_three _ _ _ hx, heq] at hlt hsplit ⊢
  rw [value_append_two _ _ hy] at hlt hvalue hd ⊢
  obtain ⟨v, hv, hvlt⟩ := overflowDigit_exact hys htop hlt
  obtain rfl : value sm.1 = v := by
    refine eq_of_add_mul_eq hr (hvlt.trans hd) (c := u2.toNat) (d := sm.2.toNat) ?_
    linarith
  exact ⟨hv, hvlt⟩

/-- Outside the overflow branch the trial digit is exact if its difference does not borrow (R272, R273), and otherwise
after one correction (R274). -/
theorem trialDifference_digit (hx : xs.length = k) (hy : ys.length = k) (htop : 2 ^ 64 ≤ (joinWords d1 d0).toNat)
    (hlt : value (xs ++ [u0, u1, u2]) < 2 ^ 64 * value (ys ++ [d0, d1])) (hne : joinWords u2 u1 ≠ joinWords d1 d0) :
    let d := ys ++ [d0, d1]
    let qr := udivrem3by2 u2 u1 u0 (joinWords d1 d0)
    let difference := trialDifference xs ys qr
    difference.1.length = k + 2 ∧
    (difference.2 = false → qr.1.toNat * value d + value difference.1 = value (xs ++ [u0, u1, u2]) ∧
      value difference.1 < value d) ∧
    (difference.2 = true → (qr.1 - 1).toNat * value d + value (addBack difference.1 d (k + 1)) =
      value (xs ++ [u0, u1, u2]) ∧ value (addBack difference.1 d (k + 1)) < value d) := by
  intro d qr difference
  have hxs := hx ▸ value_lt xs
  have hys := hy ▸ value_lt ys
  have hdlength : d.length = k + 2 := by simp [d, hy]
  have hdvalue : value d = value ys + 2 ^ (64 * k) * (joinWords d1 d0).toNat := value_append_two _ _ hy
  have hweight : 2 ^ (64 * (k + 2)) = 2 ^ (64 * k) * (2 ^ 64) ^ 2 := by
    rw [← Nat.pow_mul, ← Nat.pow_add, Nat.mul_add]
  rw [value_append_three _ _ _ hx, value_append_two _ _ hy] at hlt
  have hhigh : (joinWords u2 u1).toNat < (joinWords d1 d0).toNat :=
    lt_of_le_of_ne (high_le_top hys hlt) fun h => hne (BitVec.eq_of_toNat_eq h)
  have hqr : qr.1.toNat * (joinWords d1 d0).toNat + qr.2.toNat = (joinWords u2 u1).toNat * 2 ^ 64 + u0.toNat ∧
      qr.2.toNat < (joinWords d1 d0).toNat := by
    simpa only [highWord_joinWords, lowWord_joinWords] using dividesBy_udivrem3by2 (joinWords d1 d0) _ u0 hhigh
  obtain ⟨hsplit, hr⟩ := hqr
  obtain ⟨hlength, hvalue⟩ : difference.1.length = _ ∧ _ + difference.2.toNat * _ = value difference.1 + _ :=
    trialDifference_spec (hx.trans hy.symm) qr
  rw [hx] at hlength hvalue
  rw [value_append_three _ _ _ hx, ← hsplit, hdvalue]
  refine ⟨hlength, fun hborrow => ?_, fun hborrow => ?_⟩
  · rw [hborrow, Bool.toNat_false, Nat.zero_mul, Nat.add_zero] at hvalue
    exact trialDigit_exact hxs hr hvalue
  · rw [hborrow, Bool.toNat_true, Nat.one_mul] at hvalue
    have hvlt := value_lt difference.1
    have hdlt := value_lt d
    rw [hlength, hweight] at hvlt
    rw [hdlength, hdvalue, hweight] at hdlt
    obtain ⟨hpos, hcorrect⟩ := trialDigit_correction hys qr.1.isLt htop hvalue hvlt hdlt
    have hdigit : (qr.1 - 1).toNat = qr.1.toNat - 1 := BitVec.toNat_sub_of_le (BitVec.le_def.2 hpos)
    rw [(addBack_spec hlength hdlength).2, hdigit, hdvalue, hweight]
    exact hcorrect

end

/-- One digit: the numerator's top words are replaced by the remainder, and the word above it is not read again. -/
theorem knuthStep_spec {d win : List Word} {k : Nat} (hd : d.length = k + 2) (hnorm : 2 ^ (64 * (k + 1)) ≤ value d)
    (hwin : win.length = k + 2) (hlt : value win < value d) (low rest : List Word) (x : Word) :
    ∃ win' rest' digit path,
      knuthStep d (k + 2) low.length (low ++ (x :: win ++ rest)) = (low ++ (win' ++ rest'), digit, path) ∧
      win'.length = k + 2 ∧ digit.toNat * value d + value win' = x.toNat + 2 ^ 64 * value win ∧
      value win' < value d := by
  obtain ⟨ys, d0, d1, hy, rfl⟩ := exists_eq_append_two hd
  obtain ⟨xs, u0, u1, u2, hx, hwords⟩ := exists_eq_append_three (a := x :: win) (k := k) (by simp [hwin])
  have htop : 2 ^ 64 ≤ (joinWords d1 d0).toNat := by
    have hys := hy ▸ value_lt ys
    rw [value_append_two _ _ hy, Nat.mul_succ, Nat.pow_add] at hnorm
    by_contra hsmall
    have := Nat.mul_le_mul_left (2 ^ (64 * k)) (Nat.lt_of_not_le hsmall)
    linarith
  have hvalue : value (xs ++ [u0, u1, u2]) = x.toNat + 2 ^ 64 * value win := by rw [← hwords, value]
  have hlt' : value (xs ++ [u0, u1, u2]) < 2 ^ 64 * value (ys ++ [d0, d1]) := by
    have := x.isLt
    omega
  rw [hwords, List.append_assoc, ← hvalue]
  simp only [List.cons_append, List.nil_append, knuthStep_eq hx hy]
  split
  case isTrue heq =>
    exact ⟨_, _, _, _, rfl, by simp [hx, hy], submul_overflow hx hy htop hlt' heq⟩
  case isFalse hne =>
    obtain ⟨hlength, hexact, hcorrection⟩ := trialDifference_digit hx hy htop hlt' hne
    split
    case isTrue hborrow =>
      exact ⟨_, _, _, _, rfl, (addBack_spec hlength hd).1, hcorrection hborrow⟩
    case isFalse hborrow =>
      exact ⟨_, _, _, _, rfl, hlength, hexact (Bool.eq_false_iff.2 hborrow)⟩

/-! ### The loop of the general case (R271) -/

/-- One round: the digit is written over the last of the zeros below the digits found so far. -/
theorem knuthLoop_append {d un low top digits : List Word} {n : Nat} {x digit : Word} {path path' : List DivBranch}
    (hstep : knuthStep d n low.length (low ++ x :: top) = (un, digit, path')) :
    knuthLoop d n (low.length + 1) (low ++ x :: top) (List.replicate (low.length + 1) 0 ++ digits) path =
      knuthLoop d n low.length un (List.replicate low.length 0 ++ digit :: digits) (path ++ path') := by
  have hset : (List.replicate (low.length + 1) 0 ++ digits).set low.length digit =
      List.replicate low.length 0 ++ digit :: digits := by
    rw [List.replicate_succ', List.append_assoc]
    exact set_append_cons List.length_replicate digits 0 digit
  rw [knuthLoop, hstep, hset]

/-- The loop writes the digits of the quotient of `low` and `win` above it, and ends with the remainder. -/
theorem knuthLoop_spec {d : List Word} {k : Nat} (hd : d.length = k + 2) (hnorm : 2 ^ (64 * (k + 1)) ≤ value d)
    (low rest top : List Word) (path : List DivBranch) {win : List Word} (hwin : win.length = k + 2)
    (hlt : value win < value d) :
    ∃ digits win' rest' path', knuthLoop d (k + 2) low.length (low ++ (win ++ rest))
        (List.replicate low.length 0 ++ top) path = (win' ++ rest', digits ++ top, path') ∧
      digits.length = low.length ∧ win'.length = k + 2 ∧
      value digits * value d + value win' = value low + 2 ^ (64 * low.length) * value win ∧ value win' < value d := by
  induction low using List.reverseRecOn generalizing win rest top path with
  | nil => exact ⟨[], win, rest, path, rfl, rfl, hwin, by simp [value], hlt⟩
  | append_singleton low x ih =>
    obtain ⟨win₁, rest₁, digit, path₁, hstep, hwin₁, hvalue₁, hlt₁⟩ := knuthStep_spec hd hnorm hwin hlt low rest x
    obtain ⟨digits, win', rest', path', hloop, hlength, hwin', hvalue, hlt'⟩ :=
      ih rest₁ (digit :: top) (path ++ path₁) hwin₁ hlt₁
    refine ⟨digits ++ [digit], win', rest', path', ?_, by simp [hlength], hwin', ?_, hlt'⟩
    · rw [List.append_assoc, List.append_assoc, List.length_append]
      exact (knuthLoop_append hstep).trans hloop
    · rw [value_append, value_append, value_singleton, value_singleton, List.length_append, List.length_singleton,
        Nat.mul_succ, Nat.pow_add, hlength]
      linear_combination hvalue + 2 ^ (64 * low.length) * hvalue₁

end Sys2Proof.Machine

/-! ### Normalization and the numerator's length (R261, R268) -/

namespace Sys2Proof.Machine

/-- The words of an array, as digits of its value. -/
theorem toNat_wordOf {a : List Word} {i : Nat} (h : i < a.length) :
    (wordOf a i).toNat = value a / 2 ^ (64 * i) % 2 ^ 64 := by
  have hword := toNat_wordOf_toWords a.length (value a) i h
  rwa [toWords_value] at hword

/-- A value fits in its significant words, and not in fewer. -/
theorem significantWords_spec (a : List Word) :
    significantWords a ≤ a.length ∧ value a < 2 ^ (64 * significantWords a) ∧
      (significantWords a ≠ 0 → 2 ^ (64 * (significantWords a - 1)) ≤ value a) := by
  induction a with
  | nil => simp [significantWords, value]
  | cons x xs ih =>
    obtain ⟨hlength, hlt, hle⟩ := ih
    rw [significantWords, value, List.length_cons]
    by_cases hxs : significantWords xs = 0
    · have hzero : value xs = 0 := by simpa [hxs] using hlt
      rw [if_pos hxs, hzero, Nat.mul_zero, Nat.add_zero]
      split
      case isTrue hx => simp [hx]
      case isFalse hx =>
        have hpos : 0 < x.toNat := Nat.pos_of_ne_zero fun h => hx (BitVec.eq_of_toNat_eq h)
        exact ⟨Nat.le_add_left .., x.isLt, fun _ => hpos⟩
    · have hword := mul_add_lt_mul hlt x.isLt
      have hhigh := Nat.mul_le_mul_left (2 ^ 64) (hle hxs)
      have hweight : 64 * significantWords xs = 64 + 64 * (significantWords xs - 1) := by omega
      rw [if_neg hxs, Nat.add_sub_cancel, Nat.mul_succ, Nat.pow_add]
      refine ⟨by omega, by linarith, fun _ => ?_⟩
      rw [hweight, Nat.pow_add]
      linarith

/-- The shift that brings the top bit of the highest word `v / w` to bit 63 brings no bit out of the word (R261). -/
theorem shifted_bounds {v w s : Nat} (hw : 0 < w) (hs : s ≤ 63) (hlo : 2 ^ 63 ≤ v / w * 2 ^ s)
    (hhi : v / w * 2 ^ s < 2 ^ 64) : 2 ^ 63 * w ≤ v * 2 ^ s ∧ v * 2 ^ s < 2 ^ 64 * w := by
  have hsplit : 2 ^ 64 = 2 ^ (64 - s) * 2 ^ s := by rw [← Nat.pow_add]; congr 1; omega
  have hword : v / w < 2 ^ (64 - s) := Nat.lt_of_mul_lt_mul_right (hsplit ▸ hhi)
  have hv : v < 2 ^ (64 - s) * w := (Nat.div_lt_iff_lt_mul hw).1 hword
  constructor
  · calc 2 ^ 63 * w ≤ v / w * 2 ^ s * w := Nat.mul_le_mul_right w hlo
      _ = v / w * w * 2 ^ s := by ring
      _ ≤ v * 2 ^ s := Nat.mul_le_mul_right _ (Nat.div_mul_le_self v w)
  · calc v * 2 ^ s < 2 ^ (64 - s) * w * 2 ^ s := Nat.mul_lt_mul_of_pos_right hv (Nat.two_pow_pos s)
      _ = 2 ^ 64 * w := by rw [hsplit]; ring

/-- The leading zeros of the highest significant word are the shift that normalizes an array. -/
theorem normalizingShift_spec {a : List Word} (hne : value a ≠ 0) :
    let n := significantWords a
    let s := clz64 (wordOf a (n - 1))
    0 < n ∧ s ≤ 63 ∧ 2 ^ 63 * 2 ^ (64 * (n - 1)) ≤ value a * 2 ^ s ∧ value a * 2 ^ s < 2 ^ (64 * n) := by
  intro n s
  obtain ⟨hn, hlt, hle⟩ : n ≤ _ ∧ _ < 2 ^ (64 * n) ∧ (n ≠ 0 → 2 ^ (64 * (n - 1)) ≤ _) := significantWords_spec a
  have hn0 : n ≠ 0 := fun h => hne (by simpa [h] using hlt)
  have hweight : 2 ^ (64 * n) = 2 ^ 64 * 2 ^ (64 * (n - 1)) := by
    rw [← Nat.pow_add]
    congr 1
    omega
  rw [hweight] at hlt ⊢
  have htop : (wordOf a (n - 1)).toNat = value a / 2 ^ (64 * (n - 1)) := by
    rw [toNat_wordOf (by omega)]
    exact Nat.mod_eq_of_lt (Nat.div_lt_of_lt_mul (by rwa [Nat.mul_comm]))
  have htop0 : wordOf a (n - 1) ≠ 0 := by
    intro h
    rw [h] at htop
    exact absurd htop (Nat.div_pos (hle hn0) (Nat.two_pow_pos _)).ne
  obtain ⟨hs, hlo, hhi⟩ := clz64_spec _ htop0
  rw [htop] at hlo hhi
  exact ⟨Nat.pos_of_ne_zero hn0, hs, shifted_bounds (Nat.two_pow_pos _) hs hlo hhi⟩

/-- What normalization establishes: the divisor's top bit is bit 63 of its highest word, and both operands are shifted
alike. -/
structure Normalized (words u v : Nat) (a : DivArgs) : Prop where
  n_pos : 0 < a.n
  n_le : a.n ≤ words
  m_le : a.m ≤ words
  shift_le : a.shift ≤ 63
  le_divisor : 2 ^ (64 * (a.n - 1)) ≤ v
  numerator_lt : u < 2 ^ (64 * a.m)
  length_d : a.d.length = a.n
  value_d : value a.d = v * 2 ^ a.shift
  le_value_d : 2 ^ 63 * 2 ^ (64 * (a.n - 1)) ≤ value a.d
  length_un : a.un.length = words + 1
  value_un : value a.un = u * 2 ^ a.shift

theorem normalize_spec {words u v : Nat} (hu : u < 2 ^ (64 * words)) (hv : v < 2 ^ (64 * words)) (hne : v ≠ 0) :
    Normalized words u v (normalize words u v) := by
  have huw : value (toWords words u) = u := (value_toWords ..).trans (Nat.mod_eq_of_lt hu)
  have hvw : value (toWords words v) = v := (value_toWords ..).trans (Nat.mod_eq_of_lt hv)
  obtain ⟨hm, hult, -⟩ := significantWords_spec (toWords words u)
  obtain ⟨hn, -, hvle⟩ := significantWords_spec (toWords words v)
  obtain ⟨hpos, hs, hdlo, hdhi⟩ := normalizingShift_spec (hvw.symm ▸ hne)
  rw [length_toWords] at hm hn
  rw [huw] at hult
  rw [hvw] at hvle hdlo hdhi
  have hd : value (normalize words u v).d = v * 2 ^ (normalize words u v).shift :=
    (value_toWords ..).trans (Nat.mod_eq_of_lt hdhi)
  have hun : value (normalize words u v).un = u * 2 ^ (normalize words u v).shift := by
    refine (value_toWords ..).trans (Nat.mod_eq_of_lt ?_)
    rw [Nat.mul_succ, Nat.pow_add]
    exact Nat.mul_lt_mul'' hu (Nat.pow_lt_pow_right (by decide) (Nat.lt_succ_of_le hs))
  exact
    { n_pos := hpos
      n_le := hn
      m_le := hm
      shift_le := hs
      le_divisor := hvle hpos.ne'
      numerator_lt := hult
      length_d := length_toWords ..
      value_d := hd
      le_value_d := hdlo.trans_eq hd.symm
      length_un := length_toWords ..
      value_un := hun }

section
variable {words u v : Nat} {a : DivArgs} (h : Normalized words u v a)
include h

/-- The word above the numerator's `m` significant words is small. -/
theorem Normalized.un_lt : value a.un < 2 ^ (64 * a.m) * 2 ^ 63 := by
  rw [h.value_un]
  exact Nat.lt_of_lt_of_le (Nat.mul_lt_mul_of_pos_right h.numerator_lt (Nat.two_pow_pos _))
    (Nat.mul_le_mul_left _ (Nat.pow_le_pow_right (by decide) h.shift_le))

/-- Where the `m++` step does not apply, the numerator has `m` words, of which the highest is below the divisor's. -/
theorem Normalized.un_lt_of_not_grown (hm : 0 < a.m) (hzero : wordOf a.un a.m = 0)
    (hword : wordOf a.un (a.m - 1) < wordOf a.d (a.n - 1)) :
    value a.un < 2 ^ (64 * (a.m - 1)) * (value a.d / 2 ^ (64 * (a.n - 1))) := by
  have hm_le := h.m_le
  have hn_pos := h.n_pos
  have hlen_un := h.length_un
  have hlen_d := h.length_d
  have hhigh := congrArg BitVec.toNat hzero
  rw [BitVec.lt_def, toNat_wordOf (by omega), toNat_wordOf (by omega)] at hword
  rw [toNat_wordOf (by omega)] at hhigh
  have hsmall := Nat.div_lt_of_lt_mul h.un_lt
  have hquotient : value a.un / 2 ^ (64 * a.m) = 0 := (Nat.mod_eq_of_lt (by omega)).symm.trans hhigh
  have hlt : value a.un < 2 ^ (64 * (a.m - 1)) * 2 ^ 64 := by
    have hweight : 64 * (a.m - 1) + 64 = 64 * a.m := by omega
    rw [← Nat.pow_add, hweight]
    exact (Nat.div_eq_zero_iff_lt (Nat.two_pow_pos _)).1 hquotient
  rw [Nat.mod_eq_of_lt (Nat.div_lt_of_lt_mul hlt)] at hword
  rw [Nat.mul_comm]
  exact (Nat.div_lt_iff_lt_mul (Nat.two_pow_pos _)).1 (hword.trans_le (Nat.mod_le ..))

/-- With the `m++` step the divisor is above the numerator's top words (R268). -/
theorem numeratorLength_spec (hmn : a.n ≤ a.m) :
    a.n ≤ numeratorLength a ∧ numeratorLength a ≤ words + 1 ∧
      value a.un < 2 ^ (64 * (numeratorLength a - a.n)) * value a.d := by
  have hm := h.m_le
  have hn := h.n_pos
  unfold numeratorLength
  split
  case isTrue =>
    refine ⟨by omega, by omega, h.un_lt.trans_le ?_⟩
    have hweight : 64 * a.m = 64 * (a.m + 1 - a.n) + 64 * (a.n - 1) := by omega
    rw [hweight, Nat.pow_add, Nat.mul_assoc, Nat.mul_comm _ (2 ^ 63)]
    exact Nat.mul_le_mul_left _ h.le_value_d
  case isFalse hgrown =>
    rw [not_or, not_not, BitVec.not_le] at hgrown
    refine ⟨hmn, by omega, (h.un_lt_of_not_grown (by omega) hgrown.1 hgrown.2).trans_le ?_⟩
    have hweight : 64 * (a.m - 1) = 64 * (a.m - a.n) + 64 * (a.n - 1) := by omega
    rw [hweight, Nat.pow_add, Nat.mul_assoc]
    exact Nat.mul_le_mul_left _ (Nat.mul_div_le ..)

end

/-- The numerator's words from the top down: zeros, `n` words that make a number below the divisor, and those still to
be divided. -/
structure NumeratorParts (n d : Nat) (un low win rest : List Word) : Prop where
  un_eq : un = low ++ (win ++ rest)
  length_win : win.length = n
  value_rest : value rest = 0
  value_win_lt : value win < d
  value_un : value low + 2 ^ (64 * low.length) * value win = value un

/-- An array below `d` times a power of the base has these parts. -/
theorem exists_numeratorParts {un : List Word} {len n d : Nat} (hn : n ≤ len) (hlen : len ≤ un.length)
    (hd : d < 2 ^ (64 * n)) (h : value un < 2 ^ (64 * (len - n)) * d) :
    ∃ low win rest, low.length = len - n ∧ NumeratorParts n d un low win rest := by
  have hlow : (un.take (len - n)).length = len - n := by rw [List.length_take]; omega
  have hwin : ((un.drop (len - n)).take n).length = n := by rw [List.length_take, List.length_drop]; omega
  have hsplit := value_take_drop un (len - n) (by omega)
  rw [value_take_drop (un.drop (len - n)) n (by rw [List.length_drop]; omega)] at hsplit
  have hlt : value ((un.drop (len - n)).take n) + 2 ^ (64 * n) * value ((un.drop (len - n)).drop n) < d :=
    Nat.lt_of_mul_lt_mul_left (a := 2 ^ (64 * (len - n))) (by omega)
  have hzero : value ((un.drop (len - n)).drop n) = 0 := by
    by_contra hne
    have := Nat.le_mul_of_pos_right (2 ^ (64 * n)) (Nat.pos_of_ne_zero hne)
    omega
  rw [hzero, Nat.mul_zero, Nat.add_zero] at hsplit hlt
  exact ⟨_, _, _, hlow,
    { un_eq := by rw [List.take_append_drop, List.take_append_drop]
      length_win := hwin
      value_rest := hzero
      value_win_lt := hlt
      value_un := by rw [hlow, hsplit] }⟩

end Sys2Proof.Machine

/-! ### The whole division (R268 to R275) -/

namespace Sys2Proof.Machine

/-- Quotient and remainder of the shifted operands are the quotient and the shifted remainder (R275). -/
theorem denormalize_exact {u v s q r : Nat} (hr : r < v * 2 ^ s) (h : q * (v * 2 ^ s) + r = u * 2 ^ s) :
    q = u / v ∧ r / 2 ^ s = u % v := by
  have hpos := Nat.two_pow_pos s
  obtain ⟨hquotient, hremainder⟩ :=
    (Nat.div_mod_unique (a := u * 2 ^ s) (d := q) (c := r) (Nat.zero_lt_of_lt hr)).2 ⟨by rw [← h]; ring, hr⟩
  rw [Nat.mul_div_mul_right _ _ hpos] at hquotient
  rw [Nat.mul_mod_mul_right] at hremainder
  rw [← hremainder, Nat.mul_div_cancel _ hpos]
  exact ⟨hquotient.symm, rfl⟩

/-- A numerator below the divisor is the remainder (R268). -/
theorem early_out_exact {u v : Nat} (hlt : u < v) : 0 = u / v ∧ u = u % v :=
  ⟨(Nat.div_eq_of_lt hlt).symm, (Nat.mod_eq_of_lt hlt).symm⟩

section
variable {words u v : Nat} {a : DivArgs} (h : Normalized words u v a) {low win rest : List Word}
  (hp : NumeratorParts a.n (value a.d) a.un low win rest)
include h hp

/-- Digits and remainder of the shifted numerator are what the division answers. -/
theorem digits_exact {digits : List Word} {r : Nat} (hr : r < value a.d)
    (hdigits : value digits * value a.d + r = value low + 2 ^ (64 * low.length) * value win) :
    value digits = u / v ∧ r / 2 ^ a.shift = u % v := by
  rw [hp.value_un, h.value_un, h.value_d] at hdigits
  exact denormalize_exact (h.value_d ▸ hr) hdigits

/-- As `digits_exact`, for a fast path, which leaves the digits in the numerator's array under zeros. -/
theorem window_exact (hu : u < 2 ^ (64 * words)) {digits top : List Word} {r : Nat} (htop : value top = 0)
    (hr : r < value a.d)
    (hdigits : value digits * value a.d + r = value low + 2 ^ (64 * low.length) * value win) :
    value (window (digits ++ top) 0 words) = u / v ∧ r / 2 ^ a.shift = u % v := by
  obtain ⟨hq, hremainder⟩ := digits_exact h hp hr hdigits
  have hlt : u / v < 2 ^ (64 * words) := Nat.lt_of_le_of_lt (Nat.div_le_self ..) hu
  rw [window_zero, value_take, value_append, htop, Nat.mul_zero, Nat.add_zero, hq, Nat.mod_eq_of_lt hlt]
  exact ⟨rfl, hremainder⟩

/-- The fast path for one word (R269). -/
theorem oneWordLoop_exact (hu : u < 2 ^ (64 * words)) (hn : a.n = 1) :
    let r := oneWordLoop (wordOf a.d 0) low.length (wordOf a.un low.length) (a.un.set low.length 0)
    value (window r.1 0 words) = u / v ∧ r.2.toNat / 2 ^ a.shift = u % v := by
  obtain ⟨d0, hd⟩ := List.length_eq_one_iff.1 (h.length_d.trans hn)
  obtain ⟨x, rfl⟩ := List.length_eq_one_iff.1 (hp.length_win.trans hn)
  have hlt := hp.value_win_lt
  rw [hd, value_singleton, value_singleton] at hlt
  obtain ⟨digits, r, hloop, -, hdigits, hr⟩ := digitLoop_spec (dividesBy_udivrem2by1 d0) low (0 :: rest) hlt
  have htop : value (0 :: rest) = 0 := by simp [value, hp.value_rest]
  rw [← value_singleton d0, ← hd] at hdigits hr
  rw [← value_singleton x] at hdigits
  simp only [hp.un_eq, hd, wordOf_cons_zero, List.cons_append, List.nil_append, wordOf_append_cons, set_append_cons,
    oneWordLoop_eq, hloop]
  exact window_exact h hp hu htop hr hdigits

/-- The fast path for two words (R270). -/
theorem twoWordLoop_exact (hu : u < 2 ^ (64 * words)) (hn : a.n = 2) :
    let r := twoWordLoop (joinWords (wordOf a.d 1) (wordOf a.d 0)) low.length
      (joinWords (wordOf a.un (low.length + 1)) (wordOf a.un low.length))
      ((a.un.set (low.length + 1) 0).set low.length 0)
    value (window r.1 0 words) = u / v ∧ r.2.toNat / 2 ^ a.shift = u % v := by
  obtain ⟨d0, d1, hd⟩ := List.length_eq_two.1 (h.length_d.trans hn)
  obtain ⟨x0, x1, rfl⟩ := List.length_eq_two.1 (hp.length_win.trans hn)
  have hlt := hp.value_win_lt
  rw [hd, value_pair, value_pair] at hlt
  obtain ⟨digits, r, hloop, -, hdigits, hr⟩ :=
    digitLoop_spec (dividesBy_udivrem3by2 (joinWords d1 d0)) low (0 :: 0 :: rest) hlt
  have htop : value (0 :: 0 :: rest) = 0 := by simp [value, hp.value_rest]
  rw [← value_pair, ← hd] at hdigits hr
  rw [← value_pair x0] at hdigits
  simp only [hp.un_eq, hd, wordOf_cons_zero, wordOf_cons_succ, List.cons_append, List.nil_append, wordOf_append_cons,
    wordOf_append_right, set_append_right, set_append_cons, List.set_cons_succ, List.set_cons_zero, twoWordLoop_eq,
    hloop]
  exact window_exact h hp hu htop hr hdigits

/-- The general case (R271). -/
theorem knuthLoop_exact {k : Nat} (hn : a.n = k + 2) (hlow : low.length ≤ words) :
    let r := knuthLoop a.d a.n low.length a.un (List.replicate words 0) []
    value r.2.1 = u / v ∧ value (window r.1 0 a.n) / 2 ^ a.shift = u % v := by
  have hnorm : 2 ^ (64 * (k + 1)) ≤ value a.d := by
    have := h.le_value_d
    rw [hn, Nat.add_succ_sub_one] at this
    omega
  obtain ⟨digits, win', rest', path, hloop, -, hwin', hdigits, hr⟩ := knuthLoop_spec (h.length_d.trans hn) hnorm low rest
    (List.replicate (words - low.length) 0) [] (hp.length_win.trans hn) hp.value_win_lt
  rw [List.replicate_append_replicate, Nat.add_sub_cancel' hlow, ← hp.un_eq, ← hn] at hloop
  simp only [hloop]
  rw [window_zero, List.take_left' (hwin'.trans hn.symm), value_append, value_replicate_zero, Nat.mul_zero,
    Nat.add_zero]
  exact digits_exact h hp hr hdigits

end

theorem divide_spec {words u v : Nat} (hu : u < 2 ^ (64 * words)) (hv : v < 2 ^ (64 * words)) (hne : v ≠ 0) :
    (divide words u v).q = u / v ∧ (divide words u v).r = u % v := by
  have h := normalize_spec hu hv hne
  simp only [divide]
  generalize normalize words u v = a at h
  have hpos := h.n_pos
  split
  case isTrue hfewer =>
    have hle : 2 ^ (64 * a.m) ≤ 2 ^ (64 * (a.n - 1)) := Nat.pow_le_pow_right (by decide) (by omega)
    exact early_out_exact (h.numerator_lt.trans_le (hle.trans h.le_divisor))
  case isFalse hmn =>
    obtain ⟨hn, hlen, hlt⟩ := numeratorLength_spec h (Nat.le_of_not_lt hmn)
    generalize numeratorLength a = len at *
    split
    case isTrue hle =>
      have hzero : len - a.n = 0 := by omega
      rw [hzero, Nat.pow_zero, Nat.one_mul, h.value_un, h.value_d] at hlt
      exact early_out_exact (Nat.lt_of_mul_lt_mul_right hlt)
    case isFalse hlonger =>
      obtain ⟨low, win, rest, hlow, hp⟩ :=
        exists_numeratorParts hn (h.length_un ▸ hlen) (h.length_d ▸ value_lt a.d) hlt
      split
      case isTrue hone =>
        rw [show len - 1 = low.length by omega]
        exact oneWordLoop_exact h hp hu hone
      case isFalse =>
        split
        case isTrue htwo =>
          rw [show len - 1 = low.length + 1 by omega, show len - 2 = low.length by omega]
          exact twoWordLoop_exact h hp hu htwo
        case isFalse =>
          rw [← hlow]
          exact knuthLoop_exact h hp (k := a.n - 2) (by omega) (by omega)

end Sys2Proof.Machine

namespace Sys2Proof

open Machine

/-- Settles O59: both widths are whole numbers of words. -/
theorem dividerCircuitDivides : Obligations.DividerCircuitDivides := by
  intro w u v hu hv hne
  rw [w.bits_eq_words] at hu hv
  exact divide_spec hu hv hne

end Sys2Proof

/-! ## The modular commands and their units (46_modular.md) -/

/-! ### The fast path of ADDMOD (R302) -/

namespace Sys2Proof.Machine

/-- Below twice the modulus, one conditional subtraction is the remainder. -/
theorem ite_sub_eq_mod {x m : Nat} (h : x < 2 * m) : (if x ≥ m then x - m else x) = x % m := by
  split
  case isTrue hge => rw [Nat.mod_eq_sub_mod hge, Nat.mod_eq_of_lt (by omega)]
  case isFalse hlt => exact (Nat.mod_eq_of_lt (Nat.lt_of_not_le hlt)).symm

theorem fastPathApplies_iff (x y m : Nat) : fastPathApplies x y m = true ↔
    wordAt m 3 ≠ 0 ∧ wordAt x 3 ≤ wordAt m 3 ∧ wordAt y 3 ≤ wordAt m 3 := by
  simp [fastPathApplies, and_assoc]

/-- What the guard says of an operand: with a top word at most that of `m` it exceeds `m` by less than `2^192`, and `m` is at
least that. -/
theorem lt_two_mul_of_top_word_le {x m : Nat} (hx : x < 2 ^ 256) (hm : m < 2 ^ 256) (hne : wordAt m 3 ≠ 0)
    (hle : wordAt x 3 ≤ wordAt m 3) : x < 2 * m := by
  simp only [wordAt, bitsAt] at hne hle
  omega

/-- A carry says that the sum passed `m`, and then the difference wraps back to the exact one; without a carry it is the
borrow that compares the sum with `m`. -/
theorem wrapped_difference_eq_ite {n m a b s t : Nat} {carry borrow : Bool} (ha : a < m) (hb : b < m) (hs : s < n)
    (ht : t < n) (hadd : a + b = carry.toNat * n + s) (hsub : s + borrow.toNat * n = t + m) :
    (if carry = true ∨ borrow = false then t else s) = if a + b ≥ m then a + b - m else a + b := by
  match carry, borrow with
  | true, true =>
    rw [Bool.toNat_true] at hadd hsub
    rw [if_pos (.inl rfl), if_pos (by omega)]
    omega
  | true, false =>
    rw [Bool.toNat_true] at hadd
    rw [Bool.toNat_false] at hsub
    omega
  | false, true =>
    rw [Bool.toNat_false] at hadd
    rw [Bool.toNat_true] at hsub
    rw [if_neg (by decide), if_neg (by omega)]
    omega
  | false, false =>
    rw [Bool.toNat_false] at hadd hsub
    rw [if_pos (.inr rfl), if_pos (by omega)]
    omega

/-- The guard lets one conditional subtraction reduce each operand, and the sum of two remainders needs one more. -/
theorem addmodFast_eq {x y m : Nat} (hx : x < 2 ^ 256) (hy : y < 2 ^ 256) (hm : m < 2 ^ 256)
    (hguard : fastPathApplies x y m = true) : addmodFast x y m = (x + y) % m := by
  obtain ⟨hne, hxm, hym⟩ := (fastPathApplies_iff x y m).1 hguard
  have hx2 := lt_two_mul_of_top_word_le hx hm hne hxm
  have hxlt : x % m < m := Nat.mod_lt x (by omega)
  have hylt : y % m < m := Nat.mod_lt y (by omega)
  have hsum := addWithCarry_fst_lt .w256 (x % m) (y % m) false
  simp only [addmodFast, ite_sub_eq_mod hx2, ite_sub_eq_mod (lt_two_mul_of_top_word_le hy hm hne hym)]
  calc _ = if x % m + y % m ≥ m then x % m + y % m - m else x % m + y % m :=
        wrapped_difference_eq_ite hxlt hylt hsum (subWithBorrow_fst_lt ..)
          (addWithCarry_spec .w256 _ _ false (hxlt.trans hm) (hylt.trans hm)) (subWithBorrow_spec .w256 _ m false hsum hm)
    _ = (x % m + y % m) % m := ite_sub_eq_mod (by omega)
    _ = (x + y) % m := (Nat.add_mod x y m).symm

/-! ### The paths through the 512-bit divider (R301, R306) -/

/-- A remainder modulo a 256-bit modulus fits in 256 bits, so that the truncation drops nothing. -/
theorem trunc_divide_r {u m : Nat} (hu : u < 2 ^ (64 * 8)) (hm : m < 2 ^ 256) (hne : m ≠ 0) :
    trunc 256 (divide 8 u m).r = u % m := by
  rw [(divide_spec hu (hm.trans_le (Nat.pow_le_pow_right (by decide) (by decide))) hne).2]
  exact trunc_of_lt ((Nat.mod_lt u (Nat.pos_of_ne_zero hne)).trans hm)

theorem addmodGeneric_eq {x y m : Nat} (hx : x < 2 ^ 256) (hy : y < 2 ^ 256) (hm : m < 2 ^ 256) (hne : m ≠ 0) :
    addmodGeneric x y m = (x + y) % m := by
  have hsum : x + y = (addWithCarry .w256 x y false).2.toNat * 2 ^ 256 + (addWithCarry .w256 x y false).1 :=
    addWithCarry_spec .w256 x y false hx hy
  rw [addmodGeneric, ← hsum]
  exact trunc_divide_r (by omega) hm hne

theorem mulmodByUnits_eq {x y m : Nat} (hx : x < 2 ^ 256) (hy : y < 2 ^ 256) (hm : m < 2 ^ 256) (hne : m ≠ 0) :
    mulmodByUnits x y m = x * y % m := by
  have hproduct : x * y < 2 ^ (64 * 8) :=
    calc x * y < 2 ^ 256 * 2 ^ 256 := Nat.mul_lt_mul'' hx hy
      _ = 2 ^ (64 * 8) := by rw [← Nat.pow_add]
  rw [mulmodByUnits, umulByLevels_eq 2 hx hy]
  exact trunc_divide_r hproduct hm hne

end Sys2Proof.Machine

namespace Sys2Proof

open Machine

/-- Settles O60: the divider gives the exact remainder, and under the guard three conditional subtractions do too. -/
theorem modularPathsAgree : Obligations.ModularPathsAgree := fun _ _ _ hx hy hm hne =>
  ⟨addmodGeneric_eq hx hy hm hne, addmodFast_eq hx hy hm, mulmodByUnits_eq hx hy hm hne⟩

/-! ### The commands (R303, R306) -/

section
variable {rd rs1 rs2 rs3 : Reg} {s : State}

/-- A modular command has no form at N = 512 (30_encoding.md R110 condition 8). -/
theorem decode_modular_w512 {op : Nat} (hop : op ∈ opcodesModular) :
    ∃ e, decode (encodeR op .w512 rd rs1 rs2 rs3) = .error e := by
  have hlt : ∀ op ∈ opcodesModular, op < 64 := by decide
  obtain ⟨hfield, hwidth, -⟩ := fields_encodeR .w512 (hlt op hop) rd.isLt rs1.isLt rs2.isLt rs3.isLt
  have hcondition : opField (encodeR op .w512 rd rs1 rs2 rs3) ∈ opcodesModular := by rwa [opField, hfield]
  rw [decode_eq_error_iff]
  simp only [IllegalWord, hcondition, hwidth, Width.bit, true_and, true_or, or_true]

/-- A remainder modulo a nonzero N-bit modulus is an N-bit value. -/
theorem mod_operand_lt {w : Width} {r : Reg} (hm : s.operand w r ≠ 0) (v : Nat) : v % s.operand w r < 2 ^ w.bits :=
  (Nat.mod_lt v (Nat.pos_of_ne_zero hm)).trans (s.operand_lt w r)

/-- `ADDMOD` with a nonzero modulus, from its word to the remainder of the sum in `rd`. -/
theorem addmod_spec (hm : s.operand .w256 rs3 ≠ 0) :
    decode (encode (.addmod rd rs1 rs2 rs3)) = .ok (.addmod rd rs1 rs2 rs3) ∧
    ∃ t, exec (.addmod rd rs1 rs2 rs3) s = .next t ∧ Completed [rd] s t ∧ t.carry = s.carry ∧
      (t.reg rd).toNat = (s.operand .w256 rs1 + s.operand .w256 rs2) % s.operand .w256 rs3 :=
  oneResult_spec rfl (if_neg hm) (mod_operand_lt hm _)

/-- `MULMOD` with a nonzero modulus, from its word to the remainder of the product in `rd`. -/
theorem mulmod_spec (hm : s.operand .w256 rs3 ≠ 0) :
    decode (encode (.mulmod rd rs1 rs2 rs3)) = .ok (.mulmod rd rs1 rs2 rs3) ∧
    ∃ t, exec (.mulmod rd rs1 rs2 rs3) s = .next t ∧ Completed [rd] s t ∧ t.carry = s.carry ∧
      (t.reg rd).toNat = s.operand .w256 rs1 * s.operand .w256 rs2 % s.operand .w256 rs3 :=
  oneResult_spec rfl (if_neg hm) (mod_operand_lt hm _)

end

/-- Settles O45: O44's fault entry for a zero modulus, else the remainder, which fits in 256 bits. -/
theorem modularResults : Obligations.ModularResults := fun rd rs1 rs2 rs3 s =>
  ⟨⟨decodeInvertsEncode (.addmod rd rs1 rs2 rs3) rfl, decodeInvertsEncode (.mulmod rd rs1 rs2 rs3) rfl,
      decode_modular_w512 (by decide), decode_modular_w512 (by decide)⟩,
    fun hzero => ⟨zeroDivisorFaults (.addmod rd rs1 rs2 rs3) s (congrArg some hzero),
      zeroDivisorFaults (.mulmod rd rs1 rs2 rs3) s (congrArg some hzero)⟩,
    fun hm => ⟨(addmod_spec hm).2, (mulmod_spec hm).2⟩⟩

end Sys2Proof

/-! ## The control commands (47_control.md) -/

namespace Sys2Proof.Machine

/-! ### Where a command runs (R321) -/

/-- The two states differ in `pc` and in `FPC`, which records it, only. -/
def SameButPc (s s' : State) : Prop := ∃ p f, s' = { s with pc := p, fpc := f }

theorem sameButPc_keptByUpdates (i : Instr) : KeptByUpdates i SameButPc where
  writeResult _ _ := by rintro ⟨p, f, rfl⟩; exact ⟨p, f, rfl⟩
  advance := by rintro _ _ ⟨p, f, rfl⟩; exact ⟨p + 1, f, rfl⟩
  takeFault _ := by rintro ⟨p, f, rfl⟩; exact ⟨p, p, rfl⟩
  storeBytes _ _ _ := by rintro ⟨p, f, rfl⟩; exact ⟨p, f, rfl⟩
  setCarry _ _ := by rintro ⟨p, f, rfl⟩; exact ⟨p, f, rfl⟩
  halt _ := by rintro ⟨p, f, rfl⟩; exact ⟨p, p, rfl⟩

/-- Settles O25: a command carries `SameButPc` from the states it starts in to those it answers. -/
theorem commandsDoNotReadPc : Obligations.CommandsDoNotReadPc := by
  intro i s t p h
  obtain ⟨_, h', q, f, rfl⟩ := exec_transfers (s' := { s with pc := p }) (sameButPc_keptByUpdates i) ⟨p, s.fpc, rfl⟩
    (fun _ _ => rfl) (fun _ => rfl) rfl t h
  exact ⟨_, h', rfl, rfl, rfl, rfl, rfl, rfl, rfl, rfl⟩

/-! ### `NOP` and `HALT` (R320, R322) -/

/-- A word of Format N with any of bits 31:6 set is illegal (30_encoding.md R110 condition 6). -/
theorem decode_formatN_operands {c : Command} (hop : opField c ∈ [0x01, 0x02]) (h6 : field c.toNat 6 26 ≠ 0) :
    ∃ e, decode c = .error e :=
  (decode_eq_error_iff c).2 (.inr (.inr (.inr (.inr (.inr (.inl ⟨hop, h6⟩))))))

theorem Completed.of_advance (s : State) : Completed [] s s.advance :=
  ⟨rfl, fun _ _ => ⟨rfl, rfl⟩, nofun, ⟨rfl, rfl, rfl, rfl, rfl⟩, fun _ => rfl, fun _ => rfl⟩

/-- Settles O12: `NOP` is `State.advance`, and it has no source that could be poison. -/
theorem nopOnlyAdvances : Obligations.NopOnlyAdvances := by
  refine ⟨fun s => ⟨s.advance, rfl, ?_, .of_advance s, rfl⟩, decodeInvertsEncode .nop rfl,
    fun c hop => decode_formatN_operands (by simp [hop])⟩
  exact strictExec_of_written (i := .nop) nofun

/-- Settles O13: `HALT` is `State.halt`, and the block it stops takes a START as O14 says. -/
theorem haltEndsTheRun : Obligations.HaltEndsTheRun := by
  refine ⟨fun s => ?_, decodeInvertsEncode .halt rfl, fun c hop => decode_formatN_operands (by simp [hop])⟩
  obtain ⟨u, hu, -, hstart, -⟩ := startBeginsARun s.halt 1
  obtain ⟨hpc, -, -, hrun, -⟩ := hstart nofun rfl
  exact ⟨s.halt, rfl, rfl, rfl, rfl, rfl, fun _ _ => ⟨rfl, rfl⟩, rfl, rfl, rfl, rfl, fun _ => rfl, fun _ => rfl,
    u, hu, hpc, hrun⟩

/-! ### The end of a run (R321, 70_reset_and_hazards.md R378) -/

/-- A sequencer step has a next state or is `UNWRITTEN_READ`. -/
theorem sequencerStep_stops (s : State) :
    (∃ t, sequencerStep s = .next t) ∨ ∃ what, sequencerStep s = .fault (.unwrittenRead what) := by
  unfold sequencerStep
  cases fetch s with
  | outOfRange => exact .inl ⟨_, rfl⟩
  | unwritten => exact .inr ⟨_, rfl⟩
  | illegal why => exact .inl ⟨_, rfl⟩
  | command i => exact (exec_stops i s).imp_right fun ⟨_, h, _⟩ => ⟨_, h⟩

/-- A command ends the run, or completes with the control state as it was. -/
theorem Effect.ends_or_advances {s t : State} (h : Effect s t) :
    (t.runState = .halted ∨ t.runState = .faulted) ∨ (t.pc = s.pc + 1 ∧ ControlKept s t) := by
  cases h with
  | completed ds h =>
    obtain ⟨hpc, -, -, hctl, -⟩ := h
    exact .inr ⟨hpc, hctl⟩
  | stored a bs _ _ h =>
    obtain ⟨hpc, -, -, hctl, -⟩ := h
    exact .inr ⟨hpc, hctl⟩
  | faulted k _ e => subst e; exact .inl (.inr rfl)
  | halted e => subst e; exact .inl (.inl rfl)

/-- Of the next states a sequencer step answers, those that do not end the run are one index further on, the command
having stood below the last index. -/
theorem sequencerStep_ends_or_advances {s t : State} (h : sequencerStep s = .next t) :
    (t.runState = .halted ∨ t.runState = .faulted) ∨
      (s.pc.toNat < 4096 ∧ t.pc = s.pc + 1 ∧ ControlKept s t) := by
  obtain ⟨k, -, rfl⟩ | ⟨hlt, i, -, -, heff⟩ := sequencerStep_effect h
  · exact .inl (.inr rfl)
  · exact heff.ends_or_advances.imp_right fun ⟨hpc, hctl⟩ => ⟨hlt, hpc, hctl⟩

/-- The outcome of some steps is the end of a run: a halted or faulted block, or `UNWRITTEN_READ`. -/
def RunEnd (o : Host.Outcome State Fault Refusal) : Prop :=
  (∃ t, o = .next t ∧ (t.runState = .halted ∨ t.runState = .faulted)) ∨ ∃ what, o = .fault (.unwrittenRead what)

/-- At most `n` steps from `s` are the end of a run. -/
def EndsWithin (n : Nat) (s : State) : Prop := ∃ k, k ≤ n ∧ RunEnd (core.run k s)

section
variable {M : Host.Core} {s : M.State}

theorem run_succ_of_next {t : M.State} (h : M.step s = .next t) (k : Nat) : M.run (k + 1) s = M.run k t := by
  rw [Host.Core.run, h]

theorem run_succ_of_fault {r : M.Fault} (h : M.step s = .fault r) (k : Nat) : M.run (k + 1) s = .fault r := by
  rw [Host.Core.run, h]

end

theorem EndsWithin.of_next {n : Nat} {s t : State} (h : step s = .next t) (ht : EndsWithin n t) :
    EndsWithin (n + 1) s := by
  obtain ⟨k, hk, hend⟩ := ht
  exact ⟨k + 1, Nat.succ_le_succ hk, (run_succ_of_next (M := core) h k).symm ▸ hend⟩

theorem EndsWithin.of_fault {n : Nat} {s : State} {what : Unwritten} (h : step s = .fault (.unwrittenRead what)) :
    EndsWithin (n + 1) s :=
  ⟨1, Nat.succ_le_succ n.zero_le, .inr ⟨what, run_succ_of_fault (M := core) h 0⟩⟩

theorem EndsWithin.of_ended {s : State} (h : s.runState = .halted ∨ s.runState = .faulted) (n : Nat) :
    EndsWithin n s :=
  ⟨0, n.zero_le, .inl ⟨s, rfl, h⟩⟩

/-- A step of a running block ends the run or is followed by the command one index further on. -/
theorem running_endsWithin_succ {n : Nat} {s : State} (hturns : s.hostTurns = []) (hr : s.runState = .running)
    (hnext : ∀ t, s.pc.toNat < 4096 → t.pc = s.pc + 1 → t.hostTurns = [] → t.runState = .running → EndsWithin n t) :
    EndsWithin (n + 1) s := by
  have hstep : step s = sequencerStep s := (step_of_no_turns hturns).trans (blockStep_of_running hr)
  obtain ⟨t, ht⟩ | ⟨what, ht⟩ := sequencerStep_stops s
  · refine .of_next (hstep.trans ht) ?_
    obtain hend | ⟨hlt, hpc, hrun, -, -, -, hkept⟩ := sequencerStep_ends_or_advances ht
    · exact .of_ended hend n
    · exact hnext t hlt hpc (hkept.trans hturns) (hrun.trans hr)
  · exact .of_fault (hstep.trans ht)

/-- With `n` indices left a run ends within `n` commands and a fetch: with none left no command stands at `pc`, and the
fetch ends the run. -/
theorem running_endsWithin {n : Nat} {s : State} (hturns : s.hostTurns = []) (hr : s.runState = .running)
    (hn : 4096 ≤ s.pc.toNat + n) : EndsWithin (n + 1) s := by
  induction n generalizing s with
  | zero => exact running_endsWithin_succ hturns hr fun t hlt => absurd hlt (Nat.not_lt.2 hn)
  | succ n ih =>
    refine running_endsWithin_succ hturns hr fun t hlt hpc hturns' hr' => ih hturns' hr' ?_
    have hsucc : t.pc.toNat = s.pc.toNat + 1 := by rw [hpc]; bv_omega
    omega

/-- Settles O28. The invariant is not needed: a `pc` past its range would end the run at once. -/
theorem everyRunEnds : Obligations.EveryRunEnds := fun _ _ hturns hr =>
  running_endsWithin hturns hr (by omega)

end Sys2Proof.Machine

/-! ## Fetch, the checks of a step, and fault entry (60_exceptions.md) -/

namespace Sys2Proof.Machine

/-! ### The step of a running block, by what it fetches (R334) -/

theorem sequencerStep_of_command {s : State} {i : Instr} (hf : fetch s = .command i) : sequencerStep s = exec i s := by
  rw [sequencerStep, hf]

theorem sequencerStep_of_outOfRange {s : State} (hf : fetch s = .outOfRange) :
    sequencerStep s = .next (s.takeFault .imemRange) := by
  rw [sequencerStep, hf]; rfl

theorem sequencerStep_of_unwritten {s : State} (hf : fetch s = .unwritten) :
    sequencerStep s = .fault (.unwrittenRead (.imemWord s.pc.toNat)) := by
  rw [sequencerStep, hf]

theorem blockStep_of_command {s : State} {i : Instr} (hr : s.runState = .running) (hf : fetch s = .command i) :
    blockStep s = exec i s :=
  (blockStep_of_running hr).trans (sequencerStep_of_command hf)

theorem fetch_at_end {s : State} (hpc : s.pc = 4096) : fetch s = .outOfRange :=
  fetch_outOfRange (by rw [hpc]; decide)

section
variable {s : State} (hturns : s.hostTurns = []) (hr : s.runState = .running)
include hturns hr

theorem step_of_running : step s = sequencerStep s :=
  (step_of_no_turns hturns).trans (blockStep_of_running hr)

theorem strictStep_of_command {i : Instr} (hf : fetch s = .command i) : strictStep s = strictExec i s :=
  (strictStep_of_no_turns hturns).trans (strictBlockStep_of_command hr hf)

/-- Register poison is asked about only once a command has been fetched. -/
theorem strictStep_of_no_command (hf : ∀ i, fetch s ≠ .command i) : strictStep s = sequencerStep s := by
  rw [strictStep_of_no_turns hturns, strictBlockStep_of_no_command hf, blockStep_of_running hr]

theorem step_at_end (hpc : s.pc = 4096) : step s = .next (s.takeFault .imemRange) :=
  (step_of_running hturns hr).trans (sequencerStep_of_outOfRange (fetch_at_end hpc))

end

/-- Settles O5: the two turns that are the block's, and the fetch does not read the host's turns. -/
theorem stepRunsDecodedCommand : Obligations.StepRunsDecodedCommand := by
  rintro s i hr hpc ⟨c, hw, hd⟩
  have hf : fetch s = .command i := fetch_command hpc hw hd
  exact ⟨fun hturns => (step_of_no_turns hturns).trans (blockStep_of_command hr hf),
    fun turns hturns => (step_of_pass hturns).trans
      (blockStep_of_command (s := { s with hostTurns := turns }) hr hf)⟩

/-- Settles O6: the fetch past the last index also ends the run that a START with `ENTRY` = 4096 begins. -/
theorem fetchStops : Obligations.FetchStops := by
  refine ⟨fun s hturns hr hpc => ?pastEnd, fun s hturns hr hpc hw => ?unwritten, fun _ => rfl,
    fun s i c hr => ?hostWrite, fun s hturns hr hentry => ?start⟩
  case pastEnd => exact ⟨_, step_at_end hturns hr hpc, .of_takeFault .imemRange s, hpc⟩
  case unwritten =>
    rw [step_of_running hturns hr, sequencerStep_of_unwritten (fetch_unwritten hpc hw)]
  case hostWrite =>
    exact ⟨_, if_neg hr, Memory.read_write_self .., fun j hj => Memory.read_write_of_ne _ _ _ _ hj⟩
  case start =>
    have hstart : hostMove (.writeCsr 0x00 1) s = .next s.start :=
      congrArg Host.Outcome.next (writeCsr_ctrl_start hr rfl)
    exact ⟨s.start, _, hstart, step_at_end hturns rfl hentry, .of_takeFault .imemRange s.start, hentry⟩

/-! ### Fault entry (R331) -/

/-- The only effect that leaves a block faulted is the fault entry. -/
theorem Effect.eq_takeFault {s t : State} (h : Effect s t) (hr : s.runState = .running) (ht : t.runState = .faulted) :
    ∃ k, k ≠ Cause.none ∧ t = s.takeFault k := by
  cases h with
  | completed ds h =>
    obtain ⟨-, -, -, ⟨hrun, -⟩, -⟩ := h
    simp [hrun, hr] at ht
  | stored a bs _ _ h =>
    obtain ⟨-, -, -, ⟨hrun, -⟩, -⟩ := h
    simp [hrun, hr] at ht
  | faulted k hk e => exact ⟨k, hk, e⟩
  | halted e => subst e; cases ht

/-- Settles O11: the step is the fault entry, after which the block rests. -/
theorem faultsArePrecise : Obligations.FaultsArePrecise := by
  intro s t hturns hr h ht
  rw [step_of_running hturns hr] at h
  have hentry : ∃ k, k ≠ Cause.none ∧ t = s.takeFault k := by
    obtain hfault | ⟨-, i, -, -, heff⟩ := sequencerStep_effect h
    · exact hfault
    · exact heff.eq_takeFault hr ht
  obtain ⟨k, hk, rfl⟩ := hentry
  exact ⟨hk, .of_takeFault k s, rfl, idleBlockKeepsState _ nofun hturns⟩

/-! ### The checks in their order (R332) -/

/-- A command with a load access is a load of that access. -/
theorem exec_eq_load {i : Instr} {a n : Nat} (h : loadAccess i = some (a, n)) :
    ∃ value rd addr, a = BitVec.toNat addr ∧ ∀ s, exec i s = load n value rd addr s := by
  cases i with
  | ldle | ldbe => cases h; exact ⟨_, _, _, rfl, fun _ => rfl⟩
  | _ => cases h

/-- A load in range that meets an unwritten byte stops at one. -/
theorem exec_of_unwritten_byte {i : Instr} {a n : Nat} {s : State} (hacc : loadAccess i = some (a, n))
    (hrange : a + n ≤ Config.dmemBytes) (hbyte : ∃ b, a ≤ b ∧ b < a + n ∧ s.dmemByte b = none) :
    ∃ b, a ≤ b ∧ b < a + n ∧ s.dmemByte b = none ∧ exec i s = .fault (.unwrittenRead (.dmemByte b)) := by
  obtain ⟨value, rd, addr, rfl, hload⟩ := exec_eq_load hacc
  obtain ⟨hout, -⟩ | ⟨-, b, hb, e⟩ | ⟨-, bs, hbs, -⟩ := load_cases n value rd addr s
  · exact absurd hrange (Nat.not_le.2 hout)
  · obtain ⟨h1, h2, h3, -⟩ := (Memory.readRange_eq_error ..).1 hb
    exact ⟨b, h1, h2, h3, (hload s).trans e⟩
  · obtain ⟨hlen, hread⟩ := (Memory.readRange_eq_ok ..).1 hbs
    obtain ⟨b, h1, h2, h3⟩ := hbyte
    obtain ⟨k, rfl⟩ := Nat.exists_eq_add_of_le h1
    have hk : k < bs.length := by omega
    have hwritten : s.dmemByte (addr.toNat + k) = bs[k]? := hread k (hlen ▸ hk)
    simp [h3, hk] at hwritten

/-- A load in range of written bytes finishes. -/
theorem exec_of_written_bytes {i : Instr} {a n : Nat} {s : State} (hacc : loadAccess i = some (a, n))
    (hrange : a + n ≤ Config.dmemBytes) (hbytes : ∀ b, a ≤ b → b < a + n → s.dmemByte b ≠ none) :
    ∃ rd v, exec i s = finish rd v s := by
  obtain ⟨value, rd, addr, rfl, hload⟩ := exec_eq_load hacc
  obtain ⟨hout, -⟩ | ⟨-, b, hb, -⟩ | ⟨-, bs, -, e⟩ := load_cases n value rd addr s
  · exact absurd hrange (Nat.not_le.2 hout)
  · obtain ⟨h1, h2, h3, -⟩ := (Memory.readRange_eq_error ..).1 hb
    exact absurd h3 (hbytes b h1 h2)
  · exact ⟨rd, value bs, (hload s).trans e⟩

/-- A command that passes every check has a next state, and that state is not faulted. -/
theorem exec_of_checks_passed {i : Instr} {s : State} (hr : s.runState ≠ .faulted) (hdiv : divisorOf s i ≠ some 0)
    (hrange : ∀ a n, loadAccess i = some (a, n) ∨ storeAccess i = some (a, n) → a + n ≤ Config.dmemBytes)
    (hbytes : ∀ a n, loadAccess i = some (a, n) → ∀ b, a ≤ b → b < a + n → s.dmemByte b ≠ none) :
    ∃ t, exec i s = .next t ∧ t.runState ≠ .faulted := by
  have load_finishes : ∀ {a n}, loadAccess i = some (a, n) → ∃ t, exec i s = .next t ∧ t.runState ≠ .faulted := by
    intro a n hacc
    obtain ⟨rd, v, e⟩ := exec_of_written_bytes hacc (hrange a n (.inl hacc)) (hbytes a n hacc)
    exact ⟨_, e, hr⟩
  cases i with
  | halt => exact ⟨_, rfl, nofun⟩
  | udivrem | udiv | urem | sdivrem | addmod | mulmod => exact ⟨_, if_neg fun h => hdiv (congrArg some h), hr⟩
  | ldle | ldbe => exact load_finishes rfl
  | stle | stbe | truncbe =>
    have hin := hrange _ _ (.inr rfl)
    exact ⟨_, store_of_in_range (by simpa using hin), hr⟩
  | nop | li | mov | pair | and | or | xor | not | shl | shr | add | adc | sub | sbb | neg | eq | lt | gt | le | ge | mul
  | umul | sqr | exp | bswap => exact ⟨_, rfl, hr⟩

/-- Settles O7: the fetch decides the first three checks (the third is O4's), `strictExec` the fourth, `exec` the
rest. -/
theorem checksInPriorityOrder : Obligations.ChecksInPriorityOrder := by
  refine fun s hturns hr => ⟨fun hpc => ?outOfRange, fun hpc => ⟨fun hw => ?unwritten, fun c hw =>
    ⟨fun e hd => ?illegal, fun i hd => ?command⟩⟩⟩
  case outOfRange =>
    have hf := fetch_at_end hpc
    refine ⟨_, ?_, .of_takeFault .imemRange s⟩
    rw [strictStep_of_no_command hturns hr (by simp [hf]), sequencerStep_of_outOfRange hf]
  case unwritten =>
    have hf := fetch_unwritten hpc hw
    rw [strictStep_of_no_command hturns hr (by simp [hf]), sequencerStep_of_unwritten hf]
  case illegal =>
    obtain ⟨t, ht, -, hfault⟩ :=
      (illegalWordsFault c).2 s ((decode_eq_error_iff c).1 ⟨e, hd⟩) hturns hr hpc hw
    exact ⟨t, ht, hfault⟩
  case command =>
    rw [strictStep_of_command hturns hr (fetch_command hpc hw hd)]
    refine ⟨fun ⟨r, hmem, hpoison⟩ => ?_, fun hwritten => ?_⟩
    · obtain hall | hstop := strictExec_cases i s
      · simp [hall r hmem] at hpoison
      · exact hstop
    rw [strictExec_of_written hwritten]
    refine ⟨fun hzero => ⟨_, exec_of_zero_divisor hzero, .of_takeFault .divideByZero s⟩,
      fun a n hacc hout => ⟨_, exec_of_out_of_range hacc hout s, .of_takeFault .dmemRange s⟩,
      fun a n => exec_of_unwritten_byte, fun hdiv hrange hbytes => ?_⟩
    obtain ⟨t, ht, hrun⟩ := exec_of_checks_passed (by simp [hr]) hdiv hrange hbytes
    exact ⟨t, ht, ht, hrun⟩

end Sys2Proof.Machine
